-- ==== Sys2Proof/Word.lean ====
section
/-! DEFINITION. The word types of the block (spec/00_scope.md R9: every value is an unsigned integer of a stated
width; there is no signed quantity). -/

namespace Sys2Proof

/-- `u8`: a byte of one of the block's memories or of a message. -/
abbrev Byte := BitVec 8

/-- `u16`: a CRC register or a 16-bit wire field. -/
abbrev Half := BitVec 16

/-- `u32`: a sync compare word, a timestamp or a 32-bit wire field. -/
abbrev Word := BitVec 32

end Sys2Proof
end

