-- ==== Sys2Proof/Machine/Operands.lean ====
section
/-! DEFINITION. The operand forms of the block: wire-bit and byte-order views of a byte array, the field extractor,
packed arrays, inclusive slices and realignment. Every function is total; the domains the spec gives them are checked
where a rule asks for it. A byte array is read through a function from byte offset to byte, so that one definition
serves message bytes, alignment buffers and staging. -/

namespace Sys2Proof

/-- Byte `i` of a byte list. Past the end it reads zero, which no rule of the spec relies on. -/
def byteAt (l : List Byte) (i : Nat) : Byte := l.getD i 0

/-- `bitAt(A, q)` (spec/00_scope.md R11): wire bit `q`, the most significant bit of each byte first. -/
def wireBit (rd : Nat → Byte) (q : Nat) : Bool := (rd (q / 8)).getLsbD (7 - q % 8)

/-- The value of the `n` wire bits starting at `q`, the first of them most significant (spec/44_field_extractor.md R230,
the sum form; also the compare word of spec/41_sync_detector.md R151). -/
def wireNat (rd : Nat → Byte) (q : Nat) : Nat → Nat
  | 0 => 0
  | n + 1 => 2 * wireNat rd q n + (wireBit rd (q + n)).toNat

/-- The big-endian value of `n` bytes starting at byte `i`: `BE16`, `BE24`, `BE32` of spec/00_scope.md R12 and their
generalisation `BEn` of spec/45_parsers.md R255. -/
def beNat (rd : Nat → Byte) (i : Nat) : Nat → Nat
  | 0 => 0
  | n + 1 => 256 * beNat rd i n + (rd (i + n)).toNat

/-- The little-endian value of a byte list (the ring's length prefix, spec/20_memory.md R63). -/
def leNat : List Byte → Nat
  | [] => 0
  | b :: r => b.toNat + 256 * leNat r

/-- `n` as `k` bytes, least significant byte first (spec/20_memory.md R63). -/
def leBytes : Nat → Nat → List Byte
  | 0, _ => []
  | k + 1, n => BitVec.ofNat 8 n :: leBytes k (n / 256)

/-- `m[i .. j]`, the inclusive slice of spec/45_parsers.md. -/
def slice (m : List Byte) (i j : Nat) : List Byte := (m.drop i).take (j + 1 - i)

/-- The domain of the extractor (spec/44_field_extractor.md R232). -/
def extractInDomain (buf : List Byte) (bitOffset bitLen : Nat) : Bool :=
  decide (1 ≤ bitLen) && decide (bitLen ≤ 32) && decide (bitOffset + bitLen ≤ 8 * buf.length)

/-- `EXTRACT_BITS` (spec/44_field_extractor.md R230): a partial function, `none` outside its domain (R232). -/
def extractBits (buf : List Byte) (bitOffset bitLen : Nat) : Option Word :=
  if extractInDomain buf bitOffset bitLen then
    some (BitVec.ofNat 32 (wireNat (byteAt buf) bitOffset bitLen))
  else none

/-- A bit field of a message, as a value of its width: the extractor's value on a request that lies inside the message
(spec/45_parsers.md R264 says that every parser request does). -/
def wireField (m : List Byte) (pos w : Nat) : BitVec w := BitVec.ofNat w (wireNat (byteAt m) pos w)

/-- A big-endian byte field of a message, as a value of width `w`. -/
def beField (m : List Byte) (off len w : Nat) : BitVec w := BitVec.ofNat w (beNat (byteAt m) off len)

/-- A packed array of `count` values of `w` bits starting at wire bit `start` (spec/30_encoding.md R111). -/
def packedArray (m : List Byte) (start w count : Nat) : List (BitVec w) :=
  (List.range count).map fun i => wireField m (start + w * i) w

/-- One byte of `REALIGN` (spec/46_dispatch.md R282): the byte shifted left by `o`, carrying in the top bits of the next. -/
def realignByte (cur next : Byte) (o : Nat) : Byte := (cur <<< o) ||| (next >>> (8 - o))

/-- The bytes of `REALIGN` for a nonzero shift; zeros are carried into the last byte. -/
def realignBytes (o : Nat) : List Byte → List Byte
  | [] => []
  | [b] => [realignByte b 0 o]
  | b :: c :: r => realignByte b c o :: realignBytes o (c :: r)

/-- `REALIGN(p, o)` (spec/46_dispatch.md R282): the identity for `o = 0`. -/
def realign (p : List Byte) (o : Nat) : List Byte := if o = 0 then p else realignBytes o p

end Sys2Proof
end

