-- ==== Sys2Proof/Config.lean ====
section
/-! DEFINITION. The implementation parameters of spec/00_scope.md R7 as one record, with the constraints the table puts
on them, the default values, and the two parameters the spec leaves OPEN as opaque constants. A configuration carries
the proof that it meets every constraint, so one that breaks a constraint cannot be built
(spec/93_implementation_defined.md U11). -/

namespace Sys2Proof

/-! ## Sizes the table marks fixed (spec/00_scope.md R6, R7) -/

/-- `L_SHORT`, bytes of a SHORT message. -/
def lenShort : Nat := 12
/-- `L_EXT`, bytes of an EXT message. -/
def lenExt : Nat := 16
/-- `L_LONG`, bytes of a LONG message. -/
def lenLong : Nat := 92
/-- `HDR_LEN`, bytes of the frame header (spec/30_encoding.md R97). -/
def hdrLen : Nat := 6
/-- `STG_LEN = HDR_LEN + L_LONG + 1`, bytes of the staging buffer (spec/10_state.md R34). -/
def stgLen : Nat := 99
/-- `N_DELTA_A`. -/
def nDeltaA : Nat := 47
/-- `N_DELTA_B`. -/
def nDeltaB : Nat := 27

/-! ## Parameter records -/

/-- A sync entry (spec/30_encoding.md R93). The field `pattern` is the entry's `match`. `len` and `mask` are parameters that need not
be those of the type (log entry 25). -/
structure SyncEntry where
  tag : Byte
  pattern : Word
  mask : Word
  pos : Nat
  len : Nat
  deriving DecidableEq, Repr

/-- The three constants of one CRC engine (spec/43_crc_engines.md R211, R214, R215). -/
structure CrcParams where
  poly : Half
  init : Half
  residual : Half
  deriving DecidableEq, Repr

/-- An inclusive byte range of a message (`CRC_RANGE_*`, spec/43_crc_engines.md R216). -/
structure ByteRange where
  first : Nat
  last : Nat
  deriving DecidableEq, Repr

/-- `SHORT_LAYOUT`: the first wire bit of each SHORT field (spec/30_encoding.md R102). -/
structure ShortLayout where
  /-- The sync pattern's 21 bits: a field of the layout that no record holds. -/
  preamble : Nat
  idHi : Nat
  rsv : Nat
  tamperPhy : Nat
  ertType : Nat
  tamperEnc : Nat
  consumption : Nat
  idLo : Nat
  crc : Nat
  deriving DecidableEq, Repr

/-- `LONG_A_LAYOUT`: the byte offset of each LONG common, type-A and trailer field, and the first wire bit of the
type-A delta array (spec/30_encoding.md R106, R107, R109). The offsets are parameters; the widths are those of the tables (log entry 27). -/
structure LongALayout where
  preamble : Nat
  packetType : Nat
  packetLength : Nat
  hammingCode : Nat
  appVersion : Nat
  subtype : Nat
  serial : Nat
  intervalCount : Nat
  moduleState : Nat
  tamperCounters : Nat
  asyncCounter : Nat
  powerOutageFlags : Nat
  lastConsumption : Nat
  deltaBit : Nat
  txTimeOffset : Nat
  serialCrc : Nat
  packetCrc : Nat
  deriving DecidableEq, Repr

/-- `LONG_B_LAYOUT` (spec/30_encoding.md R108). -/
structure LongBLayout where
  unknownOff : Nat
  lastOff : Nat
  lastLen : Nat
  excessOff : Nat
  residualOff : Nat
  hiresOff : Nat
  hiresLen : Nat
  deltaBit : Nat
  deriving DecidableEq, Repr, Inhabited

/-- Every parameter of spec/00_scope.md R7 that is not fixed and not an operand of `RB_INIT`. -/
structure Params where
  /-- `W_BYTES` -/
  wBytes : Nat
  /-- `SYNC_TABLE`, first entry in priority order -/
  syncLong : SyncEntry
  /-- `SYNC_TABLE`, second entry -/
  syncExt : SyncEntry
  /-- `SYNC_TABLE`, third entry -/
  syncShort : SyncEntry
  tagNone : Byte
  tagShort : Byte
  tagExt : Byte
  tagLong : Byte
  /-- `P`, the ring length-prefix size in bytes -/
  lenPrefix : Nat
  /-- `OVF_BITS` -/
  ovfBits : Nat
  bch : CrcParams
  ccitt : CrcParams
  rangeShort : ByteRange
  rangeExt : ByteRange
  rangeLong : ByteRange
  short : ShortLayout
  longA : LongALayout
  longB : LongBLayout
  /-- `LONG_SUBTYPE_B_SET` -/
  subtypeB : List Byte
  deriving DecidableEq, Repr

/-- `W_BITS = 8 * W_BYTES`. -/
def Params.wBits (p : Params) : Nat := 8 * p.wBytes

/-- `DB_BYTES = 2 * W_BYTES + 1`. -/
def Params.dbBytes (p : Params) : Nat := 2 * p.wBytes + 1

/-! ## The constraints of the table -/

/-- `W_BITS >= pos + 8*len` and `len >= 4`. Nothing more is asked of an entry's length and mask (log entry 25) and
of its pattern (log entry 28): both are the model's choice. -/
def SyncEntry.ok (wBits : Nat) (e : SyncEntry) : Bool :=
  decide (4 ≤ e.len) && decide (e.pos + 8 * e.len ≤ wBits)

/-- The range lies inside a message of `len` bytes. -/
def ByteRange.ok (len : Nat) (r : ByteRange) : Bool := decide (r.first ≤ r.last) && decide (r.last < len)

/-- Two wire-bit intervals (first bit, width) do not overlap. -/
def disjointFields (a b : Nat × Nat) : Bool := decide (a.1 + a.2 ≤ b.1) || decide (b.1 + b.2 ≤ a.1)

/-- No two intervals of a list overlap. -/
def pairwiseDisjoint : List (Nat × Nat) → Bool
  | [] => true
  | a :: r => r.all (disjointFields a) && pairwiseDisjoint r

/-- The fields of a layout, as wire-bit intervals, lie in bits `first` to `last - 1` of a message and do not overlap
(spec/00_scope.md R7, spec/93_implementation_defined.md U11). -/
def layoutOk (first last : Nat) (fields : List (Nat × Nat)) : Bool :=
  fields.all (fun f => decide (first ≤ f.1) && decide (f.1 + f.2 ≤ last)) && pairwiseDisjoint fields

/-- The nine fields of a SHORT layout (spec/30_encoding.md R102), its preamble among them. -/
def ShortLayout.fields (l : ShortLayout) : List (Nat × Nat) :=
  [(l.preamble, 21), (l.idHi, 2), (l.rsv, 1), (l.tamperPhy, 2), (l.ertType, 4), (l.tamperEnc, 2), (l.consumption, 24), (l.idLo, 24),
   (l.crc, 16)]

/-- Every SHORT field lies inside the 96 bits, apart from the others. That any place is admitted for each of them, for the preamble too, is
the model's choice (log entry 26). -/
def ShortLayout.ok (l : ShortLayout) : Bool := layoutOk 0 96 l.fields

/-- The fields of a LONG layout that both shapes have: common header and trailer (spec/30_encoding.md R106, R109). -/
def LongALayout.common (l : LongALayout) : List (Nat × Nat) :=
  [(8 * l.preamble, 32), (8 * l.packetType, 8), (8 * l.packetLength, 8), (8 * l.hammingCode, 8), (8 * l.appVersion, 8),
   (8 * l.subtype, 8), (8 * l.serial, 32), (8 * l.intervalCount, 8), (8 * l.txTimeOffset, 16), (8 * l.serialCrc, 16),
   (8 * l.packetCrc, 16)]

/-- The fields of the body of shape A (spec/30_encoding.md R107). -/
def LongALayout.body (l : LongALayout) : List (Nat × Nat) :=
  [(8 * l.moduleState, 8), (8 * l.tamperCounters, 48), (8 * l.asyncCounter, 16), (8 * l.powerOutageFlags, 48),
   (8 * l.lastConsumption, 32), (l.deltaBit, 9 * 47)]

/-- Every LONG common, type-A and trailer field lies inside the 92 bytes, apart from the others. That any order of the fields is admitted
is the model's choice (log entry 26). -/
def LongALayout.ok (l : LongALayout) : Bool := layoutOk 0 736 (l.common ++ l.body)

/-- The fields of a type-B layout. -/
def LongBLayout.fields (l : LongBLayout) : List (Nat × Nat) :=
  [(8 * l.unknownOff, 32), (8 * l.lastOff, 8 * l.lastLen), (8 * l.excessOff, 24), (8 * l.residualOff, 24),
   (8 * l.hiresOff, 8 * l.hiresLen), (l.deltaBit, 14 * 27)]

/-- The constraints of spec/30_encoding.md R108: every field inside bytes 14 .. 85 (wire bits 112 .. 687), counters of 1 to 4
bytes, no overlap. That any order of the fields is admitted is the model's choice (log entry 26). -/
def LongBLayout.ok (l : LongBLayout) : Bool :=
  layoutOk 112 688 l.fields && decide (1 ≤ l.lastLen) && decide (l.lastLen ≤ 4) && decide (1 ≤ l.hiresLen) && decide (l.hiresLen ≤ 4)

/-- No field of a type-B body overlaps a common or trailer field of the same message (log entry 24). -/
def bodyClear (a : LongALayout) (b : LongBLayout) : Bool := a.common.all fun f => b.fields.all (disjointFields f)

/-- The four tags are distinct bytes. -/
def Params.tagsOk (p : Params) : Bool :=
  decide ([p.tagNone, p.tagShort, p.tagExt, p.tagLong].Nodup)

/-- The sync table: the order of its entries is LONG, EXT, SHORT, each of the type its tag says (log entry 24), and each fits the
window. That the lengths and masks stay free of the sizes of R6 is the model's choice (log entry 25). -/
def Params.syncOk (p : Params) : Bool :=
  p.syncLong.ok p.wBits && p.syncExt.ok p.wBits && p.syncShort.ok p.wBits &&
  decide (p.syncLong.tag = p.tagLong) && decide (p.syncExt.tag = p.tagExt) && decide (p.syncShort.tag = p.tagShort)

/-- The residuals the source gives: zero for the BCH engine, nonzero for the CCITT engine. -/
def Params.residualsOk (p : Params) : Bool := decide (p.bch.residual = 0) && decide (p.ccitt.residual ≠ 0)

/-- Every constraint but those on `LONG_B_LAYOUT`. Parameters without a constraint in the table have none here (log entry 29). -/
def Params.baseOk (p : Params) : Bool :=
  p.syncOk && p.tagsOk &&
  (decide (p.lenPrefix = 1) || decide (p.lenPrefix = 2) || decide (p.lenPrefix = 4)) &&
  p.residualsOk &&
  p.rangeShort.ok lenShort && p.rangeExt.ok lenExt && p.rangeLong.ok lenLong &&
  p.short.ok && p.longA.ok

/-- Every constraint of spec/00_scope.md R7. -/
def Params.ok (p : Params) : Bool := p.baseOk && p.longB.ok && bodyClear p.longA p.longB

/-- `Cfg` (spec/00_scope.md R7): parameters that meet every constraint. -/
structure Cfg where
  par : Params
  valid : par.ok = true
  deriving DecidableEq, Repr

/-! ## Default values -/

/-- `SYNC_TABLE` entry LONG (spec/41_sync_detector.md R150). -/
def defaultSyncLong : SyncEntry := ⟨0x03, 0x555516A3, 0xFFFFFFFF, 0, 92⟩
/-- `SYNC_TABLE` entry EXT (spec/41_sync_detector.md R150). -/
def defaultSyncExt : SyncEntry := ⟨0x02, 0x16A30000, 0xFFFF0000, 0, 16⟩
/-- `SYNC_TABLE` entry SHORT (spec/41_sync_detector.md R150). -/
def defaultSyncShort : SyncEntry := ⟨0x01, 0xF9530000, 0xFFFFF800, 0, 12⟩

/-- `SHORT_LAYOUT` (spec/30_encoding.md R102). -/
def defaultShortLayout : ShortLayout :=
  ⟨0, 21, 23, 24, 26, 30, 32, 56, 80⟩

/-- `LONG_A_LAYOUT` (spec/30_encoding.md R106, R107, R109). -/
def defaultLongALayout : LongALayout :=
  ⟨0, 4, 5, 6, 7, 8, 9, 13, 14, 15, 21, 23, 29, 264, 86, 88, 90⟩

/-- The placeholder type-B layout of spec/30_encoding.md R108, used by the spec's own vectors only. -/
def placeholderLongBLayout : LongBLayout := ⟨14, 18, 4, 22, 25, 28, 4, 304⟩

/-- The default parameters, the two OPEN ones taken as arguments. -/
def defaultParams (longB : LongBLayout) (subtypeB : List Byte) : Params where
  wBytes := 92
  syncLong := defaultSyncLong
  syncExt := defaultSyncExt
  syncShort := defaultSyncShort
  tagNone := 0x00
  tagShort := 0x01
  tagExt := 0x02
  tagLong := 0x03
  lenPrefix := 2
  ovfBits := 32
  bch := ⟨0x6F63, 0x0000, 0x0000⟩
  ccitt := ⟨0x1021, 0xFFFF, 0x1D0F⟩
  rangeShort := ⟨2, 11⟩
  rangeExt := ⟨2, 15⟩
  rangeLong := ⟨4, 91⟩
  short := defaultShortLayout
  longA := defaultLongALayout
  longB := longB
  subtypeB := subtypeB

theorem defaultParams_baseOk (l : LongBLayout) (b : List Byte) : (defaultParams l b).baseOk = true := by
  simp [Params.baseOk, Params.syncOk, Params.residualsOk, Params.wBits, Params.tagsOk, defaultParams, SyncEntry.ok, defaultSyncLong,
    defaultSyncExt, defaultSyncShort, ByteRange.ok, lenShort, lenExt, lenLong,
    show defaultShortLayout.ok = true by decide, show defaultLongALayout.ok = true by decide]

/-- Next to the default header and trailer every type-B layout that meets its own constraints is clear. -/
theorem bodyClear_default {l : LongBLayout} (h : l.ok = true) : bodyClear defaultLongALayout l = true := by
  simp only [LongBLayout.ok, layoutOk, Bool.and_eq_true, List.all_eq_true, decide_eq_true_eq] at h
  simp only [bodyClear, List.all_eq_true]
  intro f hf g hg
  have hg := h.1.1.1.1.1 g hg
  have hf : f.1 + f.2 ≤ 112 ∨ 688 ≤ f.1 := by
    revert f; decide
  simp only [disjointFields, Bool.or_eq_true, decide_eq_true_eq]
  omega

theorem defaultParams_ok {l : LongBLayout} (h : l.ok = true) (b : List Byte) : (defaultParams l b).ok = true := by
  simp only [Params.ok, defaultParams_baseOk, Bool.true_and, Bool.and_eq_true]
  exact ⟨h, bodyClear_default h⟩

theorem placeholderLongBLayout_ok : placeholderLongBLayout.ok = true := by decide

/-- The default configuration with a type-B layout that meets its constraints and a set of type-B codes. -/
def Cfg.ofOpen (l : LongBLayout) (h : l.ok = true) (b : List Byte) : Cfg := ⟨defaultParams l b, defaultParams_ok h b⟩

/-- The configuration of the spec's examples: the placeholder layout and the set with the one code 0x18
(spec/95_test_vectors.md). -/
def Cfg.examples : Cfg := Cfg.ofOpen placeholderLongBLayout placeholderLongBLayout_ok [0x18]

/-! ## The OPEN parameters

DESIGN CHOICE (log entry 4): the machine right after reset is built over these two opaque constants, of which no proof can
know anything but the constraint. -/

/-- `LONG_B_LAYOUT`, OPEN (spec/92_eei_decisions.md D22): nothing is known of it. -/
opaque Config.openLongBLayout : LongBLayout

/-- `LONG_SUBTYPE_B_SET`, OPEN (spec/92_eei_decisions.md D23): nothing is known of it. -/
opaque Config.openSubtypeB : List Byte

/-- A layout that breaks a constraint is not a configuration of the block; the placeholder stands in its place, so that
every layout that meets the constraints, and no other, can be the open one. -/
def LongBLayout.orPlaceholder (l : LongBLayout) : LongBLayout := if l.ok then l else placeholderLongBLayout

theorem LongBLayout.orPlaceholder_ok (l : LongBLayout) : l.orPlaceholder.ok = true := by
  unfold LongBLayout.orPlaceholder
  split
  · assumption
  · exact placeholderLongBLayout_ok

/-- The configuration of the machine right after reset: the defaults, with the OPEN parameters unknown. -/
def Cfg.base : Cfg :=
  Cfg.ofOpen Config.openLongBLayout.orPlaceholder (LongBLayout.orPlaceholder_ok _) Config.openSubtypeB

end Sys2Proof
end

