-- ==== Sys2Proof/Syntax.lean ====
section
/-! DEFINITION. What can be issued to the block: the agents, the three selectable formats of spec/opcode_table.json, and
one constructor per row of that table. -/

namespace Sys2Proof

/-- The three agents (spec/60_exceptions.md R320). -/
inductive Agent where
  /-- The interrupt context. -/
  | prod
  /-- The normal, polled context. -/
  | cons
  /-- The platform layer. -/
  | host
  deriving DecidableEq, Repr

/-- The formats of spec/opcode_table.json (spec/30_encoding.md R116). -/
inductive Format where
  /-- The sixteen operations. -/
  | op4
  /-- The three sync entries. -/
  | sync32
  /-- The four type tags. -/
  | tag8
  deriving DecidableEq, Repr

/-- One constructor per row of spec/opcode_table.json, with the operands its rule gives it. Operands the rule takes
from the state or from an input pin (`ENABLE`, `NOW`, the active buffer, the cursor) are not repeated here. -/
inductive Instr where
  /-- `PROCESS_BIT(bit)`, R130. -/
  | processBit (bit : Bool)
  /-- `SYNC_MATCH(b, c, now)`, R152: `b`, `c` and `now` are `PHASE`, `CUR` and `NOW`. -/
  | syncMatch
  /-- `RB_INIT(present, capacity)`, R172. -/
  | rbInit (present : Bool) (capacity : Nat)
  /-- `RB_FREESPACE()`, R176. -/
  | rbFreespace
  /-- `RB_PUSH(data, size)`, R180: `size` is the length of `data`. -/
  | rbPush (data : List Byte)
  /-- `RB_PEEK()`, R186. -/
  | rbPeek
  /-- `RB_POP(out_present, maxSize)`, R189. -/
  | rbPop (outPresent : Bool) (maxSize : Nat)
  /-- `RB_OVERFLOWCOUNT()`, R192. -/
  | rbOverflowcount
  /-- `CRC_BCH(data)`, R214. -/
  | crcBch (data : List Byte)
  /-- `CRC_CCITT(data)`, R215. -/
  | crcCcitt (data : List Byte)
  /-- `EXTRACT_BITS(buf, bitOffset, bitLen)`, R230. -/
  | extractBits (buf : List Byte) (bitOffset : Nat) (bitLen : Nat)
  /-- `PARSE_SHORT(m)`, R246. -/
  | parseShort (m : List Byte)
  /-- `PARSE_EXT(m)`, R250. -/
  | parseExt (m : List Byte)
  /-- `PARSE_LONG(m)`, R255. -/
  | parseLong (m : List Byte)
  /-- `PROCESS_MESSAGES()`, R284. -/
  | processMessages
  /-- `REGISTER_CALLBACK(handle)`, R292. -/
  | registerCallback (handle : Nat)
  /-- The sync entry LONG tried on the active window, R150 and the loop body of R152. -/
  | syncLong
  /-- The sync entry EXT tried on the active window. -/
  | syncExt
  /-- The sync entry SHORT tried on the active window. -/
  | syncShort
  /-- The type tag NONE selected for the staged frame of `n` data bytes, R98 and `DISPATCH(n)` of R284. -/
  | tagNone (n : Nat)
  /-- The type tag SHORT selected for the staged frame of `n` data bytes. -/
  | tagShort (n : Nat)
  /-- The type tag EXT selected for the staged frame of `n` data bytes. -/
  | tagExt (n : Nat)
  /-- The type tag LONG selected for the staged frame of `n` data bytes. -/
  | tagLong (n : Nat)
  deriving DecidableEq, Repr

/-- The format of an instruction's row. -/
def Instr.format : Instr → Format
  | .processBit _ => .op4
  | .syncMatch => .op4
  | .rbInit _ _ => .op4
  | .rbFreespace => .op4
  | .rbPush _ => .op4
  | .rbPeek => .op4
  | .rbPop _ _ => .op4
  | .rbOverflowcount => .op4
  | .crcBch _ => .op4
  | .crcCcitt _ => .op4
  | .extractBits _ _ _ => .op4
  | .parseShort _ => .op4
  | .parseExt _ => .op4
  | .parseLong _ => .op4
  | .processMessages => .op4
  | .registerCallback _ => .op4
  | .syncLong => .sync32
  | .syncExt => .sync32
  | .syncShort => .sync32
  | .tagNone _ => .tag8
  | .tagShort _ => .tag8
  | .tagExt _ => .tag8
  | .tagLong _ => .tag8

/-- The agent spec/opcode_table.json lists for a row; for a pure function, which any agent may issue, CONS. -/
def Instr.tableAgent : Instr → Agent
  | .processBit _ => .prod
  | .syncMatch => .prod
  | .rbInit _ _ => .host
  | .rbFreespace => .prod
  | .rbPush _ => .prod
  | .rbPeek => .cons
  | .rbPop _ _ => .cons
  | .rbOverflowcount => .cons
  | .crcBch _ => .cons
  | .crcCcitt _ => .cons
  | .extractBits _ _ _ => .cons
  | .parseShort _ => .cons
  | .parseExt _ => .cons
  | .parseLong _ => .cons
  | .processMessages => .cons
  | .registerCallback _ => .cons
  | .syncLong => .prod
  | .syncExt => .prod
  | .syncShort => .prod
  | .tagNone _ => .cons
  | .tagShort _ => .cons
  | .tagExt _ => .cons
  | .tagLong _ => .cons

end Sys2Proof
end

