-- ==== Sys2Proof/WellFormed.lean ====
section
/-! DEFINITION. The checks on an instruction as syntax: a natural operand fits the 64 bits a port transaction gives it
(log entry 2), a byte-list operand has a length that does, and a message operand has exactly the length of its type
(spec/45_parsers.md R246, R250, R255). The extractor's domain (spec/44_field_extractor.md R232) is no matter of syntax:
a call outside it is a call the block refuses. -/

namespace Sys2Proof

/-- A natural operand fits a transaction. -/
def natFits (n : Nat) : Bool := decide (n < 2 ^ 64)

/-- A byte-list operand's length fits a transaction. -/
def bytesFit (l : List Byte) : Bool := natFits l.length

/-- The well-formedness of an instruction. -/
def Instr.wf : Instr → Bool
  | .processBit _ => true
  | .syncMatch => true
  | .rbInit _ capacity => natFits capacity
  | .rbFreespace => true
  | .rbPush data => bytesFit data
  | .rbPeek => true
  | .rbPop _ maxSize => natFits maxSize
  | .rbOverflowcount => true
  | .crcBch data => bytesFit data
  | .crcCcitt data => bytesFit data
  | .extractBits buf bitOffset bitLen => bytesFit buf && natFits bitOffset && natFits bitLen
  | .parseShort m => decide (m.length = lenShort)
  | .parseExt m => decide (m.length = lenExt)
  | .parseLong m => decide (m.length = lenLong)
  | .processMessages => true
  | .registerCallback handle => natFits handle
  | .syncLong => true
  | .syncExt => true
  | .syncShort => true
  | .tagNone n => natFits n
  | .tagShort n => natFits n
  | .tagExt n => natFits n
  | .tagLong n => natFits n

end Sys2Proof
end

