-- ==== Sys2Proof/Decode.lean ====
section
/-! DEFINITION. The decoder of a port transaction and its encoder.

Operations are selected by port and the block has no instruction words (spec/30_encoding.md R90); what the opcode table
gives is a selector per row: a 4-bit ordinal, a 32-bit compare word, or a tag byte. A transaction is laid out as bytes, the
selector first and then the operands in the order of the rule, by the conventions of log entry 2: a natural is eight
bytes, least significant first; a byte list is its length as a natural and then its bytes; a bit is one byte, 0 or 1; a message
operand is its bytes; a compare word is four bytes in wire order. -/

namespace Sys2Proof

/-- Why the decoder rejects a transaction. -/
inductive DecodeError where
  /-- Fewer bytes than the operands need. -/
  | truncated
  /-- A sample other than 0 or 1 (spec/93_implementation_defined.md U1). -/
  | badSample
  /-- A one-bit operand other than 0 or 1. -/
  | badFlag
  /-- A compare word that no row of format SYNC32 matches. -/
  | noSyncEntry
  /-- A tag byte that no row of format TAG8 matches. -/
  | noTag
  /-- No operation has this ordinal; never answered, since all sixteen are in use. -/
  | noOperation
  deriving DecidableEq, Repr

/-- What the decoder answers: an instruction and the bytes after it, or the reason of the rejection. -/
abbrev Decoded := Except DecodeError (Instr × List Byte)

/-- The next `n` bytes, then the rest. -/
def withBytes (n : Nat) (bs : List Byte) (k : List Byte → List Byte → Decoded) : Decoded :=
  if n ≤ bs.length then k (bs.take n) (bs.drop n) else .error .truncated

/-- A natural operand. -/
def withNat (bs : List Byte) (k : Nat → List Byte → Decoded) : Decoded :=
  withBytes 8 bs fun x r => k (leNat x) r

/-- A byte-list operand. -/
def withData (bs : List Byte) (k : List Byte → List Byte → Decoded) : Decoded :=
  withNat bs fun n r => withBytes n r k

/-- A one-bit operand; any other byte is rejected by the name given. -/
def withFlag (e : DecodeError) (bs : List Byte) (k : Bool → List Byte → Decoded) : Decoded :=
  match bs with
  | [] => .error .truncated
  | b :: r => if b = 0 then k false r else if b = 1 then k true r else .error e

/-- The operation with ordinal `op` (spec/30_encoding.md R90) and its operands. -/
def decodeOperation (op : Nat) (bs : List Byte) : Decoded :=
  match op with
  | 0 => withFlag .badSample bs fun bit r => .ok (.processBit bit, r)
  | 1 => .ok (.syncMatch, bs)
  | 2 => withFlag .badFlag bs fun present r => withNat r fun capacity r => .ok (.rbInit present capacity, r)
  | 3 => .ok (.rbFreespace, bs)
  | 4 => withData bs fun data r => .ok (.rbPush data, r)
  | 5 => .ok (.rbPeek, bs)
  | 6 => withFlag .badFlag bs fun outPresent r => withNat r fun maxSize r => .ok (.rbPop outPresent maxSize, r)
  | 7 => .ok (.rbOverflowcount, bs)
  | 8 => withData bs fun data r => .ok (.crcBch data, r)
  | 9 => withData bs fun data r => .ok (.crcCcitt data, r)
  | 10 => withData bs fun buf r => withNat r fun off r => withNat r fun len r => .ok (.extractBits buf off len, r)
  | 11 => withBytes lenShort bs fun m r => .ok (.parseShort m, r)
  | 12 => withBytes lenExt bs fun m r => .ok (.parseExt m, r)
  | 13 => withBytes lenLong bs fun m r => .ok (.parseLong m, r)
  | 14 => .ok (.processMessages, bs)
  | 15 => withNat bs fun handle r => .ok (.registerCallback handle, r)
  | _ => .error .noOperation

/-- The first row of format SYNC32, in priority order, whose masked bits equal the compare word's. -/
def decodeSync (w : Word) (bs : List Byte) : Decoded :=
  if w &&& 0xFFFFFFFF = 0x555516A3 then .ok (.syncLong, bs)
  else if w &&& 0xFFFF0000 = 0x16A30000 then .ok (.syncExt, bs)
  else if w &&& 0xFFFFF800 = 0xF9530000 then .ok (.syncShort, bs)
  else .error .noSyncEntry

/-- The row of format TAG8 with this tag byte, and the frame size it is selected for. -/
def decodeTag (tag : Byte) (bs : List Byte) : Decoded :=
  if tag = 0x00 then withNat bs fun n r => .ok (.tagNone n, r)
  else if tag = 0x01 then withNat bs fun n r => .ok (.tagShort n, r)
  else if tag = 0x02 then withNat bs fun n r => .ok (.tagExt n, r)
  else if tag = 0x03 then withNat bs fun n r => .ok (.tagLong n, r)
  else .error .noTag

/-- The decoder: total on any bytes. Of the selector byte of format OP4 the low four bits count, as the table's mask says. -/
def decode (f : Format) (bs : List Byte) : Decoded :=
  match f with
  | .op4 =>
    match bs with
    | [] => .error .truncated
    | b :: r => decodeOperation (b &&& 0x0F).toNat r
  | .sync32 => withBytes 4 bs fun x r => decodeSync (BitVec.ofNat 32 (beNat (byteAt x) 0 4)) r
  | .tag8 =>
    match bs with
    | [] => .error .truncated
    | b :: r => decodeTag b r

/-! ## The encoder -/

/-- A natural operand's bytes. -/
def natBytes (n : Nat) : List Byte := leBytes 8 n

/-- A byte-list operand's bytes. -/
def dataBytes (l : List Byte) : List Byte := natBytes l.length ++ l

/-- A one-bit operand's byte. -/
def flagByte (b : Bool) : Byte := if b then 1 else 0

/-- The transaction of an instruction. -/
def encode : Instr → List Byte
  | .processBit bit => [0x00, flagByte bit]
  | .syncMatch => [0x01]
  | .rbInit present capacity => 0x02 :: flagByte present :: natBytes capacity
  | .rbFreespace => [0x03]
  | .rbPush data => 0x04 :: dataBytes data
  | .rbPeek => [0x05]
  | .rbPop outPresent maxSize => 0x06 :: flagByte outPresent :: natBytes maxSize
  | .rbOverflowcount => [0x07]
  | .crcBch data => 0x08 :: dataBytes data
  | .crcCcitt data => 0x09 :: dataBytes data
  | .extractBits buf bitOffset bitLen => 0x0A :: (dataBytes buf ++ natBytes bitOffset ++ natBytes bitLen)
  | .parseShort m => 0x0B :: m
  | .parseExt m => 0x0C :: m
  | .parseLong m => 0x0D :: m
  | .processMessages => [0x0E]
  | .registerCallback handle => 0x0F :: natBytes handle
  | .syncLong => [0x55, 0x55, 0x16, 0xA3]
  | .syncExt => [0x16, 0xA3, 0x00, 0x00]
  | .syncShort => [0xF9, 0x53, 0x00, 0x00]
  | .tagNone n => 0x00 :: natBytes n
  | .tagShort n => 0x01 :: natBytes n
  | .tagExt n => 0x02 :: natBytes n
  | .tagLong n => 0x03 :: natBytes n

/-! ## A word of the opcode table -/

/-- The format of a table row of `nbits` bits. The rows of format TAG8 have as many bits as those of format OP4 in whole
bytes, and their words are words of OP4 rows too; OP4 is taken (log entry 3). -/
def tableFormat (nbits : Nat) : Option Format :=
  if nbits ≤ 8 then some .op4 else if nbits = 32 then some .sync32 else none

/-- The transaction bytes of a table word: the selector as the format stores it, then zeros as far as the longest row
with zero operands (`PARSE_LONG`, 93 bytes). -/
def tableBytes (f : Format) (w : Nat) : List Byte :=
  match f with
  | .op4 => BitVec.ofNat 8 w :: List.replicate 92 0
  | .sync32 => (leBytes 4 w).reverse ++ List.replicate 89 0
  | .tag8 => BitVec.ofNat 8 w :: List.replicate 92 0

/-- The instruction the decoder reads in a transaction, if it reads one. -/
def decodedInstr (f : Format) (bs : List Byte) : Option Instr :=
  match decode f bs with
  | .ok (i, _) => some i
  | .error _ => none

/-- The instruction the decoder reads from a row's word, numbered as spec/opcode_table.json numbers its bits. -/
def decodeTableWord (nbits w : Nat) : Option Instr :=
  match tableFormat nbits with
  | some f => decodedInstr f (tableBytes f w)
  | none => none

end Sys2Proof
end

