-- ==== Sys2Proof/Machine/State.lean ====
section
/-! DEFINITION. The machine's state as plain data. The spec's state tuple (spec/10_state.md R20) stands in its own three
parts: `Decoder`, `Ring` and `Consumer`; the parameters of the instance stand in `cfg`. `Env` is the MODEL's own part: the
inputs of a run (spec/70_reset_and_hazards.md R366), the input pins, the consumer's place in its drain loop, and what the block
has put on its output ports. No field has a function type. -/

namespace Sys2Proof.Machine

/-! ## Memories -/

/-- A byte memory: cells at strictly rising addresses, none of them zero. An address that is not listed reads zero, which is
what reset leaves in `DB` (spec/10_state.md R49) and `RB_INIT` in `RB_MEM` (spec/42_ring_buffer.md R172). -/
abbrev Memory := List Host.Cell

/-- The canonical form, for cells at addresses not below `lo`. -/
def Memory.wfFrom (lo : Nat) : Memory → Bool
  | [] => true
  | c :: r => decide (lo ≤ c.1) && decide (c.2 ≠ 0) && Memory.wfFrom (c.1 + 1) r

/-- The canonical form: addresses strictly rising, no entry equal to what an unlisted address reads as. -/
def Memory.wf (m : Memory) : Bool := Memory.wfFrom 0 m

/-! ## Records (spec/10_state.md R35 to R37) -/

/-- `REC_SHORT`. -/
structure ShortRecord where
  id : BitVec 26
  rsv : BitVec 1
  tamperPhy : BitVec 2
  ertType : BitVec 4
  tamperEnc : BitVec 2
  consumption : BitVec 24
  crc : Half
  deriving DecidableEq, Repr

/-- `REC_EXT`. -/
structure ExtRecord where
  sync : Half
  protocolId : Byte
  endpointType : Byte
  endpointId : Word
  consumption : Word
  tamper : Half
  crc : Half
  deriving DecidableEq, Repr

/-- The fields of shape A of `REC_LONG`. -/
structure LongA where
  moduleState : Byte
  tamperCounters : List Byte
  asyncCounter : Half
  powerOutageFlags : List Byte
  lastConsumption : Word
  delta : List (BitVec 9)
  deriving DecidableEq, Repr

/-- The fields of shape B of `REC_LONG`. -/
structure LongB where
  unknown : List Byte
  lastConsumption : Word
  excess : BitVec 24
  residual : BitVec 24
  hiresConsumption : Word
  delta : List (BitVec 14)
  deriving DecidableEq, Repr

/-- The shape of `REC_LONG` with its fields: a tagged sum. -/
inductive LongShape where
  | a (body : LongA)
  | b (body : LongB)
  deriving DecidableEq, Repr

/-- `REC_LONG`. -/
structure LongRecord where
  preamble : Word
  packetType : Byte
  packetLength : Byte
  hammingCode : Byte
  appVersion : Byte
  subtype : Byte
  serial : Word
  intervalCount : Byte
  shape : LongShape
  txTimeOffset : Half
  serialCrc : Half
  packetCrc : Half
  deriving DecidableEq, Repr

/-- The record value a callback event carries. -/
inductive Record where
  | short (r : ShortRecord)
  | ext (r : ExtRecord)
  | long (r : LongRecord)
  deriving DecidableEq, Repr

/-! ## The three parts of the block -/

/-- The decoder part, touched by PROD only (spec/10_state.md R21, R22, R23, R31). -/
structure Decoder where
  /-- `PREV`: the sample of the previous accepted call. -/
  prev : Bool
  /-- `PHASE`: the alignment buffer of the current call, `false` for `DB[0]`. -/
  phase : Bool
  /-- `CUR`: the circular bit cursor, below `W_BITS`. -/
  cur : Nat
  /-- `DB[0]` -/
  db0 : Memory
  /-- `DB[1]` -/
  db1 : Memory
  deriving DecidableEq, Repr

/-- The ring part, shared by PROD and CONS (spec/10_state.md R24, R25, R26, R28, R38). -/
structure Ring where
  /-- `RB_VALID` -/
  valid : Bool
  /-- `RB_CAP` -/
  cap : Nat
  /-- `RB_HEAD` -/
  head : Nat
  /-- `RB_TAIL` -/
  tail : Nat
  /-- `RB_OVF`, below `2^OVF_BITS` -/
  ovf : Nat
  /-- `RB_MEM` -/
  mem : Memory
  deriving DecidableEq, Repr

/-- The consumer part, touched by CONS only (spec/10_state.md R29, R34 to R37). -/
structure Consumer where
  /-- `STG` -/
  stg : Memory
  recShort : ShortRecord
  recExt : ExtRecord
  recLong : LongRecord
  /-- `CB_VALID` -/
  cbValid : Bool
  /-- `CB_HANDLE` -/
  cbHandle : Nat
  deriving DecidableEq, Repr

/-! ## Outputs (spec/10_state.md R48, spec/70_reset_and_hazards.md R366) -/

/-- A condition with the info it records on `DIAG` (spec/60_exceptions.md R300). -/
inductive Condition where
  /-- Code 0: listed by the source's taxonomy, raised by nothing. -/
  | framingMiss
  /-- Code 1, from `RB_PUSH`. -/
  | ringOverflow (size : Nat)
  /-- Code 2, from the parsers. -/
  | crcFail (tag : Byte) (residual : Half)
  /-- Code 3, from `DISPATCH`. -/
  | unknownType (tag : Byte)
  deriving DecidableEq, Repr

/-- A callback event on the port `CB` (spec/46_dispatch.md R290). -/
structure CbEvent where
  handle : Nat
  tag : Byte
  record : Record
  raw : List Byte
  deriving DecidableEq, Repr

/-- What a port call returned. `PROCESS_BIT`, `SYNC_MATCH`, `PROCESS_MESSAGES` and `REGISTER_CALLBACK` return nothing. -/
inductive Answer where
  | init (ok : Bool)
  | freeSpace (n : Nat)
  | push (ok : Bool)
  | peek (size : Nat) (ptr : Option Nat)
  | pop (ret : Nat) (out : List Byte)
  | overflowCount (n : Nat)
  | crc (c : Half) (ok : Bool)
  | extract (v : Word)
  | accepted (ok : Bool)
  deriving DecidableEq, Repr

/-! ## The model's own part -/

/-- One input of a run (spec/70_reset_and_hazards.md R366). The order of the list is the interleaving of the agents. -/
inductive Event where
  /-- A port transaction: the issuing agent, the format that selects the row, and the bytes of selector and operands. -/
  | port (agent : Agent) (format : Format) (bytes : List Byte)
  /-- CONS takes its next step of the drain in progress. -/
  | consStep
  /-- HOST resets the block. -/
  | reset
  /-- HOST drives the pin `ENABLE`. -/
  | enable (v : Bool)
  /-- HOST drives the input `NOW`. -/
  | now (v : Word)
  deriving DecidableEq, Repr

/-- Where CONS stands in the loop of `PROCESS_MESSAGES` (spec/46_dispatch.md R284, R285): the consumer's execution context,
which the platform keeps (spec/60_exceptions.md R311), no register of the block (spec/10_state.md R27). -/
inductive Drain where
  /-- No drain is in progress. -/
  | idle
  /-- The next step is `RB_PEEK`. -/
  | peek
  /-- The next step copies the peeked frame of `n` bytes at `ptr` and dispatches it. -/
  | dispatch (n ptr : Nat)
  /-- The next step is `RB_POP(0, 0)`. -/
  | pop
  deriving DecidableEq, Repr

/-- The model's own part of the state. -/
structure Env where
  /-- The inputs not yet served, oldest first. -/
  inbox : List Event
  /-- The agent whose transaction is being served (spec/60_exceptions.md R324). -/
  issuer : Agent
  /-- The pin `ENABLE`. -/
  enable : Bool
  /-- The input `NOW`. -/
  now : Word
  /-- The consumer's place in its drain loop. -/
  drain : Drain
  /-- Whether `PROCESS_MESSAGES` has been issued since reset (spec/46_dispatch.md R292). -/
  started : Bool
  /-- Events on the port `CB`, oldest first. -/
  cbOut : List CbEvent
  /-- Events on the port `DIAG`, oldest first. -/
  diag : List Condition
  /-- Return values of port calls, oldest first. -/
  answers : List Answer
  deriving DecidableEq, Repr

/-- The machine: the instance's parameters, the three parts of the block, and the model's own part. -/
structure State where
  cfg : Cfg
  dec : Decoder
  ring : Ring
  cons : Consumer
  env : Env
  deriving DecidableEq, Repr

/-! ## How a step can stop -/

/-- Why the machine stops with a fault. Neither arises from a state that the block's rules reach. -/
inductive Fault where
  /-- A read or write outside its memory space (spec/00_scope.md R13). Raised by the memory operations of Ops. Safe: the
  machine stops where the spec gives no behaviour. -/
  | outOfSpace
  /-- A length prefix no push could have written (spec/93_implementation_defined.md U3). Raised by `locate` for peek,
  pop and the drain. Safe: the machine stops where the spec says to stop. -/
  | corruptPrefix
  deriving DecidableEq, Repr

/-- Why the machine does not accept a step. -/
inductive Refusal where
  /-- An instruction without a meaning; raised by no arm of `exec`. Safe. -/
  | notModelled (mnemonic : String)
  /-- A transaction the decoder rejects, with its reason. Raised by `step`. Safe: no such transaction exists. -/
  | undecodable (e : DecodeError)
  /-- An operation issued by an agent that may not issue it (spec/60_exceptions.md R324). Raised by the meanings. Safe. -/
  | wrongAgent (a : Agent)
  /-- A HOST action while a drain is in progress (spec/93_implementation_defined.md U6). Raised by `RB_INIT` and reset. Safe. -/
  | notQuiescent
  /-- `PROCESS_MESSAGES` or `RB_POP` while a drain is in progress (spec/93_implementation_defined.md U9). Safe. -/
  | reentrantCall
  /-- An extractor request outside its domain (spec/44_field_extractor.md R232). Raised by `EXTRACT_BITS`. Safe. -/
  | extractDomain
  /-- A message shorter than its parser's operand (spec/45_parsers.md R276). Raised by the parsers. Safe. -/
  | messageTooShort
  deriving DecidableEq, Repr

/-- What an operation of this machine answers. -/
abbrev Res (α : Type) := Host.Outcome α Fault Refusal

/-! ## Reset (spec/10_state.md R49, spec/70_reset_and_hazards.md R340) -/

/-- The decoder part after reset. -/
def Decoder.reset : Decoder := ⟨false, false, 0, [], []⟩

/-- The ring part after reset. The contents of `RB_MEM` are unspecified; zero is the model's choice (log entry 5). -/
def Ring.reset : Ring := ⟨false, 0, 0, 0, 0, []⟩

/-- An all-zero SHORT record (log entry 5). -/
def ShortRecord.zero : ShortRecord := ⟨0, 0, 0, 0, 0, 0, 0⟩

/-- An all-zero EXT record (log entry 5). -/
def ExtRecord.zero : ExtRecord := ⟨0, 0, 0, 0, 0, 0, 0⟩

/-- An all-zero LONG record of shape A (log entry 5). -/
def LongRecord.zero : LongRecord :=
  ⟨0, 0, 0, 0, 0, 0, 0, 0,
   .a ⟨0, List.replicate 6 0, 0, List.replicate 6 0, 0, List.replicate nDeltaA 0⟩, 0, 0, 0⟩

/-- The consumer part after reset: no callback; the rest is unspecified, and zero by the model's choice (log entry 5). -/
def Consumer.reset : Consumer := ⟨[], ShortRecord.zero, ExtRecord.zero, LongRecord.zero, false, 0⟩

/-- The model's own part before the first operation: no inputs, no outputs, no drain; the pins low (log entry 6). -/
def Env.reset : Env := ⟨[], .host, false, 0, .idle, false, [], [], []⟩

/-- The machine right after reset, with the default parameters and the OPEN ones unknown (log entry 4). -/
def State.reset : State := ⟨Cfg.base, Decoder.reset, Ring.reset, Consumer.reset, Env.reset⟩

/-! ## Named updates -/

/-- Replaces the decoder part. -/
def State.setDec (s : State) (d : Decoder) : State := { s with dec := d }
/-- Replaces the ring part. -/
def State.setRing (s : State) (r : Ring) : State := { s with ring := r }
/-- Replaces the consumer part. -/
def State.setCons (s : State) (c : Consumer) : State := { s with cons := c }
/-- Replaces the model's own part. -/
def State.setEnv (s : State) (e : Env) : State := { s with env := e }

end Sys2Proof.Machine
end

