-- ==== Sys2Proof/Machine/Ops.lean ====
section
/-! DEFINITION. The named operations over memories, buffers, outputs and agents, and raising a condition. -/

namespace Sys2Proof.Machine

/-! ## Sequencing -/

/-- Runs `k` on the answer of `x`; a fault or a refusal of `x` stops. -/
def andThen {α β : Type} (x : Res α) (k : α → Res β) : Res β :=
  match x with
  | .next a => k a
  | .fault f => .fault f
  | .refused r => .refused r

/-! ## Byte memories -/

/-- One byte; an address that is not listed reads zero. -/
def Memory.read : Memory → Nat → Byte
  | [], _ => 0
  | c :: r, a => if c.1 = a then c.2 else Memory.read r a

/-- The memory without any entry at `a`. -/
def Memory.erase (m : Memory) (a : Nat) : Memory := m.filter fun c => decide (c.1 ≠ a)

/-- The memory with an entry put in its place by address. -/
def Memory.insert : Memory → Nat → Byte → Memory
  | [], a, v => [(a, v)]
  | c :: r, a, v => if a < c.1 then (a, v) :: c :: r else c :: Memory.insert r a v

/-- Writes one byte; writing zero removes the entry. -/
def Memory.write (m : Memory) (a : Nat) (v : Byte) : Memory :=
  if v = 0 then m.erase a else (m.erase a).insert a v

/-- The `n` bytes from `a` on. -/
def Memory.readBytes (m : Memory) (a : Nat) : Nat → List Byte
  | 0 => []
  | n + 1 => m.read a :: Memory.readBytes m (a + 1) n

/-- Writes bytes from `a` on. -/
def Memory.writeBytes (m : Memory) (a : Nat) : List Byte → Memory
  | [] => m
  | v :: r => Memory.writeBytes (m.write a v) (a + 1) r

/-- Zero in every byte below `n`, the rest unchanged (the fill of `RB_INIT`, spec/42_ring_buffer.md R172). -/
def Memory.zeroBelow (m : Memory) (n : Nat) : Memory := m.filter fun c => decide (n ≤ c.1)

/-- `MemRead(S, addr, n)` of a space of `size` bytes; outside the space it is a fault (spec/00_scope.md R13). -/
def memRead (size : Nat) (m : Memory) (a n : Nat) : Res (List Byte) :=
  if a + n ≤ size then .next (m.readBytes a n) else .fault .outOfSpace

/-- `MemWrite(S, addr, n, v)` of a space of `size` bytes; outside the space it is a fault (spec/00_scope.md R13). -/
def memWrite (size : Nat) (m : Memory) (a : Nat) (v : List Byte) : Res Memory :=
  if a + v.length ≤ size then .next (m.writeBytes a v) else .fault .outOfSpace

/-! ## Wire bits of an alignment buffer -/

/-- The byte with wire bit `q mod 8` replaced (spec/00_scope.md R11). -/
def withWireBit (x : Byte) (q : Nat) (d : Bool) : Byte :=
  (x &&& ~~~((0x80 : Byte) >>> (q % 8))) ||| (if d then (0x80 : Byte) >>> (q % 8) else 0)

/-- `setBit(A, q, d)` (spec/00_scope.md R11): a read-modify-write of one byte. -/
def Memory.setBit (m : Memory) (q : Nat) (d : Bool) : Memory := m.write (q / 8) (withWireBit (m.read (q / 8)) q d)

/-- `setBit` in a space of `size` bytes. -/
def writeBit (size : Nat) (m : Memory) (q : Nat) (d : Bool) : Res Memory :=
  if q / 8 < size then .next (m.setBit q d) else .fault .outOfSpace

/-- `word32(A, q)` in a space of `size` bytes (spec/41_sync_detector.md R151). -/
def word32 (size : Nat) (m : Memory) (q : Nat) : Res Word :=
  if q + 32 ≤ 8 * size then .next (BitVec.ofNat 32 (wireNat m.read q 32)) else .fault .outOfSpace

/-- `DB[b]` (spec/10_state.md R31). -/
def Decoder.db (d : Decoder) (b : Bool) : Memory := if b then d.db1 else d.db0

/-- `DB[b] <- m`, the other buffer unchanged. -/
def Decoder.setDb (d : Decoder) (b : Bool) (m : Memory) : Decoder :=
  if b then { d with db1 := m } else { d with db0 := m }

/-! ## Conditions, events, answers -/

/-- `raise C(info)` (spec/00_scope.md R14, spec/60_exceptions.md R302, R310): one event on `DIAG` and nothing else; the operation goes
on with its next line, so there is nothing to return from. -/
def State.raise (s : State) (c : Condition) : State := { s with env := { s.env with diag := s.env.diag ++ [c] } }

/-- `if CB_VALID = 1: emit CB(tag, record, raw)` (spec/46_dispatch.md R290, spec/45_parsers.md R274). -/
def State.emit (s : State) (tag : Byte) (record : Record) (raw : List Byte) : State :=
  if s.cons.cbValid then
    { s with env := { s.env with cbOut := s.env.cbOut ++ [⟨s.cons.cbHandle, tag, record, raw⟩] } }
  else s

/-- The return value of a port call, put where a run observes it (spec/70_reset_and_hazards.md R366). -/
def State.answer (s : State) (a : Answer) : State := { s with env := { s.env with answers := s.env.answers ++ [a] } }

/-- The consumer's place in its drain loop. -/
def State.setDrain (s : State) (d : Drain) : State := { s with env := { s.env with drain := d } }

/-! ## Agents (spec/60_exceptions.md R320, R324) -/

/-- Runs `k` if the issuing agent is one of `who`; refuses it otherwise. -/
def byAgent (who : List Agent) (s : State) (k : Res State) : Res State :=
  if s.env.issuer ∈ who then k else .refused (.wrongAgent s.env.issuer)

/-- Runs `k` unless a drain is in progress; refuses with `r` otherwise. -/
def whenIdle (r : Refusal) (s : State) (k : Res State) : Res State :=
  if s.env.drain = .idle then k else .refused r

end Sys2Proof.Machine
end

