-- ==== Sys2Proof/Machine/Flags.lean ====
section
/-! DEFINITION. Status. The block has no arithmetic flags and no condition-code register (spec/10_state.md R30); what stands here
are the one-bit status results its rules compute, and the numeric codes of the conditions. -/

namespace Sys2Proof.Machine

/-- A sync entry matches a compare word iff the masked bits equal its pattern (spec/30_encoding.md R93). -/
def syncHit (e : SyncEntry) (w : Word) : Bool := decide (w &&& e.mask = e.pattern)

/-- The acceptance of a CRC residual: exact, with no correction (spec/43_crc_engines.md R217). -/
def crcOk (p : CrcParams) (c : Half) : Bool := decide (c = p.residual)

/-- The code of a condition (spec/60_exceptions.md R300). -/
def Condition.code : Condition → Nat
  | .framingMiss => 0
  | .ringOverflow _ => 1
  | .crcFail _ _ => 2
  | .unknownType _ => 3

end Sys2Proof.Machine
end

