-- ==== Sys2Proof/Machine/RingBuffer.lean ====
section
/-! DEFINITION. The framed ring buffer (spec/42_ring_buffer.md): `RB_INIT`, `RB_FREESPACE`, `RB_PUSH`, `RB_PEEK`, `RB_POP`,
`RB_OVERFLOWCOUNT`. Each ring operation is one atomic step (spec/20_memory.md R75). `p` is the length-prefix size `P`. -/

namespace Sys2Proof.Machine

/-! ## Helpers (spec/42_ring_buffer.md R170, R171) -/

/-- `rdLen(a)`. -/
def rdLen (p : Nat) (r : Ring) (a : Nat) : Res Nat :=
  andThen (memRead r.cap r.mem a p) fun bytes => .next (leNat bytes)

/-- `wrLen(a, n)` on storage `m` of `cap` bytes. -/
def wrLen (p cap : Nat) (m : Memory) (a n : Nat) : Res Memory := memWrite cap m a (leBytes p n)

/-- `regions(h, t, c)`: the two candidate free regions, as integers that may be negative. -/
def regions (p h t c : Nat) : Int × Int :=
  if h ≥ t then ((c : Int) - h - p - (if t = 0 then 1 else 0), (t : Int) - p - 1)
  else ((t : Int) - h - p - 1, -1)

/-- `max(a, b, 0)` of a ring's regions. -/
def freeBytes (p : Nat) (r : Ring) : Nat :=
  (max (max (regions p r.head r.tail r.cap).1 (regions p r.head r.tail r.cap).2) 0).toNat

/-! ## Operations on a ring -/

/-- Whether `RB_INIT` succeeds. -/
def initAccepts (p : Nat) (present : Bool) (capacity : Nat) : Bool :=
  present && decide (p < capacity) && decide (capacity ≤ 2 ^ (8 * p))

/-- The ring after `RB_INIT` (spec/42_ring_buffer.md R172). -/
def ringInit (p : Nat) (present : Bool) (capacity : Nat) (r : Ring) : Ring :=
  if initAccepts p present capacity then
    { valid := true, cap := capacity, head := 0, tail := 0, ovf := 0, mem := r.mem.zeroBelow capacity }
  else { r with valid := false, cap := 0, head := 0, tail := 0, ovf := 0 }

/-- `RB_FREESPACE()` (spec/42_ring_buffer.md R176). -/
def freeSpace (p : Nat) (r : Ring) : Nat := if r.valid then freeBytes p r else 0

/-- What became of a push (spec/42_ring_buffer.md R181): which failure, or success. -/
inductive Pushed where
  /-- Failure (1) or (2): size zero, or an uninitialised ring; not counted. -/
  | rejected
  /-- Failure (3): no room; counted. -/
  | overflow
  /-- The frame is stored. -/
  | stored
  deriving DecidableEq, Repr

/-- Where a push places its frame and what the storage is before the frame is written: at head, or at offset 0 behind a
sentinel if there is room for one (spec/42_ring_buffer.md R182). -/
def placeFrame (p size : Nat) (r : Ring) : Res (Nat × Memory) :=
  if (size : Int) ≤ (regions p r.head r.tail r.cap).1 then .next (r.head, r.mem)
  else if p ≤ r.cap - r.head then andThen (wrLen p r.cap r.mem r.head 0) fun m => .next (0, m)
  else .next (0, r.mem)

/-- Writes the prefix and the payload at `w`, then publishes the head (spec/42_ring_buffer.md R180, R183). -/
def storeFrame (p : Nat) (data : List Byte) (w : Nat) (m : Memory) (r : Ring) : Res Ring :=
  andThen (wrLen p r.cap m w data.length) fun m1 =>
  andThen (memWrite r.cap m1 (w + p) data) fun m2 =>
  .next { r with mem := m2, head := (w + p + data.length) % r.cap }

/-- `RB_PUSH(data, size)` on a ring (spec/42_ring_buffer.md R180). -/
def ringPush (p ovfBits : Nat) (data : List Byte) (r : Ring) : Res (Ring × Pushed) :=
  if data.length = 0 then .next (r, .rejected)
  else if r.valid = false then .next (r, .rejected)
  else if freeBytes p r < data.length then .next ({ r with ovf := (r.ovf + 1) % 2 ^ ovfBits }, .overflow)
  else
    andThen (placeFrame p data.length r) fun place =>
    andThen (storeFrame p data place.1 place.2 r) fun r' => .next (r', .stored)

/-- Whether a frame with prefix at `t` and `n` data bytes is one that a push could have written: it ends at or before head
if it starts before head, else at or before the end of storage (spec/93_implementation_defined.md U3). -/
def frameInside (p : Nat) (r : Ring) (t n : Nat) : Bool :=
  if t ≤ r.head then decide (t + p + n ≤ r.head) else decide (t + p + n ≤ r.cap)

/-- The offset `t'` of `locate`: 0 if fewer than `P` bytes remain or the prefix at tail is the sentinel, else tail
(spec/42_ring_buffer.md R184). -/
def locateStart (p : Nat) (r : Ring) : Res Nat :=
  if r.cap - r.tail < p then .next 0
  else andThen (rdLen p r r.tail) fun n => .next (if n = 0 then 0 else r.tail)

/-- `locate()` (spec/42_ring_buffer.md R184): the offset and size of the frame at the tail. A prefix that no push could have
written is a fault. -/
def locate (p : Nat) (r : Ring) : Res (Option (Nat × Nat)) :=
  if r.valid = false then .next none
  else if r.head = r.tail then .next none
  else
    andThen (locateStart p r) fun t =>
    andThen (rdLen p r t) fun n =>
    if n = 0 then .next none
    else if frameInside p r t n then .next (some (t, n))
    else .fault .corruptPrefix

/-- `RB_PEEK()` (spec/42_ring_buffer.md R186): size and payload offset. -/
def ringPeek (p : Nat) (r : Ring) : Res (Nat × Option Nat) :=
  andThen (locate p r) fun f =>
  match f with
  | none => .next (0, none)
  | some (t, n) => .next (n, some (t + p))

/-- What `RB_POP` returns: the new ring, the return value and the bytes copied. -/
abbrev Popped := Ring × Nat × List Byte

/-- `RB_POP(out_present, maxSize)` on a ring (spec/42_ring_buffer.md R189, its four cases R190). -/
def ringPop (p : Nat) (outPresent : Bool) (maxSize : Nat) (r : Ring) : Res Popped :=
  andThen (locate p r) fun f =>
  match f with
  | none => .next (r, 0, [])
  | some (t, n) =>
    if outPresent && decide (maxSize = 0) then .next (r, n, [])
    else
      let k := if outPresent then min n maxSize else 0
      andThen (memRead r.cap r.mem (t + p) k) fun out =>
      .next ({ r with tail := (t + p + n) % r.cap }, k, out)

/-! ## The ring operations on the machine -/

/-- `RB_PUSH` as PROD's push data path and the port share it: the new state, and whether the frame was stored. An
overflow raises `RING_OVERFLOW(size)`. -/
def push (data : List Byte) (s : State) : Res (State × Bool) :=
  andThen (ringPush s.cfg.par.lenPrefix s.cfg.par.ovfBits data s.ring) fun x =>
  match x.2 with
  | .rejected => .next (s.setRing x.1, false)
  | .overflow => .next ((s.setRing x.1).raise (.ringOverflow data.length), false)
  | .stored => .next (s.setRing x.1, true)

/-- `RB_INIT(present, capacity)` (spec/42_ring_buffer.md R172): HOST, while no drain is in progress. -/
def execRbInit (present : Bool) (capacity : Nat) (s : State) : Res State :=
  byAgent [.host] s <| whenIdle .notQuiescent s <|
  .next ((s.setRing (ringInit s.cfg.par.lenPrefix present capacity s.ring)).answer
    (.init (initAccepts s.cfg.par.lenPrefix present capacity)))

/-- `RB_FREESPACE()` (spec/42_ring_buffer.md R176): PROD or CONS. -/
def execRbFreespace (s : State) : Res State :=
  byAgent [.prod, .cons] s <| .next (s.answer (.freeSpace (freeSpace s.cfg.par.lenPrefix s.ring)))

/-- `RB_PUSH(data, size)` (spec/42_ring_buffer.md R180): PROD. -/
def execRbPush (data : List Byte) (s : State) : Res State :=
  byAgent [.prod] s <| andThen (push data s) fun x => .next (x.1.answer (.push x.2))

/-- `RB_PEEK()` (spec/42_ring_buffer.md R186): CONS. -/
def execRbPeek (s : State) : Res State :=
  byAgent [.cons] s <| andThen (ringPeek s.cfg.par.lenPrefix s.ring) fun x => .next (s.answer (.peek x.1 x.2))

/-- `RB_POP(out_present, maxSize)` (spec/42_ring_buffer.md R189): CONS, not from inside a drain. -/
def execRbPop (outPresent : Bool) (maxSize : Nat) (s : State) : Res State :=
  byAgent [.cons] s <| whenIdle .reentrantCall s <|
  andThen (ringPop s.cfg.par.lenPrefix outPresent maxSize s.ring) fun x =>
  .next ((s.setRing x.1).answer (.pop x.2.1 x.2.2))

/-- `RB_OVERFLOWCOUNT()` (spec/42_ring_buffer.md R192): CONS; read and clear as one step (log entry 9). -/
def execRbOverflowcount (s : State) : Res State :=
  byAgent [.cons] s <| .next ((s.setRing { s.ring with ovf := 0 }).answer (.overflowCount s.ring.ovf))

end Sys2Proof.Machine
end

