-- ==== Sys2Proof/Machine/SyncDetector.lean ====
section
/-! DEFINITION. The dual-alignment sync detector (spec/41_sync_detector.md): `SYNC_MATCH` and the three sync entries
`SYNC_LONG`, `SYNC_EXT`, `SYNC_SHORT`. -/

namespace Sys2Proof.Machine

/-- The frame header (spec/30_encoding.md R97): tag, timestamp most significant byte first, bit offset. -/
def frameHeader (tag : Byte) (now : Word) (o : Nat) : List Byte :=
  [tag, now.extractLsb' 24 8, now.extractLsb' 16 8, now.extractLsb' 8 8, now.extractLsb' 0 8, BitVec.ofNat 8 o]

/-- The wire bit at which an entry is compared, for cursor `c` (spec/41_sync_detector.md R151). -/
def comparePos (e : SyncEntry) (c : Nat) : Nat := c + 1 + e.pos

/-- The loop body of `SYNC_MATCH` for one entry (spec/41_sync_detector.md R152): compare, and on a match capture and push the
frame. It answers whether the entry matched; the result of the push is ignored (R158). -/
def trySync (e : SyncEntry) (b : Bool) (c : Nat) (now : Word) (s : State) : Res (State × Bool) :=
  andThen (word32 s.cfg.par.dbBytes (s.dec.db b) (comparePos e c)) fun w =>
  if syncHit e w then
    andThen (memRead s.cfg.par.dbBytes (s.dec.db b) (comparePos e c / 8) (e.len + 1)) fun raw =>
    andThen (push (frameHeader e.tag now (comparePos e c % 8) ++ raw) s) fun x => .next (x.1, true)
  else .next (s, false)

/-- `SYNC_MATCH(b, c, now)` (spec/41_sync_detector.md R152): the entries in the order LONG, EXT, SHORT; the first match
wins (R153). -/
def syncMatch (b : Bool) (c : Nat) (now : Word) (s : State) : Res State :=
  andThen (trySync s.cfg.par.syncLong b c now s) fun x =>
  if x.2 then .next x.1 else
  andThen (trySync s.cfg.par.syncExt b c now x.1) fun y =>
  if y.2 then .next y.1 else
  andThen (trySync s.cfg.par.syncShort b c now y.1) fun z => .next z.1

/-- One entry tried on the active buffer at the pre-advance cursor. -/
def tryActive (e : SyncEntry) (s : State) : Res State :=
  byAgent [.prod] s <| andThen (trySync e s.dec.phase s.dec.cur s.env.now s) fun x => .next x.1

/-- `SYNC_MATCH` (spec/41_sync_detector.md R152), as a step of its own: the stage on the active buffer (log entry 7). -/
def execSyncMatch (s : State) : Res State :=
  byAgent [.prod] s <| syncMatch s.dec.phase s.dec.cur s.env.now s

/-- `SYNC_LONG` (spec/41_sync_detector.md R150): the first entry of the table (log entry 7). -/
def execSyncLong (s : State) : Res State := tryActive s.cfg.par.syncLong s

/-- `SYNC_EXT` (spec/41_sync_detector.md R150): the second entry of the table (log entry 7). -/
def execSyncExt (s : State) : Res State := tryActive s.cfg.par.syncExt s

/-- `SYNC_SHORT` (spec/41_sync_detector.md R150): the third entry of the table (log entry 7). -/
def execSyncShort (s : State) : Res State := tryActive s.cfg.par.syncShort s

end Sys2Proof.Machine
end

