-- ==== Sys2Proof/Machine/BitDecoder.lean ====
section
/-! DEFINITION. The Manchester bit decoder (spec/40_manchester_decoder.md): `PROCESS_BIT`. -/

namespace Sys2Proof.Machine

/-- `PREV & ~bit` (spec/40_manchester_decoder.md R131): a high-to-low transition decodes to 1, anything else to 0. -/
def manchester (prev bit : Bool) : Bool := prev && !bit

/-- Step 3 (spec/40_manchester_decoder.md R132): the decoded bit in the live window and in the duplicate trailing window. -/
def insertBit (p : Params) (m : Memory) (c : Nat) (d : Bool) : Res Memory :=
  andThen (writeBit p.dbBytes m c d) fun m1 => writeBit p.dbBytes m1 (c + p.wBits) d

/-- Steps 2 and 3: decode against `PREV`, replace `PREV`, insert into the active buffer. -/
def decodeAndInsert (p : Params) (bit : Bool) (d : Decoder) : Res Decoder :=
  andThen (insertBit p (d.db d.phase) d.cur (manchester d.prev bit)) fun m =>
  .next ({ d with prev := bit }.setDb d.phase m)

/-- Steps 6 and 1 (spec/40_manchester_decoder.md R134): the cursor advances after the second buffer, the phase toggles. -/
def advance (p : Params) (d : Decoder) : Decoder :=
  { d with cur := if d.phase then (d.cur + 1) % p.wBits else d.cur, phase := !d.phase }

/-- An accepted `PROCESS_BIT(bit)` (spec/40_manchester_decoder.md R130). -/
def acceptBit (bit : Bool) (s : State) : Res State :=
  andThen (decodeAndInsert s.cfg.par bit s.dec) fun d =>
  andThen (syncMatch s.dec.phase s.dec.cur s.env.now (s.setDec d)) fun s' =>
  .next (s'.setDec (advance s'.cfg.par s'.dec))

/-- `PROCESS_BIT(bit)` (spec/40_manchester_decoder.md R130): PROD; a strobe with `ENABLE = 0` performs nothing (R135). -/
def execProcessBit (bit : Bool) (s : State) : Res State :=
  byAgent [.prod] s <| if s.env.enable then acceptBit bit s else .next s

end Sys2Proof.Machine
end

