-- ==== Sys2Proof/Machine/Extract.lean ====
section
/-! DEFINITION. The bit-packed field extractor (spec/44_field_extractor.md): `EXTRACT_BITS`. -/

namespace Sys2Proof.Machine

/-- `EXTRACT_BITS(buf, bitOffset, bitLen)` (spec/44_field_extractor.md R230): pure, any agent may issue it; a call outside the
extractor's domain is refused (R232). -/
def execExtractBits (buf : List Byte) (bitOffset bitLen : Nat) (s : State) : Res State :=
  match extractBits buf bitOffset bitLen with
  | some v => .next (s.answer (.extract v))
  | none => .refused .extractDomain

end Sys2Proof.Machine
end

