-- ==== Sys2Proof/Machine/Crc.lean ====
section
/-! DEFINITION. The CRC engines (spec/43_crc_engines.md): `CRC_BCH` and `CRC_CCITT`. -/

namespace Sys2Proof.Machine

/-- One round of the table generation (spec/43_crc_engines.md R211). -/
def crcRound (poly r : Half) : Half := if r.msb then (r <<< 1) ^^^ poly else r <<< 1

/-- `k` rounds. -/
def crcRounds (poly : Half) : Nat → Half → Half
  | 0, r => r
  | k + 1, r => crcRounds poly k (crcRound poly r)

/-- `table(poly)[i]` (spec/43_crc_engines.md R211). -/
def crcTable (poly : Half) (i : Byte) : Half := crcRounds poly 8 (i.setWidth 16 <<< 8)

/-- `step(T, c, byte)` (spec/43_crc_engines.md R211). -/
def crcStep (poly c : Half) (b : Byte) : Half := (c <<< 8) ^^^ crcTable poly ((c >>> 8).setWidth 8 ^^^ b)

/-- `run(T, init, data)` (spec/43_crc_engines.md R211). -/
def crcRun (poly c : Half) (data : List Byte) : Half := data.foldl (crcStep poly) c

/-- The register of an engine after a check range. -/
def crcOf (p : CrcParams) (data : List Byte) : Half := crcRun p.poly p.init data

/-- The two results of an engine (spec/43_crc_engines.md R214, R215). -/
def crcAnswer (p : CrcParams) (data : List Byte) : Answer := .crc (crcOf p data) (crcOk p (crcOf p data))

/-- `CRC_BCH(data)` (spec/43_crc_engines.md R214): pure, any agent may issue it. -/
def execCrcBch (data : List Byte) (s : State) : Res State := .next (s.answer (crcAnswer s.cfg.par.bch data))

/-- `CRC_CCITT(data)` (spec/43_crc_engines.md R215): pure, any agent may issue it. -/
def execCrcCcitt (data : List Byte) (s : State) : Res State := .next (s.answer (crcAnswer s.cfg.par.ccitt data))

end Sys2Proof.Machine
end

