-- ==== Sys2Proof/Machine/Parsers.lean ====
section
/-! DEFINITION. The three message parsers (spec/45_parsers.md): `PARSE_SHORT`, `PARSE_EXT`, `PARSE_LONG`. -/

namespace Sys2Proof.Machine

/-! ## Field extraction -/

/-- The SHORT record of a message (spec/30_encoding.md R102, R103; spec/45_parsers.md R246). -/
def shortRecord (l : ShortLayout) (m : List Byte) : ShortRecord where
  id := wireField m l.idHi 2 ++ wireField m l.idLo 24
  rsv := wireField m l.rsv 1
  tamperPhy := wireField m l.tamperPhy 2
  ertType := wireField m l.ertType 4
  tamperEnc := wireField m l.tamperEnc 2
  consumption := wireField m l.consumption 24
  crc := wireField m l.crc 16

/-- The EXT record of a message (spec/30_encoding.md R104; spec/45_parsers.md R250). -/
def extRecord (m : List Byte) : ExtRecord where
  sync := beField m 0 2 16
  protocolId := byteAt m 2
  endpointType := byteAt m 3
  endpointId := beField m 4 4 32
  consumption := beField m 8 4 32
  tamper := beField m 12 2 16
  crc := beField m 14 2 16

/-- The shape A body of a LONG message (spec/30_encoding.md R107; spec/45_parsers.md R258). -/
def longBodyA (l : LongALayout) (m : List Byte) : LongA where
  moduleState := byteAt m l.moduleState
  tamperCounters := slice m l.tamperCounters (l.tamperCounters + 5)
  asyncCounter := beField m l.asyncCounter 2 16
  powerOutageFlags := slice m l.powerOutageFlags (l.powerOutageFlags + 5)
  lastConsumption := beField m l.lastConsumption 4 32
  delta := packedArray m l.deltaBit 9 nDeltaA

/-- The shape B body of a LONG message (spec/30_encoding.md R108; spec/45_parsers.md R260, R262, R266). -/
def longBodyB (l : LongBLayout) (m : List Byte) : LongB where
  unknown := slice m l.unknownOff (l.unknownOff + 3)
  lastConsumption := beField m l.lastOff l.lastLen 32
  excess := beField m l.excessOff 3 24
  residual := beField m l.residualOff 3 24
  hiresConsumption := beField m l.hiresOff l.hiresLen 32
  delta := packedArray m l.deltaBit 14 nDeltaB

/-- The shape of a LONG message: B iff its sub-type code is in the configured set (spec/45_parsers.md R257). -/
def longShape (p : Params) (m : List Byte) : LongShape :=
  if byteAt m p.longA.subtype ∈ p.subtypeB then .b (longBodyB p.longB m) else .a (longBodyA p.longA m)

/-- The LONG record of a message (spec/30_encoding.md R106, R109; spec/45_parsers.md R255, R256, R268). -/
def longRecord (p : Params) (m : List Byte) : LongRecord where
  preamble := beField m p.longA.preamble 4 32
  packetType := byteAt m p.longA.packetType
  packetLength := byteAt m p.longA.packetLength
  hammingCode := byteAt m p.longA.hammingCode
  appVersion := byteAt m p.longA.appVersion
  subtype := byteAt m p.longA.subtype
  serial := beField m p.longA.serial 4 32
  intervalCount := byteAt m p.longA.intervalCount
  shape := longShape p m
  txTimeOffset := beField m p.longA.txTimeOffset 2 16
  serialCrc := beField m p.longA.serialCrc 2 16
  packetCrc := beField m p.longA.packetCrc 2 16

/-! ## Record registers -/

/-- Which record register a parser writes, with the value. -/
def storeRecord (r : Record) (c : Consumer) : Consumer :=
  match r with
  | .short r => { c with recShort := r }
  | .ext r => { c with recExt := r }
  | .long r => { c with recLong := r }

/-! ## The parsers' common structure (spec/45_parsers.md R245, R270) -/

/-- A message gated by its CRC residual `c`: on a mismatch `CRC_FAIL(tag, c)` and nothing else; on a match the whole record
register, then the callback event if one is registered. It answers whether the message was accepted. -/
def gate (p : CrcParams) (c : Half) (tag : Byte) (r : Record) (m : List Byte) (s : State) : State × Bool :=
  if crcOk p c then ((s.setCons (storeRecord r s.cons)).emit tag r m, true)
  else (s.raise (.crcFail tag c), false)

/-- The bytes of a message in a check range (spec/43_crc_engines.md R216). -/
def checkRange (r : ByteRange) (m : List Byte) : List Byte := slice m r.first r.last

/-- `PARSE_SHORT(m)` for a message of exactly 12 bytes (spec/45_parsers.md R246). -/
def parseShort (m : List Byte) (s : State) : State × Bool :=
  gate s.cfg.par.bch (crcOf s.cfg.par.bch (checkRange s.cfg.par.rangeShort m)) s.cfg.par.tagShort
    (.short (shortRecord s.cfg.par.short m)) m s

/-- `PARSE_EXT(m)` for a message of exactly 16 bytes (spec/45_parsers.md R250). -/
def parseExt (m : List Byte) (s : State) : State × Bool :=
  gate s.cfg.par.ccitt (crcOf s.cfg.par.ccitt (checkRange s.cfg.par.rangeExt m)) s.cfg.par.tagExt
    (.ext (extRecord m)) m s

/-- `PARSE_LONG(m)` for a message of exactly 92 bytes (spec/45_parsers.md R255). -/
def parseLong (m : List Byte) (s : State) : State × Bool :=
  gate s.cfg.par.ccitt (crcOf s.cfg.par.ccitt (checkRange s.cfg.par.rangeLong m)) s.cfg.par.tagLong
    (.long (longRecord s.cfg.par m)) m s

/-- A parser as a port call (spec/45_parsers.md R276): CONS; a list shorter than the message is refused, a longer one is truncated. -/
def callParser (len : Nat) (parse : List Byte → State → State × Bool) (m : List Byte) (s : State) : Res State :=
  byAgent [.cons] s <|
  if m.length < len then .refused .messageTooShort
  else .next ((parse (m.take len) s).1.answer (.accepted (parse (m.take len) s).2))

/-- `PARSE_SHORT(m)` (spec/45_parsers.md R246). -/
def execParseShort (m : List Byte) (s : State) : Res State := callParser lenShort parseShort m s

/-- `PARSE_EXT(m)` (spec/45_parsers.md R250). -/
def execParseExt (m : List Byte) (s : State) : Res State := callParser lenExt parseExt m s

/-- `PARSE_LONG(m)` (spec/45_parsers.md R255). -/
def execParseLong (m : List Byte) (s : State) : Res State := callParser lenLong parseLong m s

end Sys2Proof.Machine
end

