-- ==== Sys2Proof/Machine/Messages.lean ====
section
/-! DEFINITION. The dispatch loop (spec/46_dispatch.md): `PROCESS_MESSAGES`, `REGISTER_CALLBACK`, and the four type tags
`TAG_NONE`, `TAG_SHORT`, `TAG_EXT`, `TAG_LONG` as the arms of `DISPATCH`.

`PROCESS_MESSAGES` is the sequence of CONS steps peek, dispatch, pop, peek, … (spec/46_dispatch.md R284, R285), and PROD steps may
fall between two of them (spec/60_exceptions.md R323). Its transaction takes the first peek; each further CONS step is
`drainStep` (log entry 8). -/

namespace Sys2Proof.Machine

/-- Byte `i` of `STG`. -/
def stgByte (s : State) (i : Nat) : Byte := s.cons.stg.read i

/-- `STG` replaced. -/
def State.setStg (s : State) (m : Memory) : State := s.setCons { s.cons with stg := m }

/-! ## DISPATCH (spec/46_dispatch.md R284, R286) -/

/-- A frame of a known tag with messages of `len` bytes: too short a frame or a bit offset above 7 raises `UNKNOWN_TYPE`; else
the payload is realigned in `STG` and its first `len` bytes go to the parser. -/
def dispatchKnown (tag : Byte) (len : Nat) (parse : List Byte → State → State × Bool) (n : Nat) (s : State) : Res State :=
  if n < hdrLen + len + 1 ∨ 7 < (stgByte s 5).toNat then .next (s.raise (.unknownType tag))
  else
    andThen (memRead stgLen s.cons.stg hdrLen (len + 1)) fun pay =>
    andThen (memWrite stgLen s.cons.stg hdrLen (realign pay (stgByte s 5).toNat)) fun stg =>
    .next (parse ((realign pay (stgByte s 5).toNat).take len) (s.setStg stg)).1

/-- The arm of `DISPATCH(n)` for a tag byte. -/
def dispatchTag (tag : Byte) (n : Nat) (s : State) : Res State :=
  if tag = s.cfg.par.tagShort then dispatchKnown tag lenShort parseShort n s
  else if tag = s.cfg.par.tagExt then dispatchKnown tag lenExt parseExt n s
  else if tag = s.cfg.par.tagLong then dispatchKnown tag lenLong parseLong n s
  else .next (s.raise (.unknownType tag))

/-- The copy of the peeked frame into `STG`: `min(n, STG_LEN)` bytes (spec/46_dispatch.md R284, R287). -/
def stageFrame (n ptr : Nat) (s : State) : Res State :=
  andThen (memRead s.ring.cap s.ring.mem ptr (min n stgLen)) fun data =>
  andThen (memWrite stgLen s.cons.stg 0 data) fun stg => .next (s.setStg stg)

/-- One `DISPATCH` step: copy, then the arm of the frame's tag byte. -/
def dispatchFrame (n ptr : Nat) (s : State) : Res State :=
  andThen (stageFrame n ptr s) fun s' => dispatchTag (stgByte s' 0) n s'

/-! ## The drain (spec/46_dispatch.md R284, R285) -/

/-- The `RB_PEEK` of the loop: an empty peek ends the drain. -/
def drainPeek (s : State) : Res State :=
  andThen (ringPeek s.cfg.par.lenPrefix s.ring) fun x =>
  match x.2 with
  | none => .next (s.setDrain .idle)
  | some ptr => .next (s.setDrain (.dispatch x.1 ptr))

/-- The `RB_POP(0, 0)` of the loop, its return value ignored (spec/46_dispatch.md R288). -/
def drainPop (s : State) : Res State :=
  andThen (ringPop s.cfg.par.lenPrefix false 0 s.ring) fun x => .next ((s.setRing x.1).setDrain .peek)

/-- The next CONS step of the drain in progress; without one, nothing. -/
def drainStep (s : State) : Res State :=
  match s.env.drain with
  | .idle => .next s
  | .peek => drainPeek s
  | .dispatch n ptr => andThen (dispatchFrame n ptr s) fun s' => .next (s'.setDrain .pop)
  | .pop => drainPop s

/-- `PROCESS_MESSAGES()` (spec/46_dispatch.md R284): CONS, not from inside a drain (R291). -/
def execProcessMessages (s : State) : Res State :=
  byAgent [.cons] s <| whenIdle .reentrantCall s <| drainPeek (s.setEnv { s.env with started := true })

/-! ## Callback registration (spec/46_dispatch.md R292) -/

/-- `REGISTER_CALLBACK(handle)`: CONS, or HOST before the first `PROCESS_MESSAGES`. -/
def execRegisterCallback (handle : Nat) (s : State) : Res State :=
  byAgent (if s.env.started then [.cons] else [.cons, .host]) s <|
  .next (s.setCons { s.cons with cbHandle := handle, cbValid := true })

/-! ## The type tags (spec/30_encoding.md R98) -/

/-- `TAG_NONE`: unknown to the dispatch loop (spec/30_encoding.md R98; log entry 7). -/
def execTagNone (n : Nat) (s : State) : Res State := byAgent [.cons] s <| dispatchTag s.cfg.par.tagNone n s

/-- `TAG_SHORT`: 12-byte messages for `PARSE_SHORT` (spec/30_encoding.md R98; log entry 7). -/
def execTagShort (n : Nat) (s : State) : Res State := byAgent [.cons] s <| dispatchTag s.cfg.par.tagShort n s

/-- `TAG_EXT`: 16-byte messages for `PARSE_EXT` (spec/30_encoding.md R98; log entry 7). -/
def execTagExt (n : Nat) (s : State) : Res State := byAgent [.cons] s <| dispatchTag s.cfg.par.tagExt n s

/-- `TAG_LONG`: 92-byte messages for `PARSE_LONG` (spec/30_encoding.md R98; log entry 7). -/
def execTagLong (n : Nat) (s : State) : Res State := byAgent [.cons] s <| dispatchTag s.cfg.par.tagLong n s

end Sys2Proof.Machine
end

