-- ==== Sys2Proof/Machine/Dispatch.lean ====
section
/-! DEFINITION. The meaning of each instruction: one arm per row of spec/opcode_table.json. -/

namespace Sys2Proof.Machine

def exec (i : Instr) (s : State) : Host.Outcome State Fault Refusal :=
  match i with
  | .processBit bit => Sys2Proof.Machine.execProcessBit bit s
  | .syncMatch => Sys2Proof.Machine.execSyncMatch s
  | .rbInit present capacity => Sys2Proof.Machine.execRbInit present capacity s
  | .rbFreespace => Sys2Proof.Machine.execRbFreespace s
  | .rbPush data => Sys2Proof.Machine.execRbPush data s
  | .rbPeek => Sys2Proof.Machine.execRbPeek s
  | .rbPop outPresent maxSize => Sys2Proof.Machine.execRbPop outPresent maxSize s
  | .rbOverflowcount => Sys2Proof.Machine.execRbOverflowcount s
  | .crcBch data => Sys2Proof.Machine.execCrcBch data s
  | .crcCcitt data => Sys2Proof.Machine.execCrcCcitt data s
  | .extractBits buf bitOffset bitLen => Sys2Proof.Machine.execExtractBits buf bitOffset bitLen s
  | .parseShort m => Sys2Proof.Machine.execParseShort m s
  | .parseExt m => Sys2Proof.Machine.execParseExt m s
  | .parseLong m => Sys2Proof.Machine.execParseLong m s
  | .processMessages => Sys2Proof.Machine.execProcessMessages s
  | .registerCallback handle => Sys2Proof.Machine.execRegisterCallback handle s
  | .syncLong => Sys2Proof.Machine.execSyncLong s
  | .syncExt => Sys2Proof.Machine.execSyncExt s
  | .syncShort => Sys2Proof.Machine.execSyncShort s
  | .tagNone n => Sys2Proof.Machine.execTagNone n s
  | .tagShort n => Sys2Proof.Machine.execTagShort n s
  | .tagExt n => Sys2Proof.Machine.execTagExt n s
  | .tagLong n => Sys2Proof.Machine.execTagLong n s

end Sys2Proof.Machine
end

