-- ==== Sys2Proof/Machine/Platform.lean ====
section
/-! DEFINITION. The inputs of a run that are not port transactions: reset and the pins, driven by HOST
(spec/70_reset_and_hazards.md R366), and the selection of the next input. -/

namespace Sys2Proof.Machine

/-- Reset (spec/70_reset_and_hazards.md R340): the three parts of the block return to their initial state; the parameters, the pins
and what the environment has seen stay. Only while no drain is in progress (R345). -/
def hostReset (s : State) : Res State :=
  whenIdle .notQuiescent s <|
  .next { s with dec := Decoder.reset, ring := Ring.reset, cons := Consumer.reset, env := { s.env with started := false } }

/-- HOST drives `ENABLE` (spec/10_state.md R45). -/
def driveEnable (v : Bool) (s : State) : State := s.setEnv { s.env with enable := v }

/-- HOST drives `NOW` (spec/10_state.md R46). -/
def driveNow (v : Word) (s : State) : State := s.setEnv { s.env with now := v }

/-- The state in which the oldest input is taken off the inbox. -/
def State.setInbox (s : State) (l : List Event) : State := s.setEnv { s.env with inbox := l }

/-- The state in which an agent's transaction is served. -/
def State.issuedBy (s : State) (a : Agent) : State := s.setEnv { s.env with issuer := a }

/-- A transaction put in front of the inbox, and nothing else changed. -/
def State.withTransaction (s : State) (a : Agent) (f : Format) (bytes : List Byte) : State :=
  s.setInbox (.port a f bytes :: s.env.inbox)

/-- The agent that may issue a transaction, by the row its bytes decode to. -/
def transactionAgent (f : Format) (bytes : List Byte) : Agent :=
  match decodedInstr f bytes with
  | some i => i.tableAgent
  | none => .cons

end Sys2Proof.Machine
end

