-- ==== Sys2Proof/Machine/Step.lean ====
section
/-! DEFINITION. One step of the machine: the oldest input is served. With no input waiting, CONS takes the next step of a drain
in progress; with none of either the block stands still, since it never stops by itself (spec/70_reset_and_hazards.md R366). -/

namespace Sys2Proof.Machine

/-- A port transaction: decoded, then executed in the name of its agent. -/
def serveTransaction (a : Agent) (f : Format) (bytes : List Byte) (s : State) : Host.Outcome State Fault Refusal :=
  match decode f bytes with
  | .ok (i, _) => exec i (s.issuedBy a)
  | .error e => .refused (.undecodable e)

/-- One input of a run. -/
def serve (e : Event) (s : State) : Host.Outcome State Fault Refusal :=
  match e with
  | .port a f bytes => serveTransaction a f bytes s
  | .consStep => drainStep s
  | .reset => hostReset s
  | .enable v => .next (driveEnable v s)
  | .now v => .next (driveNow v s)

/-- One step. -/
def step (s : State) : Host.Outcome State Fault Refusal :=
  match s.env.inbox with
  | [] => drainStep s
  | e :: rest => serve e (s.setInbox rest)

/-- The opcode table's word of `nbits` bits as the next transaction, in the name of the agent the table lists for its row. A
size that is no row's puts no transaction. -/
def State.withFetchWord (s : State) (nbits w : Nat) : State :=
  match tableFormat nbits with
  | some f => s.withTransaction (transactionAgent f (tableBytes f w)) f (tableBytes f w)
  | none => s

end Sys2Proof.Machine
end

