-- ==== Sys2Proof/Safety.lean ====
section
/-! DEFINITION. What counts as a good state, in the terms the statements use: the invariants of spec/10_state.md R32 and R50, the ranges
of the registers, and the frames a ring holds. -/

namespace Sys2Proof.Machine

/-! ## The frames a ring holds (spec/10_state.md R50, I3 to I7) -/

/-- The ring after a frame at offset `t` with `n` data bytes is consumed. -/
def Ring.skip (p : Nat) (r : Ring) (t n : Nat) : Ring := { r with tail := (t + p + n) % r.cap }

/-- The ring holds exactly the frames of the list, oldest first: read from the tail forward by `locate`, each has the listed data, the
wrap to offset 0 is taken only while head is below tail, and the last one ends at head. -/
def holdsFrames (p : Nat) (r : Ring) : List (List Byte) → Bool
  | [] => decide (r.head = r.tail)
  | f :: fs =>
    match locate p r with
    | .next (some (t, n)) =>
      decide (n = f.length) && (decide (r.tail ≤ t) || decide (r.head < r.tail)) &&
      decide (r.mem.readBytes (t + p) n = f) && holdsFrames p (r.skip p t n) fs
    | _ => false

/-! ## Invariants -/

/-- Every entry of a memory lies below `n`. -/
def Memory.below (m : Memory) (n : Nat) : Bool := m.all fun c => decide (c.1 < n)

/-- The duplicate invariant of one alignment buffer (spec/10_state.md R32). -/
abbrev WindowsAgree (p : Params) (m : Memory) : Prop :=
  ∀ q, q < p.wBits → wireBit m.read q = wireBit m.read (q + p.wBits)

/-- One alignment buffer: canonical, nothing in the pad byte or past it, and its two windows agree. -/
structure BufferInv (p : Params) (m : Memory) : Prop where
  wf : m.wf = true
  below : m.below (2 * p.wBytes) = true
  agree : WindowsAgree p m

/-- The decoder part. -/
structure DecoderInv (p : Params) (d : Decoder) : Prop where
  cur : d.cur < p.wBits
  db0 : BufferInv p d.db0
  db1 : BufferInv p d.db1

/-- The ring part (spec/10_state.md R50); an uninitialised ring has every register zero. -/
structure RingInv (p : Params) (r : Ring) : Prop where
  wf : r.mem.wf = true
  ovf : r.ovf < 2 ^ p.ovfBits
  invalid : r.valid = false → r.cap = 0 ∧ r.head = 0 ∧ r.tail = 0 ∧ r.ovf = 0
  cap : r.valid = true → p.lenPrefix < r.cap ∧ r.cap ≤ 2 ^ (8 * p.lenPrefix)
  head : r.valid = true → r.head < r.cap
  tail : r.valid = true → r.tail < r.cap
  frames : r.valid = true → ∃ fs, holdsFrames p.lenPrefix r fs = true

/-- The byte and delta lists of a LONG record have the lengths of its shape. -/
def LongShape.sized : LongShape → Bool
  | .a x => decide (x.tamperCounters.length = 6) && decide (x.powerOutageFlags.length = 6) && decide (x.delta.length = nDeltaA)
  | .b x => decide (x.unknown.length = 4) && decide (x.delta.length = nDeltaB)

/-- The consumer part. -/
structure ConsumerInv (c : Consumer) : Prop where
  wf : c.stg.wf = true
  below : c.stg.below stgLen = true
  sized : c.recLong.shape.sized = true

/-- While a drain is between its peek and its pop, the frame that was peeked is still the one at the tail. -/
def DrainInv (p : Nat) (r : Ring) : Drain → Prop
  | .idle => True
  | .peek => True
  | .dispatch n ptr => ringPeek p r = .next (n, some ptr)
  | .pop => ∃ n ptr, ringPeek p r = .next (n, some ptr)

/-- The invariant of the machine. -/
structure State.Inv (s : State) : Prop where
  dec : DecoderInv s.cfg.par s.dec
  ring : RingInv s.cfg.par s.ring
  cons : ConsumerInv s.cons
  drain : DrainInv s.cfg.par.lenPrefix s.ring s.env.drain

/-! ## Terms of the statements -/

/-- The compare word of an entry on the active window at the cursor (spec/41_sync_detector.md R151). -/
def compareWord (e : SyncEntry) (s : State) : Word :=
  BitVec.ofNat 32 (wireNat (s.dec.db s.dec.phase).read (comparePos e s.dec.cur) 32)

/-- The frame an entry captures from the active window (spec/41_sync_detector.md R152, R155): header, then `len + 1` raw bytes. -/
def capturedFrame (e : SyncEntry) (s : State) : List Byte :=
  frameHeader e.tag s.env.now (comparePos e s.dec.cur % 8) ++
  (s.dec.db s.dec.phase).readBytes (comparePos e s.dec.cur / 8) (e.len + 1)

/-- What the consumer does with one frame's data: it is staged and dispatched. -/
def deliver (f : List Byte) (s : State) : Res State :=
  andThen (memWrite stgLen s.cons.stg 0 (f.take stgLen)) fun stg =>
  dispatchTag ((s.setStg stg).cons.stg.read 0) f.length (s.setStg stg)

/-- Frames delivered one after the other. -/
def deliverAll : List (List Byte) → State → Res State
  | [], s => .next s
  | f :: fs, s => andThen (deliver f s) (deliverAll fs)

/-- The state with an answer and nothing else changed has the same block state. -/
def State.block (s : State) : Cfg × Decoder × Ring × Consumer := (s.cfg, s.dec, s.ring, s.cons)

/-- A run is safe if no step of it ends in a fault. -/
def NoFault (x : Res State) : Prop := ∀ r, x ≠ .fault r

/-- The first entry of the table, in priority order, that the active window matches (spec/41_sync_detector.md R153). -/
def firstHit (s : State) : Option SyncEntry :=
  [s.cfg.par.syncLong, s.cfg.par.syncExt, s.cfg.par.syncShort].find? fun e => syncHit e (compareWord e s)

/-- Samples taken one after the other (`FEED` of spec/30_encoding.md R115). -/
def feed : List Bool → State → Res State
  | [], s => .next s
  | b :: r, s => andThen (exec (.processBit b) s) (feed r)

/-- `MANCH` of spec/30_encoding.md R92 on data bits: a 1 is the cell (1, 0), a 0 the cell (0, 1). -/
def manch (data : List Bool) : List Bool := data.flatMap fun x => [x, !x]

/-- `d_k` of the stream view (spec/40_manchester_decoder.md R137): sample `k - 1` high and sample `k` low, where sample `-1` is 0. -/
def streamBit (samples : List Bool) (k : Nat) : Bool :=
  (if k = 0 then false else samples.getD (k - 1) false) && !samples.getD k false

/-- One bit of the shift network (spec/43_crc_engines.md R211, R219). -/
def crcShift (poly c : Half) (bit : Bool) : Half := if c.msb ^^ bit then (c <<< 1) ^^^ poly else c <<< 1

/-- The bits of a byte list in wire order. -/
def wireBits (l : List Byte) : List Bool := (List.range (8 * l.length)).map (wireBit (byteAt l))

/-- The shift network run over a byte list, bit by bit in wire order. -/
def crcSerial (poly c : Half) (data : List Byte) : Half := (wireBits data).foldl (crcShift poly) c

/-- A byte list with wire bit `k` inverted. -/
def flipWireBit (l : List Byte) (k : Nat) : List Byte := l.set (k / 8) (byteAt l (k / 8) ^^^ ((0x80 : Byte) >>> (k % 8)))

/-- The two bytes of a 16-bit value, high byte first (spec/30_encoding.md R112). -/
def halfBytes (c : Half) : List Byte := [c.extractLsb' 8 8, c.extractLsb' 0 8]

/-- The number a byte list holds at index `i`. -/
def num (m : List Byte) (i : Nat) : Nat := (byteAt m i).toNat

/-- `BE16(m, i)` (spec/00_scope.md R12). -/
def be16 (m : List Byte) (i : Nat) : Nat := num m i * 256 + num m (i + 1)

/-- `BE24(m, i)` (spec/00_scope.md R12). -/
def be24 (m : List Byte) (i : Nat) : Nat := num m i * 65536 + num m (i + 1) * 256 + num m (i + 2)

/-- `BE32(m, i)` (spec/00_scope.md R12). -/
def be32 (m : List Byte) (i : Nat) : Nat :=
  num m i * 2 ^ 24 + num m (i + 1) * 2 ^ 16 + num m (i + 2) * 2 ^ 8 + num m (i + 3)

/-- The message of `len` bytes that `DISPATCH` takes from the staged frame (spec/46_dispatch.md R284). -/
def stagedMessage (len : Nat) (s : State) : List Byte :=
  (realign (s.cons.stg.readBytes hdrLen (len + 1)) (stgByte s 5).toNat).take len

/-- The agents that may issue an instruction (spec/60_exceptions.md R320, spec/30_encoding.md R90, spec/46_dispatch.md R292); the sync entries
belong to PROD's `SYNC_MATCH`, the type tags to CONS's `DISPATCH`. -/
def mayIssue (started : Bool) : Instr → List Agent
  | .processBit _ => [.prod]
  | .syncMatch => [.prod]
  | .rbInit _ _ => [.host]
  | .rbFreespace => [.prod, .cons]
  | .rbPush _ => [.prod]
  | .rbPeek => [.cons]
  | .rbPop _ _ => [.cons]
  | .rbOverflowcount => [.cons]
  | .crcBch _ => [.prod, .cons, .host]
  | .crcCcitt _ => [.prod, .cons, .host]
  | .extractBits _ _ _ => [.prod, .cons, .host]
  | .parseShort _ => [.cons]
  | .parseExt _ => [.cons]
  | .parseLong _ => [.cons]
  | .processMessages => [.cons]
  | .registerCallback _ => if started then [.cons] else [.cons, .host]
  | .syncLong => [.prod]
  | .syncExt => [.prod]
  | .syncShort => [.prod]
  | .tagNone _ => [.cons]
  | .tagShort _ => [.cons]
  | .tagExt _ => [.cons]
  | .tagLong _ => [.cons]

/-- The state with other events already on its output ports. -/
def State.withOutputs (s : State) (cb : List CbEvent) (diag : List Condition) (answers : List Answer) : State :=
  s.setEnv { s.env with cbOut := cb, diag := diag, answers := answers }

end Sys2Proof.Machine
end

