-- ==== Sys2Proof/Certificates/Slice0/Obligations.lean ====
section
/-! DEFINITION. The statements for the provers. Each docstring names the rule of spec/ it formalises, or says that the statement is the
model's and names the log entry. Where a statement has the premise `s.Inv`, the states that any run reaches meet it: it holds at reset and
every step keeps it, which two statements of this file say. -/

open Sys2Proof Sys2Proof.Machine

/-! ## The Manchester bit decoder -/

/-- spec/40_manchester_decoder.md R135: a strobe with `ENABLE = 0` changes nothing, and driving `ENABLE` leaves the decoder as it is, so it
continues from its stale state.
Of these the spec marks as its own: R135 (D28). -/
def Obligations.DisabledSampleChangesNothing : Prop :=
  (∀ (bit : Bool) (s : State), s.env.issuer = .prod → s.env.enable = false → exec (.processBit bit) s = .next s) ∧
  ∀ (v : Bool) (s : State), serve (.enable v) s = .next (s.setEnv { s.env with enable := v })

/-- spec/40_manchester_decoder.md R130, R132, R133: an accepted call inserts the decoded bit at the cursor and at the cursor plus `W_BITS` of
the active buffer and nowhere else, runs the sync match on the result at the cursor not yet advanced, and then advances.
Of these the spec marks as its own: R132 (D4). -/
def Obligations.AcceptedSampleCompletes : Prop :=
  ∀ (bit : Bool) (s : State), s.Inv → s.env.issuer = .prod → s.env.enable = true →
    ∃ (d : Decoder) (u : State),
      d.prev = bit ∧ d.phase = s.dec.phase ∧ d.cur = s.dec.cur ∧
      d.db (!s.dec.phase) = s.dec.db (!s.dec.phase) ∧
      (∀ q, wireBit (d.db s.dec.phase).read q =
        if q = s.dec.cur ∨ q = s.dec.cur + s.cfg.par.wBits then s.dec.prev && !bit
        else wireBit (s.dec.db s.dec.phase).read q) ∧
      exec .syncMatch (s.setDec d) = .next u ∧
      exec (.processBit bit) s = .next (u.setDec
        { d with
          cur := if s.dec.phase then (s.dec.cur + 1) % s.cfg.par.wBits else s.dec.cur
          phase := !s.dec.phase })

/-- spec/40_manchester_decoder.md R131: the decoded bit is 1 iff `PREV = 1` and the sample is 0, and `PREV` becomes the sample. -/
def Obligations.DecodedBitIsHighToLow : Prop :=
  ∀ (bit : Bool) (s : State), s.Inv → s.env.issuer = .prod → s.env.enable = true →
    ∃ t, exec (.processBit bit) s = .next t ∧ t.dec.prev = bit ∧
      (wireBit (t.dec.db s.dec.phase).read s.dec.cur = true ↔ s.dec.prev = true ∧ bit = false)

/-- spec/40_manchester_decoder.md R134: the phase toggles on every accepted call; the cursor advances after a call of phase 1 only, and
returns to 0 after `W_BITS - 1`; two calls from phase 0 write the two buffers at one cursor. -/
def Obligations.CursorAdvancesOncePerTwoCalls : Prop :=
  (∀ (bit : Bool) (s : State), s.Inv → s.env.issuer = .prod → s.env.enable = true →
    ∃ t, exec (.processBit bit) s = .next t ∧ t.dec.phase = !s.dec.phase ∧
      t.dec.cur = if s.dec.phase then (if s.dec.cur + 1 = s.cfg.par.wBits then 0 else s.dec.cur + 1) else s.dec.cur) ∧
  ∀ (bit1 bit2 : Bool) (s : State), s.Inv → s.env.issuer = .prod → s.env.enable = true → s.dec.phase = false →
    ∃ t u, exec (.processBit bit1) s = .next t ∧ exec (.processBit bit2) t = .next u ∧
      t.dec.cur = s.dec.cur ∧ u.dec.cur = (s.dec.cur + 1) % s.cfg.par.wBits ∧ u.dec.phase = false ∧
      t.dec.db1 = s.dec.db1 ∧ u.dec.db0 = t.dec.db0 ∧
      wireBit t.dec.db0.read s.dec.cur = (s.dec.prev && !bit1) ∧
      wireBit u.dec.db1.read s.dec.cur = (bit1 && !bit2)

/-- spec/40_manchester_decoder.md R137: the stream view. From the decoder's reset state, after any list of samples, the bit that call `k` decoded
stands in the buffer of its parity at cursor `k / 2` modulo `W_BITS`, unless call `k + 2 * W_BITS` has overwritten it.
Of these the spec marks as its own: R137 (derived). -/
def Obligations.StreamView : Prop :=
  ∀ (samples : List Bool) (s : State), s.Inv → s.dec = Decoder.reset → s.env.issuer = .prod → s.env.enable = true →
    ∃ t, feed samples s = .next t ∧
      t.dec.phase = decide (samples.length % 2 = 1) ∧
      t.dec.cur = samples.length / 2 % s.cfg.par.wBits ∧
      t.dec.prev = samples.getLastD false ∧
      ∀ k, k < samples.length → samples.length ≤ k + 2 * s.cfg.par.wBits →
        wireBit (t.dec.db (decide (k % 2 = 1))).read (k / 2 % s.cfg.par.wBits) = streamBit samples k

/-- spec/40_manchester_decoder.md R138: of a valid Manchester stream one buffer holds the data and the other one a function of it that is not
the data; one sample in front swaps the buffers.
Of these the spec marks as its own: R138 (derived). -/
def Obligations.ManchesterStreamDecodes : Prop :=
  ∀ (data : List Bool) (s : State), s.Inv → s.dec = Decoder.reset → s.env.issuer = .prod → s.env.enable = true →
    data.length ≤ s.cfg.par.wBits →
    (∃ t, feed (manch data) s = .next t ∧
      (∀ k, k < data.length → wireBit t.dec.db1.read k = data.getD k false) ∧
      (∀ k, k + 1 < data.length →
        wireBit t.dec.db0.read (k + 1) = (!data.getD k false && !data.getD (k + 1) false))) ∧
    ∀ first : Bool, ∃ t, feed (first :: manch data) s = .next t ∧
      ∀ k, k < data.length → wireBit t.dec.db0.read ((k + 1) % s.cfg.par.wBits) = data.getD k false

/-- spec/10_state.md R32: the two windows of each alignment buffer agree, at reset and after every step.
Of these the spec marks as its own: R32 (derived). -/
def Obligations.WindowsAgreeAlways : Prop :=
  (∀ b, WindowsAgree State.reset.cfg.par (State.reset.dec.db b)) ∧
  ∀ s t : State, DecoderInv s.cfg.par s.dec → step s = .next t → ∀ b, WindowsAgree t.cfg.par (t.dec.db b)

/-! ## The sync detector -/

/-- spec/41_sync_detector.md R151: the compare word is the 32 wire bits at `CUR + 1 + pos`, first bit most significant; its bytewise form;
the read never leaves the two windows. -/
def Obligations.CompareWordForms : Prop :=
  ∀ (s : State) (e : SyncEntry), s.Inv → e ∈ [s.cfg.par.syncLong, s.cfg.par.syncExt, s.cfg.par.syncShort] →
    let m := s.dec.db s.dec.phase
    let q := s.dec.cur + 1 + e.pos
    word32 s.cfg.par.dbBytes m q = .next (compareWord e s) ∧
    (compareWord e s).toNat = ∑ i ∈ Finset.range 32, (wireBit m.read (q + i)).toNat * 2 ^ (31 - i) ∧
    (compareWord e s).toNat =
      (if q % 8 = 0 then beNat m.read (q / 8) 4
       else (beNat m.read (q / 8) 4 * 2 ^ (q % 8) + (m.read (q / 8 + 4)).toNat / 2 ^ (8 - q % 8)) % 2 ^ 32) ∧
    q + 31 < 2 * s.cfg.par.wBits

/-- spec/41_sync_detector.md R152, R153, R158: the first entry that matches, in the order LONG, EXT, SHORT, has its captured frame pushed
once, whatever becomes of the push; without a match nothing happens. -/
def Obligations.SyncMatchPushesFirstHit : Prop :=
  ∀ s : State, s.Inv → s.env.issuer = .prod →
    (firstHit s = none → exec .syncMatch s = .next s) ∧
    ∀ e, firstHit s = some e →
      ∃ t ok, push (capturedFrame e s) s = .next (t, ok) ∧
        exec (.rbPush (capturedFrame e s)) s = .next (t.answer (.push ok)) ∧ exec .syncMatch s = .next t

/-- spec/41_sync_detector.md R150, R152: each entry of the table tried alone on the active window (log entry 7: the model's choice of what the
three SYNC32 rows do as steps of their own).
Of these the spec marks as its own: R150 (from general knowledge). -/
def Obligations.SyncEntrySteps : Prop :=
  ∀ (s : State) (i : Instr) (e : SyncEntry), s.Inv → s.env.issuer = .prod →
    (i, e) ∈ [(Instr.syncLong, s.cfg.par.syncLong), (Instr.syncExt, s.cfg.par.syncExt),
      (Instr.syncShort, s.cfg.par.syncShort)] →
    (compareWord e s &&& e.mask ≠ e.pattern → exec i s = .next s) ∧
    (compareWord e s &&& e.mask = e.pattern →
      ∃ t ok, exec (.rbPush (capturedFrame e s)) s = .next (t.answer (.push ok)) ∧ exec i s = .next t)

/-- spec/41_sync_detector.md R153: with the default table no compare word matches two entries. The pattern values are the spec's defaults
from general knowledge. -/
def Obligations.DefaultPatternsExclusive : Prop :=
  ∀ w : Word, (syncHit defaultSyncLong w = true → syncHit defaultSyncExt w = false ∧ syncHit defaultSyncShort w = false) ∧
    (syncHit defaultSyncExt w = true → syncHit defaultSyncShort w = false)

/-- spec/41_sync_detector.md R154, R155 and spec/30_encoding.md R97, R99, R100: a captured frame is a header of six bytes with the bit offset last, then
`len + 1` raw bytes; realigned by that offset, their wire bits are the window's bits from the first sync bit on.
Of these the spec marks as its own: R154 (derived), R155 (D7), R97 (D8), R99 (D7), R100 (derived). -/
def Obligations.CapturedMessageIsWindow : Prop :=
  ∀ (s : State) (e : SyncEntry), s.Inv → e ∈ [s.cfg.par.syncLong, s.cfg.par.syncExt, s.cfg.par.syncShort] →
    let q := s.dec.cur + 1 + e.pos
    let f := capturedFrame e s
    f.length = 6 + e.len + 1 ∧ byteAt f 0 = e.tag ∧
    num f 1 * 2 ^ 24 + num f 2 * 2 ^ 16 + num f 3 * 2 ^ 8 + num f 4 = s.env.now.toNat ∧ num f 5 = q % 8 ∧
    (∀ k, k < 8 * e.len →
      wireBit (byteAt (realign (f.drop 6) (num f 5))) k = wireBit (s.dec.db s.dec.phase).read (q + k))

/-! ## The ring -/

/-- spec/42_ring_buffer.md R172, R173: what a successful and a failed `RB_INIT` leave. That storage past the capacity stays, and that a
failed init leaves storage as it is, is the model's choice (log entry 10).
Of these the spec marks as its own: R173 (D12, D17, derived). -/
def Obligations.RingInitResult : Prop :=
  ∀ (present : Bool) (capacity : Nat) (s : State), s.env.issuer = .host → s.env.drain = .idle →
    (present = true ∧ s.cfg.par.lenPrefix < capacity ∧ capacity ≤ 2 ^ (8 * s.cfg.par.lenPrefix) →
      ∃ m : Memory, (∀ a, m.read a = if a < capacity then 0 else s.ring.mem.read a) ∧
        exec (.rbInit present capacity) s = .next ((s.setRing ⟨true, capacity, 0, 0, 0, m⟩).answer (.init true))) ∧
    (¬ (present = true ∧ s.cfg.par.lenPrefix < capacity ∧ capacity ≤ 2 ^ (8 * s.cfg.par.lenPrefix)) →
      exec (.rbInit present capacity) s = .next ((s.setRing ⟨false, 0, 0, 0, 0, s.ring.mem⟩).answer (.init false)))

/-- spec/42_ring_buffer.md R171, R176: free space is the larger of the two regions, which are integers, or 0.
Of these the spec marks as its own: R171 (D14). -/
def Obligations.FreeSpaceIsLargerRegion : Prop :=
  ∀ s : State, s.env.issuer ∈ [Agent.prod, Agent.cons] →
    ∃ n : Nat, exec .rbFreespace s = .next (s.answer (.freeSpace n)) ∧
      (s.ring.valid = false → n = 0) ∧
      (s.ring.valid = true → s.ring.tail ≤ s.ring.head →
        (n : Int) = max (max ((s.ring.cap : Int) - s.ring.head - s.cfg.par.lenPrefix - (if s.ring.tail = 0 then 1 else 0))
          ((s.ring.tail : Int) - s.cfg.par.lenPrefix - 1)) 0) ∧
      (s.ring.valid = true → s.ring.head < s.ring.tail →
        (n : Int) = max ((s.ring.tail : Int) - s.ring.head - s.cfg.par.lenPrefix - 1) 0)

/-- spec/42_ring_buffer.md R181: the three failures of a push, in the order they are tested; only the third is counted, and none of them
touches storage, head or tail.
Of these the spec marks as its own: R181 (D15). -/
def Obligations.PushFailures : Prop :=
  ∀ (data : List Byte) (s : State), s.env.issuer = .prod →
    (data.length = 0 → exec (.rbPush data) s = .next (s.answer (.push false))) ∧
    (0 < data.length → s.ring.valid = false → exec (.rbPush data) s = .next (s.answer (.push false))) ∧
    (0 < data.length → s.ring.valid = true → freeSpace s.cfg.par.lenPrefix s.ring < data.length →
      exec (.rbPush data) s =
        .next (((s.setRing { s.ring with ovf := (s.ring.ovf + 1) % 2 ^ s.cfg.par.ovfBits }).raise
          (.ringOverflow data.length)).answer (.push false)))

/-- spec/42_ring_buffer.md R180, R182, R183: a push that fits writes the prefix and the payload at head, or at offset 0 behind a sentinel where there
is room for one, changes no other byte of storage, and publishes the head.
Of these the spec marks as its own: R182 (D15). -/
def Obligations.PushStoresFrame : Prop :=
  ∀ (data : List Byte) (s : State), s.Inv → s.env.issuer = .prod → s.ring.valid = true → 0 < data.length →
    data.length ≤ freeSpace s.cfg.par.lenPrefix s.ring →
    let p := s.cfg.par.lenPrefix
    let h := s.ring.head
    let fits := (data.length : Int) ≤ (regions p h s.ring.tail s.ring.cap).1
    let w := if fits then h else 0
    ∃ m : Memory,
      exec (.rbPush data) s =
        .next ((s.setRing { s.ring with mem := m, head := (w + p + data.length) % s.ring.cap }).answer (.push true)) ∧
      m.readBytes w p = leBytes p data.length ∧ m.readBytes (w + p) data.length = data ∧
      (¬ fits → p ≤ s.ring.cap - h → m.readBytes h p = leBytes p 0) ∧
      ∀ a, ¬ (w ≤ a ∧ a < w + p + data.length) → ¬ (¬ fits ∧ p ≤ s.ring.cap - h ∧ h ≤ a ∧ a < h + p) →
        m.read a = s.ring.mem.read a

/-- spec/42_ring_buffer.md R194, R195: on a valid ring a push succeeds iff its size is between 1 and the free space, and the free space never
exceeds `RB_CAP - P - 1`.
Of these the spec marks as its own: R194 (derived), R195 (derived). -/
def Obligations.PushSucceedsIffItFits : Prop :=
  ∀ (data : List Byte) (s : State), s.Inv → s.env.issuer = .prod → s.ring.valid = true →
    ∃ n t ok, exec .rbFreespace s = .next (s.answer (.freeSpace n)) ∧ exec (.rbPush data) s = .next t ∧
      t.env.answers = s.env.answers ++ [Answer.push ok] ∧ (ok = true ↔ 1 ≤ data.length ∧ data.length ≤ n) ∧
      n + s.cfg.par.lenPrefix + 1 ≤ s.ring.cap

/-- spec/42_ring_buffer.md R194 and spec/10_state.md R50 (I3, I6): a push that fits puts its frame behind the frames the ring holds, all of them as
they were, and leaves head and tail apart.
Of these the spec marks as its own: R194 (derived), R50 (derived). -/
def Obligations.PushAppendsFrame : Prop :=
  ∀ (data : List Byte) (s : State) (fs : List (List Byte)), s.Inv → s.env.issuer = .prod → s.ring.valid = true →
    holdsFrames s.cfg.par.lenPrefix s.ring fs = true → 0 < data.length →
    data.length ≤ freeSpace s.cfg.par.lenPrefix s.ring →
    ∃ t, exec (.rbPush data) s = .next t ∧
      holdsFrames s.cfg.par.lenPrefix t.ring (fs ++ [data]) = true ∧ t.ring.head ≠ t.ring.tail

/-- spec/42_ring_buffer.md R186: peek gives the size and the payload of the oldest frame and consumes nothing. -/
def Obligations.PeekShowsOldestFrame : Prop :=
  ∀ s : State, s.Inv → s.env.issuer = .cons →
    (holdsFrames s.cfg.par.lenPrefix s.ring [] = true → exec .rbPeek s = .next (s.answer (.peek 0 none))) ∧
    ∀ f fs, holdsFrames s.cfg.par.lenPrefix s.ring (f :: fs) = true →
      ∃ ptr, exec .rbPeek s = .next (s.answer (.peek f.length (some ptr))) ∧
        s.ring.mem.readBytes ptr f.length = f ∧ ptr + f.length ≤ s.ring.cap

/-- spec/42_ring_buffer.md R189, R190: the four cases of pop, and the tail after a consume.
Of these the spec marks as its own: R190 (D16). -/
def Obligations.PopFourCases : Prop :=
  ∀ s : State, s.Inv → s.env.issuer = .cons → s.env.drain = .idle →
    (holdsFrames s.cfg.par.lenPrefix s.ring [] = true →
      ∀ o k, exec (.rbPop o k) s = .next (s.answer (.pop 0 []))) ∧
    ∀ f fs, holdsFrames s.cfg.par.lenPrefix s.ring (f :: fs) = true →
      exec (.rbPop true 0) s = .next (s.answer (.pop f.length [])) ∧
      ∃ ptr, ringPeek s.cfg.par.lenPrefix s.ring = .next (f.length, some ptr) ∧
        holdsFrames s.cfg.par.lenPrefix { s.ring with tail := (ptr + f.length) % s.ring.cap } fs = true ∧
        (∀ k, 1 ≤ k → exec (.rbPop true k) s =
          .next ((s.setRing { s.ring with tail := (ptr + f.length) % s.ring.cap }).answer
            (.pop (min f.length k) (f.take k)))) ∧
        (∀ k, exec (.rbPop false k) s =
          .next ((s.setRing { s.ring with tail := (ptr + f.length) % s.ring.cap }).answer (.pop 0 [])))

/-- spec/10_state.md R50 (I4, I6): storage, head and tail determine the frames a ring holds.
Of these the spec marks as its own: R50 (derived). -/
def Obligations.FramesAreDetermined : Prop :=
  ∀ (p : Nat) (r : Ring) (fs gs : List (List Byte)),
    holdsFrames p r fs = true → holdsFrames p r gs = true → fs = gs

/-- spec/42_ring_buffer.md R192, spec/20_memory.md R69: the counter is returned and cleared, so the second read gives 0. That read and clear are one
step is the model's choice among those the spec allows (log entry 9).
Of these the spec marks as its own: R192 (D17). -/
def Obligations.OverflowCountReadsAndClears : Prop :=
  ∀ s : State, s.env.issuer = .cons →
    ∃ t, exec .rbOverflowcount s = .next t ∧
      t = (s.setRing { s.ring with ovf := 0 }).answer (.overflowCount s.ring.ovf) ∧
      exec .rbOverflowcount t = .next (t.answer (.overflowCount 0))

/-- spec/42_ring_buffer.md R186, R187 and spec/70_reset_and_hazards.md R357: what a peek found, offset, size and bytes, stays while PROD pushes.
Of these the spec marks as its own: R187 (derived). -/
def Obligations.PeekIsStableUnderPush : Prop :=
  ∀ (data : List Byte) (s t : State) (n ptr : Nat), s.Inv → s.env.issuer = .prod →
    ringPeek s.cfg.par.lenPrefix s.ring = .next (n, some ptr) → exec (.rbPush data) s = .next t →
    ringPeek t.cfg.par.lenPrefix t.ring = .next (n, some ptr) ∧
      t.ring.mem.readBytes ptr n = s.ring.mem.readBytes ptr n

/-- spec/70_reset_and_hazards.md R342: on an uninitialised ring every operation fails safely and a sync match is lost without trace.
Of these the spec marks as its own: R342 (derived). -/
def Obligations.UninitialisedRingFailsSafely : Prop :=
  ∀ s : State, s.Inv → s.ring.valid = false →
    (s.env.issuer = .prod → s.env.enable = true →
      ∀ bit, ∃ t, exec (.processBit bit) s = .next t ∧ t.ring = s.ring ∧ t.env = s.env ∧ t.cons = s.cons) ∧
    (s.env.issuer = .prod → ∀ data, exec (.rbPush data) s = .next (s.answer (.push false))) ∧
    (s.env.issuer = .cons →
      exec .rbFreespace s = .next (s.answer (.freeSpace 0)) ∧
      exec .rbPeek s = .next (s.answer (.peek 0 none)) ∧
      exec .rbOverflowcount s = .next (s.answer (.overflowCount 0)) ∧
      (s.env.drain = .idle →
        (∀ o k, exec (.rbPop o k) s = .next (s.answer (.pop 0 []))) ∧
        exec .processMessages s = .next (s.setEnv { s.env with started := true })))

/-- spec/10_state.md R50 (I1, I2, I3, I6, I7): the ring's invariants, kept by every step.
Of these the spec marks as its own: R50 (derived). -/
def Obligations.RingInvariantsKept : Prop :=
  ∀ s t : State, s.Inv → step s = .next t → t.ring.valid = true →
    t.cfg.par.lenPrefix < t.ring.cap ∧ t.ring.cap ≤ 2 ^ (8 * t.cfg.par.lenPrefix) ∧
    t.ring.head < t.ring.cap ∧ t.ring.tail < t.ring.cap ∧
    (∃ fs, holdsFrames t.cfg.par.lenPrefix t.ring fs = true ∧ (t.ring.head = t.ring.tail ↔ fs = [])) ∧
    ∀ n ptr, ringPeek t.cfg.par.lenPrefix t.ring = .next (n, some ptr) → 0 < n ∧ ptr + n ≤ t.ring.cap

/-! ## The CRC engines -/

/-- spec/43_crc_engines.md R211, R214, R215, R219: the two engines complete in every state and for every agent, and their register is the one of the
eight-step shift network over the bits in wire order.
Of these the spec marks as its own: R211 (D18, derived, from general knowledge), R214 (D18, from general knowledge), R215 (D18, from general knowledge), R219 (derived). -/
def Obligations.CrcEnginesAreShiftNetworks : Prop :=
  ∀ (data : List Byte) (s : State),
    (let c := crcSerial s.cfg.par.bch.poly s.cfg.par.bch.init data
     exec (.crcBch data) s = .next (s.answer (.crc c (decide (c = s.cfg.par.bch.residual))))) ∧
    (let c := crcSerial s.cfg.par.ccitt.poly s.cfg.par.ccitt.init data
     exec (.crcCcitt data) s = .next (s.answer (.crc c (decide (c = s.cfg.par.ccitt.residual)))))

/-- spec/43_crc_engines.md R218, R217: a single flipped bit inside the check range always changes the register, so an accepted range with one flipped
bit is rejected, for every polynomial with more than one term.
Of these the spec marks as its own: R218 (derived). -/
def Obligations.SingleBitFlipIsRejected : Prop :=
  ∀ (p : CrcParams) (data : List Byte) (k : Nat), p.poly ≠ 0 → k < 8 * data.length →
    crcOf p (flipWireBit data k) ≠ crcOf p data ∧
    (crcOk p (crcOf p data) = true → crcOk p (crcOf p (flipWireBit data k)) = false)

/-- spec/43_crc_engines.md R214, R215 and spec/30_encoding.md R112: after its own register value the register is 0 for every polynomial; after the complement of
its register value it is a constant of the polynomial, which is `0x1D0F` for `0x1021`.
Of these the spec marks as its own: R214 (D18, from general knowledge), R215 (D18, from general knowledge), R112 (D18, from general knowledge). -/
def Obligations.CrcFieldGivesResidual : Prop :=
  (∀ (poly c : Half) (data : List Byte),
    crcRun poly c (data ++ halfBytes (crcRun poly c data)) = 0 ∧
    crcRun poly c (data ++ halfBytes (~~~ crcRun poly c data)) = crcRun poly 0 [0xFF, 0xFF]) ∧
  crcRun 0x1021 0 [0xFF, 0xFF] = 0x1D0F

/-! ## The field extractor -/

/-- spec/44_field_extractor.md R230, R232: the value as a sum, zero-extended, on every request inside the domain; a refusal outside it. -/
def Obligations.ExtractBitsValue : Prop :=
  ∀ (buf : List Byte) (off len : Nat) (s : State),
    (1 ≤ len ∧ len ≤ 32 ∧ off + len ≤ 8 * buf.length →
      ∃ v : Word, exec (.extractBits buf off len) s = .next (s.answer (.extract v)) ∧
        v.toNat = ∑ i ∈ Finset.range len, (wireBit (byteAt buf) (off + i)).toNat * 2 ^ (len - 1 - i) ∧
        v.toNat < 2 ^ len) ∧
    (¬ (1 ≤ len ∧ len ≤ 32 ∧ off + len ≤ 8 * buf.length) →
      exec (.extractBits buf off len) s = .refused .extractDomain)

/-- spec/44_field_extractor.md R231: the bytewise form, over one to five bytes and an accumulator of at most 40 bits.
Of these the spec marks as its own: R231 (derived). -/
def Obligations.ExtractBitsBytewise : Prop :=
  ∀ (buf : List Byte) (off len : Nat) (s : State), 1 ≤ len → len ≤ 32 → off + len ≤ 8 * buf.length →
    let sh := off % 8
    let nb := (sh + len + 7) / 8
    let acc := beNat (byteAt buf) (off / 8) nb
    1 ≤ nb ∧ nb ≤ 5 ∧ acc < 2 ^ 40 ∧
    ∃ v : Word, exec (.extractBits buf off len) s = .next (s.answer (.extract v)) ∧
      v.toNat = acc / 2 ^ (8 * nb - sh - len) % 2 ^ len

/-- spec/44_field_extractor.md R233: byte-aligned requests are the big-endian fields.
Of these the spec marks as its own: R233 (derived). -/
def Obligations.ExtractBitsByteAligned : Prop :=
  ∀ (buf : List Byte) (i : Nat),
    (i + 1 ≤ buf.length → extractBits buf (8 * i) 8 = some (BitVec.ofNat 32 (num buf i))) ∧
    (i + 2 ≤ buf.length → extractBits buf (8 * i) 16 = some (BitVec.ofNat 32 (be16 buf i))) ∧
    (i + 3 ≤ buf.length → extractBits buf (8 * i) 24 = some (BitVec.ofNat 32 (be24 buf i))) ∧
    (i + 4 ≤ buf.length → extractBits buf (8 * i) 32 = some (BitVec.ofNat 32 (be32 buf i)))

/-- spec/44_field_extractor.md R234: (a) the split law; (b) the shift law under realignment; (c) the SHORT fields by the default layout as requests.
Of these the spec marks as its own: R234 (derived). -/
def Obligations.ExtractBitsLaws : Prop :=
  (∀ (buf : List Byte) (o a b : Nat), 1 ≤ a → 1 ≤ b → a + b ≤ 32 → o + a + b ≤ 8 * buf.length →
    ∃ v x y : Word, extractBits buf o (a + b) = some v ∧ extractBits buf o a = some x ∧
      extractBits buf (o + a) b = some y ∧ v.toNat = x.toNat * 2 ^ b + y.toNat) ∧
  (∀ (buf : List Byte) (sh o len : Nat), sh ≤ 7 → 1 ≤ len → len ≤ 32 → o + sh + len ≤ 8 * buf.length →
    extractBits (realign buf sh) o len = extractBits buf (o + sh) len) ∧
  (∀ m : List Byte, m.length = lenShort →
    let r := shortRecord defaultShortLayout m
    (∃ hi lo : Word, extractBits m 21 2 = some hi ∧ extractBits m 56 24 = some lo ∧
      r.id.toNat = hi.toNat * 2 ^ 24 + lo.toNat) ∧
    extractBits m 23 1 = some (r.rsv.setWidth 32) ∧ extractBits m 24 2 = some (r.tamperPhy.setWidth 32) ∧
    extractBits m 26 4 = some (r.ertType.setWidth 32) ∧ extractBits m 30 2 = some (r.tamperEnc.setWidth 32) ∧
    extractBits m 32 24 = some (r.consumption.setWidth 32) ∧ extractBits m 80 16 = some (r.crc.setWidth 32))

/-! ## The parsers -/

/-- spec/45_parsers.md R245, R270, R274, R276: the gate that the three parsers share. On the accept residual exactly the record register of the type is
replaced and, if a callback is registered, one event is emitted; on any other residual only `CRC_FAIL` is raised. A longer list is truncated,
a shorter one refused.
Of these the spec marks as its own: R270 (D36), R274 (D27), R276 (D26). -/
def Obligations.ParsersAreGatedByCrc : Prop :=
  ∀ (m : List Byte) (s : State), s.env.issuer = .cons →
    let p := s.cfg.par
    let accept := fun (tag : Byte) (r : Record) (msg : List Byte) =>
      (((s.setCons (storeRecord r s.cons)).emit tag r msg).answer (.accepted true))
    let reject := fun (tag : Byte) (c : Half) => (s.raise (.crcFail tag c)).answer (.accepted false)
    (let msg := m.take lenShort
     let c := crcOf p.bch (checkRange p.rangeShort msg)
     (m.length < lenShort → exec (.parseShort m) s = .refused .messageTooShort) ∧
     (lenShort ≤ m.length → exec (.parseShort m) s = .next
       (if c = p.bch.residual then accept p.tagShort (.short (shortRecord p.short msg)) msg else reject p.tagShort c))) ∧
    (let msg := m.take lenExt
     let c := crcOf p.ccitt (checkRange p.rangeExt msg)
     (m.length < lenExt → exec (.parseExt m) s = .refused .messageTooShort) ∧
     (lenExt ≤ m.length → exec (.parseExt m) s = .next
       (if c = p.ccitt.residual then accept p.tagExt (.ext (extRecord msg)) msg else reject p.tagExt c))) ∧
    (let msg := m.take lenLong
     let c := crcOf p.ccitt (checkRange p.rangeLong msg)
     (m.length < lenLong → exec (.parseLong m) s = .refused .messageTooShort) ∧
     (lenLong ≤ m.length → exec (.parseLong m) s = .next
       (if c = p.ccitt.residual then accept p.tagLong (.long (longRecord p msg)) msg else reject p.tagLong c)))

/-- spec/45_parsers.md R246 and spec/30_encoding.md R102, R103: `PARSE_SHORT` with the default parameters. -/
def Obligations.ParseShortFields : Prop :=
  ∀ (m : List Byte) (s : State), s.env.issuer = .cons → m.length = 12 →
    s.cfg.par.short = defaultShortLayout → s.cfg.par.bch = ⟨0x6F63, 0x0000, 0x0000⟩ → s.cfg.par.rangeShort = ⟨2, 11⟩ →
    (crcRun 0x6F63 0 (m.drop 2) = 0 →
      ∃ r : ShortRecord,
        exec (.parseShort m) s =
          .next (((s.setCons { s.cons with recShort := r }).emit s.cfg.par.tagShort (.short r) m).answer (.accepted true)) ∧
        r.id.toNat = num m 2 / 2 % 4 * 2 ^ 24 + be24 m 7 ∧ r.rsv.toNat = num m 2 % 2 ∧
        r.tamperPhy.toNat = num m 3 / 64 ∧ r.ertType.toNat = num m 3 / 4 % 16 ∧ r.tamperEnc.toNat = num m 3 % 4 ∧
        r.consumption.toNat = be24 m 4 ∧ r.crc.toNat = be16 m 10) ∧
    (crcRun 0x6F63 0 (m.drop 2) ≠ 0 →
      exec (.parseShort m) s =
        .next ((s.raise (.crcFail s.cfg.par.tagShort (crcRun 0x6F63 0 (m.drop 2)))).answer (.accepted false)))

/-- spec/45_parsers.md R250 and spec/30_encoding.md R104: `PARSE_EXT` with the default parameters. -/
def Obligations.ParseExtFields : Prop :=
  ∀ (m : List Byte) (s : State), s.env.issuer = .cons → m.length = 16 →
    s.cfg.par.ccitt = ⟨0x1021, 0xFFFF, 0x1D0F⟩ → s.cfg.par.rangeExt = ⟨2, 15⟩ →
    (crcRun 0x1021 0xFFFF (m.drop 2) = 0x1D0F →
      ∃ r : ExtRecord,
        exec (.parseExt m) s =
          .next (((s.setCons { s.cons with recExt := r }).emit s.cfg.par.tagExt (.ext r) m).answer (.accepted true)) ∧
        r.sync.toNat = be16 m 0 ∧ r.protocolId.toNat = num m 2 ∧ r.endpointType.toNat = num m 3 ∧
        r.endpointId.toNat = be32 m 4 ∧ r.consumption.toNat = be32 m 8 ∧ r.tamper.toNat = be16 m 12 ∧
        r.crc.toNat = be16 m 14) ∧
    (crcRun 0x1021 0xFFFF (m.drop 2) ≠ 0x1D0F →
      exec (.parseExt m) s =
        .next ((s.raise (.crcFail s.cfg.par.tagExt (crcRun 0x1021 0xFFFF (m.drop 2)))).answer (.accepted false)))

/-- spec/45_parsers.md R255, R256, R258, R268: `PARSE_LONG` of an accepted message whose sub-type code is outside the configured set, with the
default layout: header, shape A body, trailer. -/
def Obligations.ParseLongShapeA : Prop :=
  ∀ (m : List Byte) (s : State), s.env.issuer = .cons → m.length = 92 →
    s.cfg.par.longA = defaultLongALayout → s.cfg.par.ccitt = ⟨0x1021, 0xFFFF, 0x1D0F⟩ → s.cfg.par.rangeLong = ⟨4, 91⟩ →
    crcRun 0x1021 0xFFFF (m.drop 4) = 0x1D0F → byteAt m 8 ∉ s.cfg.par.subtypeB →
    ∃ (r : LongRecord) (x : LongA),
      exec (.parseLong m) s =
        .next (((s.setCons { s.cons with recLong := r }).emit s.cfg.par.tagLong (.long r) m).answer (.accepted true)) ∧
      r.preamble.toNat = be32 m 0 ∧ r.packetType = byteAt m 4 ∧ r.packetLength = byteAt m 5 ∧
      r.hammingCode = byteAt m 6 ∧ r.appVersion = byteAt m 7 ∧ r.subtype = byteAt m 8 ∧ r.serial.toNat = be32 m 9 ∧
      r.intervalCount = byteAt m 13 ∧ r.shape = .a x ∧
      x.moduleState = byteAt m 14 ∧ x.tamperCounters = (m.drop 15).take 6 ∧ x.asyncCounter.toNat = be16 m 21 ∧
      x.powerOutageFlags = (m.drop 23).take 6 ∧ x.lastConsumption.toNat = be32 m 29 ∧ x.delta.length = 47 ∧
      (∀ i, i < 47 → extractBits m (264 + 9 * i) 9 = some ((x.delta.getD i 0).setWidth 32)) ∧
      r.txTimeOffset.toNat = be16 m 86 ∧ r.serialCrc.toNat = be16 m 88 ∧ r.packetCrc.toNat = be16 m 90

/-- spec/45_parsers.md R257, R260, R262, R266: an accepted message is of shape B iff its sub-type code is in the configured set, and then its body is
read at the configured layout, the three-byte fields big-endian from three different bytes.
Of these the spec marks as its own: R257 (D23), R260 (D22). -/
def Obligations.ParseLongShapeB : Prop :=
  ∀ (m : List Byte) (s : State), s.env.issuer = .cons → m.length = 92 →
    crcOf s.cfg.par.ccitt (checkRange s.cfg.par.rangeLong m) = s.cfg.par.ccitt.residual →
    let l := s.cfg.par.longB
    ∃ (t : State), exec (.parseLong m) s = .next t ∧
      (byteAt m s.cfg.par.longA.subtype ∉ s.cfg.par.subtypeB → ∃ x, t.cons.recLong.shape = .a x) ∧
      (byteAt m s.cfg.par.longA.subtype ∈ s.cfg.par.subtypeB → ∃ x, t.cons.recLong.shape = .b x ∧
        x.unknown = (m.drop l.unknownOff).take 4 ∧ x.lastConsumption.toNat = beNat (byteAt m) l.lastOff l.lastLen ∧
        x.excess.toNat = be24 m l.excessOff ∧ x.residual.toNat = be24 m l.residualOff ∧
        x.hiresConsumption.toNat = beNat (byteAt m) l.hiresOff l.hiresLen ∧ x.delta.length = 27 ∧
        ∀ i, i < 27 → extractBits m (l.deltaBit + 14 * i) 14 = some ((x.delta.getD i 0).setWidth 32))

/-- spec/45_parsers.md R264: every extractor request of `PARSE_LONG` lies inside the message, for every configuration.
Of these the spec marks as its own: R264 (derived). -/
def Obligations.LongRequestsAreInDomain : Prop :=
  ∀ (c : Cfg) (m : List Byte), m.length = 92 →
    (∀ i, i < 47 → extractInDomain m (c.par.longA.deltaBit + 9 * i) 9 = true) ∧
    ∀ i, i < 27 → extractInDomain m (c.par.longB.deltaBit + 14 * i) 14 = true ∧ c.par.longB.deltaBit + 14 * i + 14 ≤ 688

/-! ## Dispatch -/

/-- spec/46_dispatch.md R282: `REALIGN` in wire bits: a left shift of the whole list, with zeros carried in at the end.
Of these the spec marks as its own: R282 (D25). -/
def Obligations.RealignShiftsWireBits : Prop :=
  ∀ (l : List Byte) (o : Nat), o ≤ 7 →
    (realign l o).length = l.length ∧ realign l 0 = l ∧
    ∀ k, k < 8 * l.length →
      wireBit (byteAt (realign l o)) k = if k + o < 8 * l.length then wireBit (byteAt l) (k + o) else false

/-- spec/46_dispatch.md R284, R286 and spec/30_encoding.md R98: the arms of `DISPATCH` for the three known tags (log entry 7: the model's choice of what the
TAG8 rows do as steps of their own).
Of these the spec marks as its own: R286 (D26), R98 (D9). -/
def Obligations.KnownTagDispatch : Prop :=
  ∀ (s : State) (n : Nat) (i : Instr) (tag : Byte) (len : Nat) (parse : List Byte → State → State × Bool),
    s.env.issuer = .cons →
    (i, tag, len) ∈ [(Instr.tagShort n, s.cfg.par.tagShort, 12), (Instr.tagExt n, s.cfg.par.tagExt, 16),
      (Instr.tagLong n, s.cfg.par.tagLong, 92)] →
    parse = (if len = 12 then parseShort else if len = 16 then parseExt else parseLong) →
    (n < 6 + len + 1 ∨ 7 < (s.cons.stg.read 5).toNat → exec i s = .next (s.raise (.unknownType tag))) ∧
    (6 + len + 1 ≤ n → (s.cons.stg.read 5).toNat ≤ 7 →
      ∃ stg : Memory,
        (∀ a, stg.read a = if 6 ≤ a ∧ a < 6 + len + 1 then
          byteAt (realign (s.cons.stg.readBytes 6 (len + 1)) (s.cons.stg.read 5).toNat) (a - 6) else s.cons.stg.read a) ∧
        exec i s = .next (parse (stagedMessage len s) (s.setStg stg)).1)

/-- spec/46_dispatch.md R286 and spec/30_encoding.md R98: a tag outside the three known ones, `TAG_NONE` among them, raises `UNKNOWN_TYPE` with the tag byte and does
nothing else.
Of these the spec marks as its own: R286 (D26), R98 (D9). -/
def Obligations.UnknownTagDispatch : Prop :=
  (∀ (s : State) (n : Nat), s.env.issuer = .cons →
    exec (.tagNone n) s = .next (s.raise (.unknownType s.cfg.par.tagNone))) ∧
  ∀ (s : State) (n : Nat) (tag : Byte), tag ∉ [s.cfg.par.tagShort, s.cfg.par.tagExt, s.cfg.par.tagLong] →
    dispatchTag tag n s = .next (s.raise (.unknownType tag))

/-- spec/46_dispatch.md R284, R285, R296: a call to `PROCESS_MESSAGES` takes its first peek: an empty ring ends the drain at once, else the oldest
frame is the next to be dispatched. That the call's further steps are steps of their own is the model's granularity (log entry 8).
Of these the spec marks as its own: R285 (D34). -/
def Obligations.ProcessMessagesFirstPeek : Prop :=
  ∀ s : State, s.Inv → s.env.issuer = .cons → s.env.drain = .idle →
    (holdsFrames s.cfg.par.lenPrefix s.ring [] = true →
      exec .processMessages s = .next (s.setEnv { s.env with started := true })) ∧
    ∀ f fs, holdsFrames s.cfg.par.lenPrefix s.ring (f :: fs) = true →
      ∃ ptr, exec .processMessages s =
          .next (s.setEnv { s.env with started := true, drain := .dispatch f.length ptr }) ∧
        s.ring.mem.readBytes ptr f.length = f

/-- spec/46_dispatch.md R285, R288: inside a drain the dispatch step delivers the oldest frame while it is still in the ring, and the pop that follows
removes exactly it.
Of these the spec marks as its own: R285 (D34), R288 (derived). -/
def Obligations.DrainStepsDeliverThenPop : Prop :=
  ∀ (s : State) (f : List Byte) (fs : List (List Byte)), s.Inv →
    holdsFrames s.cfg.par.lenPrefix s.ring (f :: fs) = true →
    (∀ n ptr, s.env.drain = .dispatch n ptr →
      ∃ u, deliver f s = .next u ∧ u.ring = s.ring ∧ drainStep s = .next (u.setDrain .pop)) ∧
    (s.env.drain = .pop →
      ∃ r, r = { s.ring with tail := r.tail } ∧ holdsFrames s.cfg.par.lenPrefix r fs = true ∧
        drainStep s = .next ((s.setRing r).setDrain .peek))

/-- spec/46_dispatch.md R284, R285: the whole drain. With nothing else in the inbox, the call and `3 * n` further steps deliver the `n` frames of the
ring in FIFO order, leave the ring empty and end the drain. The inbox and the cut into steps are the model's (log entries 1 and 8).
Of these the spec marks as its own: R285 (D34). -/
def Obligations.DrainDeliversEveryFrame : Prop :=
  ∀ (s : State) (fs : List (List Byte)), s.Inv → s.env.drain = .idle →
    s.env.inbox = [.port .cons .op4 (encode .processMessages)] → holdsFrames s.cfg.par.lenPrefix s.ring fs = true →
    ∃ u, deliverAll fs (s.setEnv { s.env with inbox := [], issuer := .cons, started := true }) = .next u ∧
      Sys2Proof.core.run (1 + 3 * fs.length) s = .next (u.setRing { s.ring with tail := s.ring.head })

/-- spec/46_dispatch.md R292, R293: registration replaces the handle and sets `CB_VALID`, for CONS always and for HOST before the first
`PROCESS_MESSAGES`.
Of these the spec marks as its own: R293 (D27). -/
def Obligations.RegisterCallbackReplaces : Prop :=
  ∀ (handle : Nat) (s : State),
    (s.env.issuer = .cons ∨ (s.env.issuer = .host ∧ s.env.started = false) →
      exec (.registerCallback handle) s = .next (s.setCons { s.cons with cbHandle := handle, cbValid := true })) ∧
    (¬ (s.env.issuer = .cons ∨ (s.env.issuer = .host ∧ s.env.started = false)) →
      exec (.registerCallback handle) s = .refused (.wrongAgent s.env.issuer))

/-! ## Encoding and the step -/

/-- Words of every format written out by hand from spec/opcode_table.json, with the transaction layout that is the model's choice (log entry 2). The
compare words are those of spec/41_sync_detector.md R150, from general knowledge (log entry 19), and the ordinals and tags the spec's own
decisions (D1, D9).
Of these the spec marks as its own: R150 (from general knowledge). -/
def Obligations.SampleTransactionsDecode : Prop :=
  decode .op4 [0x00, 0x01] = .ok (.processBit true, []) ∧
  decode .op4 [0x02, 0x01, 0x10, 0, 0, 0, 0, 0, 0, 0] = .ok (.rbInit true 16, []) ∧
  decode .op4 [0x04, 0x02, 0, 0, 0, 0, 0, 0, 0, 0xB1, 0xB2] = .ok (.rbPush [0xB1, 0xB2], []) ∧
  decode .op4 [0x0E] = .ok (.processMessages, []) ∧
  decode .op4 [0x00, 0x02] = .error .badSample ∧
  decode .sync32 [0x55, 0x55, 0x16, 0xA3] = .ok (.syncLong, []) ∧
  decode .sync32 [0xF9, 0x53, 0x02, 0x4E] = .ok (.syncShort, []) ∧
  decode .tag8 [0x02, 0x17, 0, 0, 0, 0, 0, 0, 0] = .ok (.tagExt 23, []) ∧
  decode .tag8 [0x04, 0x17, 0, 0, 0, 0, 0, 0, 0] = .error .noTag

/-- spec/30_encoding.md R93, R94: a compare word decodes to the first row of format SYNC32 whose compared bits it has; the don't-care bits do not matter.
The three compared values are those of spec/41_sync_detector.md R150, from general knowledge (log entry 19); that the word stands in the
transaction as four bytes in wire order is the model's choice (log entry 2).
Of these the spec marks as its own: R93 (D6), R94 (derived). -/
def Obligations.SyncWordsDecodeByMask : Prop :=
  ∀ (a b c d : Byte) (rest : List Byte),
    let w := num [a, b, c, d] 0 * 2 ^ 24 + num [a, b, c, d] 1 * 2 ^ 16 + num [a, b, c, d] 2 * 2 ^ 8 + num [a, b, c, d] 3
    decode .sync32 (a :: b :: c :: d :: rest) =
      if w = 0x555516A3 then .ok (.syncLong, rest)
      else if w / 2 ^ 16 = 0x16A3 then .ok (.syncExt, rest)
      else if w / 2 ^ 11 = 0x1F2A60 then .ok (.syncShort, rest)
      else .error .noSyncEntry

/-- Decoding undoes encoding, for every well-formed instruction, with every operand at every value, whatever follows (spec/30_encoding.md R90, R116; the layout
of operands is the model's, log entry 2).
Of these the spec marks as its own: R90 (D1), R116 (derived). -/
def Obligations.DecodeEncodeRoundTrip : Prop :=
  ∀ (i : Instr) (rest : List Byte), i.wf = true → decode i.format (encode i ++ rest) = .ok (i, rest)

/-- A step with a transaction at the head of the inbox runs the instruction its bytes decode to, in the name of its agent, with the transaction taken off
the inbox and nothing else changed (spec/00_scope.md R15, spec/60_exceptions.md R324; the inbox is the model's, log entry 1).
Of these the spec marks as its own: R15 (D1), R324 (D31). -/
def Obligations.StepRunsDecodedInstruction : Prop :=
  ∀ (s : State) (a : Agent) (f : Format) (bytes rest : List Byte) (inbox : List Event) (i : Instr),
    s.env.inbox = .port a f bytes :: inbox → decode f bytes = .ok (i, rest) →
    step s = exec i (s.setEnv { s.env with inbox := inbox, issuer := a })

/-- The inputs of a run that are no transactions (spec/70_reset_and_hazards.md R366): the pins, a CONS step, and the empty inbox (log entries 1 and 8).
Of these the spec marks as its own: R366 (D38). -/
def Obligations.StepServesOtherInputs : Prop :=
  ∀ (s : State) (inbox : List Event),
    (∀ v, s.env.inbox = .enable v :: inbox →
      step s = .next (s.setEnv { s.env with inbox := inbox, enable := v })) ∧
    (∀ v, s.env.inbox = .now v :: inbox → step s = .next (s.setEnv { s.env with inbox := inbox, now := v })) ∧
    (s.env.inbox = .consStep :: inbox → step s = drainStep (s.setInbox inbox)) ∧
    (s.env.inbox = [] → step s = drainStep s) ∧
    (s.env.inbox = [] → s.env.drain = .idle → step s = .next s)

/-! ## Reset -/

/-- spec/70_reset_and_hazards.md R340 and spec/10_state.md R49, the values the spec states: of the machine right after reset and of the machine after a HOST
reset; no parameter changes.
Of these the spec marks as its own: R340 (D29), R49 (D29). -/
def Obligations.ResetGivesStatedValues : Prop :=
  (∀ s t : State, (t = State.reset ∨ hostReset s = .next t) →
    t.dec.prev = false ∧ t.dec.phase = false ∧ t.dec.cur = 0 ∧
    (∀ b a, (t.dec.db b).read a = 0) ∧
    t.ring.valid = false ∧ t.ring.cap = 0 ∧ t.ring.head = 0 ∧ t.ring.tail = 0 ∧ t.ring.ovf = 0 ∧
    t.cons.cbValid = false) ∧
  ∀ (s : State) (inbox : List Event), s.env.inbox = .reset :: inbox → s.env.drain = .idle →
    ∃ t, step s = .next t ∧ hostReset (s.setInbox inbox) = .next t ∧ t.cfg = s.cfg

/-- spec/70_reset_and_hazards.md R345, spec/46_dispatch.md R291 (spec/93_implementation_defined.md U6, U9): while a drain is in progress HOST may neither reset nor initialise the ring,
and CONS may neither pop nor start another drain.
Of these the spec marks as its own: R345 (derived), R291 (derived). -/
def Obligations.BusyMachineRefuses : Prop :=
  ∀ s : State, s.env.drain ≠ .idle →
    hostReset s = .refused .notQuiescent ∧
    (s.env.issuer = .host → ∀ present capacity, exec (.rbInit present capacity) s = .refused .notQuiescent) ∧
    (s.env.issuer = .cons → ∀ o k, exec (.rbPop o k) s = .refused .reentrantCall) ∧
    (s.env.issuer = .cons → exec .processMessages s = .refused .reentrantCall)

/-! ## Whole-machine rules -/

/-- The invariant at reset. That the unspecified registers hold zero there is the model's choice (log entry 5). -/
def Obligations.InvariantAtReset : Prop := State.reset.Inv

/-- The invariant of the machine (spec/10_state.md R31, R32, R50; spec/46_dispatch.md R288; the canonical form of memories is the model's): kept by every step of every
agent from every state that meets it.
Of these the spec marks as its own: R31 (D4, D29), R32 (derived), R50 (derived), R288 (derived). -/
def Obligations.InvariantKeptByEveryStep : Prop :=
  ∀ s t : State, s.Inv → step s = .next t → t.Inv

/-- spec/00_scope.md R13 and spec/93_implementation_defined.md U3: from a state that meets the invariant no step ends in a fault, whatever the input.
Of these the spec marks as its own: R13 (D37). -/
def Obligations.NoStepFaults : Prop :=
  ∀ s : State, s.Inv → NoFault (step s)

/-- spec/10_state.md R51: which agent may write which state. The exception for HOST's early registration is spec/46_dispatch.md R292's. -/
def Obligations.OwnershipOfState : Prop :=
  (∀ (i : Instr) (s t : State), exec i s = .next t →
    (s.env.issuer = .prod →
      t.cons = s.cons ∧ t.ring.valid = s.ring.valid ∧ t.ring.cap = s.ring.cap ∧ t.ring.tail = s.ring.tail ∧
      (t.ring.ovf = s.ring.ovf ∨ t.ring.ovf = (s.ring.ovf + 1) % 2 ^ s.cfg.par.ovfBits)) ∧
    (s.env.issuer = .cons →
      t.dec = s.dec ∧ t.ring.valid = s.ring.valid ∧ t.ring.cap = s.ring.cap ∧ t.ring.head = s.ring.head ∧
      t.ring.mem = s.ring.mem ∧ (t.ring.ovf = s.ring.ovf ∨ t.ring.ovf = 0)) ∧
    (s.env.issuer = .host →
      t.dec = s.dec ∧ t.cons.stg = s.cons.stg ∧ t.cons.recShort = s.cons.recShort ∧
      t.cons.recExt = s.cons.recExt ∧ t.cons.recLong = s.cons.recLong ∧
      ((∀ handle, i ≠ .registerCallback handle) → t.cons = s.cons) ∧
      ((∀ present capacity, i ≠ .rbInit present capacity) → t.ring = s.ring))) ∧
  ∀ s t : State, drainStep s = .next t →
    t.dec = s.dec ∧ t.ring = { s.ring with tail := t.ring.tail }

/-- spec/60_exceptions.md R324 with R320, spec/30_encoding.md R90 and spec/46_dispatch.md R292: an operation issued by an agent that may not issue it is refused, whatever
its operands and the state.
Of these the spec marks as its own: R324 (D31), R90 (D1). -/
def Obligations.WrongAgentIsRefused : Prop :=
  ∀ (i : Instr) (s : State), s.env.issuer ∉ mayIssue s.env.started i →
    exec i s = .refused (.wrongAgent s.env.issuer)

/-- spec/60_exceptions.md R303 (for `DIAG`), spec/10_state.md R43, R48: nothing the machine does depends on what stands on its output ports; a step appends to each of
them the same events whatever it held before.
Of these the spec marks as its own: R303 (D30), R43 (derived), R48 (D27). -/
def Obligations.OutputsAreWriteOnly : Prop :=
  ∀ (s : State) (cb : List CbEvent) (diag : List Condition) (answers : List Answer),
    match step s with
    | .next t => ∃ cb' diag' answers', t.env.cbOut = s.env.cbOut ++ cb' ∧ t.env.diag = s.env.diag ++ diag' ∧
        t.env.answers = s.env.answers ++ answers' ∧
        step (s.withOutputs cb diag answers) =
          .next (t.withOutputs (cb ++ cb') (diag ++ diag') (answers ++ answers'))
    | .fault r => step (s.withOutputs cb diag answers) = .fault r
    | .refused r => step (s.withOutputs cb diag answers) = .refused r

/-- spec/10_state.md R39 and spec/20_memory.md R78: no step writes a parameter.
Of these the spec marks as its own: R78 (D1). -/
def Obligations.ConfigurationIsConstant : Prop :=
  ∀ s t : State, step s = .next t → t.cfg = s.cfg

/-- spec/00_scope.md R7 and spec/93_implementation_defined.md U11: a configuration meets the constraints of the parameter table: the sync entries
in their order and inside the window, distinct tags, the prefix size, the residuals, the check ranges, and layouts whose fields lie inside the
message and do not overlap. The default values in the table are the spec's own decisions (D4 to D23); how the
model reads the order of the entries, the residuals and the overlaps is log entry 24; that nothing more is asked of the entries, the layouts and the
other parameters is the model's choice (log entries 25 to 29). -/
def Obligations.ConfigurationMeetsConstraints : Prop :=
  ∀ c : Cfg,
    let p := c.par
    let apart := fun f g : Nat × Nat => f.1 + f.2 ≤ g.1 ∨ g.1 + g.2 ≤ f.1
    (∀ e ∈ [p.syncLong, p.syncExt, p.syncShort], 4 ≤ e.len ∧ e.pos + 8 * e.len ≤ p.wBits) ∧
    p.syncLong.tag = p.tagLong ∧ p.syncExt.tag = p.tagExt ∧ p.syncShort.tag = p.tagShort ∧
    [p.tagNone, p.tagShort, p.tagExt, p.tagLong].Nodup ∧ p.lenPrefix ∈ [1, 2, 4] ∧
    p.bch.residual = 0 ∧ p.ccitt.residual ≠ 0 ∧
    p.rangeShort.last < 12 ∧ p.rangeExt.last < 16 ∧ p.rangeLong.last < 92 ∧
    (∀ f ∈ p.short.fields, f.1 + f.2 ≤ 96) ∧ p.short.fields.Pairwise apart ∧
    (∀ f ∈ p.longA.common ++ p.longA.body, f.1 + f.2 ≤ 736) ∧ (p.longA.common ++ p.longA.body).Pairwise apart ∧
    (∀ f ∈ p.longB.fields, 112 ≤ f.1 ∧ f.1 + f.2 ≤ 688) ∧ (p.longA.common ++ p.longB.fields).Pairwise apart
end

