-- ==== Sys2Proof/Laws/Config.lean ====
section
/-! SUPPORT. What a configuration guarantees (spec/00_scope.md R7), one lemma per constraint, so that no proof unfolds the checks. -/

namespace Sys2Proof

theorem SyncEntry.ok_iff {w : Nat} {e : SyncEntry} : e.ok w = true ↔ 4 ≤ e.len ∧ e.pos + 8 * e.len ≤ w := by
  simp [SyncEntry.ok]

theorem ByteRange.ok_iff {n : Nat} {r : ByteRange} : r.ok n = true ↔ r.first ≤ r.last ∧ r.last < n := by simp [ByteRange.ok]

theorem disjointFields_iff {a b : Nat × Nat} : disjointFields a b = true ↔ a.1 + a.2 ≤ b.1 ∨ b.1 + b.2 ≤ a.1 := by
  simp [disjointFields]

theorem pairwiseDisjoint_iff {l : List (Nat × Nat)} :
    pairwiseDisjoint l = true ↔ l.Pairwise fun a b => a.1 + a.2 ≤ b.1 ∨ b.1 + b.2 ≤ a.1 := by
  induction l with
  | nil => simp [pairwiseDisjoint]
  | cons a r ih => simp [pairwiseDisjoint, disjointFields_iff, ih]

theorem layoutOk_iff {x y : Nat} {l : List (Nat × Nat)} :
    layoutOk x y l = true ↔ (∀ f ∈ l, x ≤ f.1 ∧ f.1 + f.2 ≤ y) ∧ l.Pairwise fun a b => a.1 + a.2 ≤ b.1 ∨ b.1 + b.2 ≤ a.1 := by
  simp only [layoutOk, Bool.and_eq_true, pairwiseDisjoint_iff, List.all_eq_true, decide_eq_true_eq]

theorem bodyClear_iff {a : LongALayout} {b : LongBLayout} :
    bodyClear a b = true ↔ ∀ f ∈ a.common, ∀ g ∈ b.fields, f.1 + f.2 ≤ g.1 ∨ g.1 + g.2 ≤ f.1 := by
  simp only [bodyClear, List.all_eq_true, disjointFields_iff]

/-- What `Params.ok` says, part by part. -/
theorem Params.ok_iff {p : Params} : p.ok = true ↔
    p.syncOk = true ∧ p.tagsOk = true ∧ (p.lenPrefix = 1 ∨ p.lenPrefix = 2 ∨ p.lenPrefix = 4) ∧ p.residualsOk = true ∧
    p.rangeShort.ok lenShort = true ∧ p.rangeExt.ok lenExt = true ∧ p.rangeLong.ok lenLong = true ∧
    p.short.ok = true ∧ p.longA.ok = true ∧ p.longB.ok = true ∧ bodyClear p.longA p.longB = true := by
  simp only [Params.ok, Params.baseOk, Bool.and_eq_true, Bool.or_eq_true, decide_eq_true_eq, or_assoc, and_assoc]

namespace Cfg

theorem syncOk (c : Cfg) : c.par.syncOk = true := (Params.ok_iff.mp c.valid).1
theorem tagsOk (c : Cfg) : c.par.tagsOk = true := (Params.ok_iff.mp c.valid).2.1
theorem lenPrefix_cases (c : Cfg) : c.par.lenPrefix = 1 ∨ c.par.lenPrefix = 2 ∨ c.par.lenPrefix = 4 :=
  (Params.ok_iff.mp c.valid).2.2.1
theorem residualsOk (c : Cfg) : c.par.residualsOk = true := (Params.ok_iff.mp c.valid).2.2.2.1
theorem rangeShort_ok (c : Cfg) : c.par.rangeShort.ok lenShort = true := (Params.ok_iff.mp c.valid).2.2.2.2.1
theorem rangeExt_ok (c : Cfg) : c.par.rangeExt.ok lenExt = true := (Params.ok_iff.mp c.valid).2.2.2.2.2.1
theorem rangeLong_ok (c : Cfg) : c.par.rangeLong.ok lenLong = true := (Params.ok_iff.mp c.valid).2.2.2.2.2.2.1
theorem short_ok (c : Cfg) : c.par.short.ok = true := (Params.ok_iff.mp c.valid).2.2.2.2.2.2.2.1
theorem longA_ok (c : Cfg) : c.par.longA.ok = true := (Params.ok_iff.mp c.valid).2.2.2.2.2.2.2.2.1
theorem longB_ok (c : Cfg) : c.par.longB.ok = true := (Params.ok_iff.mp c.valid).2.2.2.2.2.2.2.2.2.1
theorem bodyClear_ok (c : Cfg) : bodyClear c.par.longA c.par.longB = true := (Params.ok_iff.mp c.valid).2.2.2.2.2.2.2.2.2.2

/-- Every entry of the sync table fits the window. -/
theorem sync_fits (c : Cfg) {e : SyncEntry} (h : e ∈ [c.par.syncLong, c.par.syncExt, c.par.syncShort]) :
    4 ≤ e.len ∧ e.pos + 8 * e.len ≤ c.par.wBits := by
  have hs := c.syncOk
  simp only [Params.syncOk, Bool.and_eq_true, SyncEntry.ok_iff] at hs
  simp only [List.mem_cons, List.not_mem_nil, or_false] at h
  rcases h with rfl | rfl | rfl
  exacts [hs.1.1.1.1.1, hs.1.1.1.1.2, hs.1.1.1.2]

end Cfg

end Sys2Proof
end

