-- ==== Sys2Proof/Laws/Memory.lean ====
section
/-! SUPPORT. The laws of byte memories: read after write, byte lists, wire bits, the canonical form and the address bound. -/

namespace Sys2Proof.Machine

/-! ## Read after erase, insert, write -/

theorem Memory.read_erase_same (m : Memory) (a : Nat) : (m.erase a).read a = 0 := by
  induction m with
  | nil => rfl
  | cons c r ih =>
    by_cases h : c.1 = a
    · simpa [Memory.erase, h] using ih
    · have : Memory.erase (c :: r) a = c :: Memory.erase r a := by simp [Memory.erase, h]
      rw [this, Memory.read, if_neg h, ih]

theorem Memory.read_erase_ne (m : Memory) {a b : Nat} (h : b ≠ a) : (m.erase a).read b = m.read b := by
  induction m with
  | nil => rfl
  | cons c r ih =>
    by_cases hc : c.1 = a
    · have : Memory.erase (c :: r) a = Memory.erase r a := by simp [Memory.erase, hc]
      rw [this, ih, Memory.read, if_neg (by omega)]
    · have : Memory.erase (c :: r) a = c :: Memory.erase r a := by simp [Memory.erase, hc]
      rw [this, Memory.read, Memory.read, ih]

theorem Memory.read_insert_same (m : Memory) (a : Nat) (v : Byte) (h : ∀ c ∈ m, c.1 ≠ a) :
    (m.insert a v).read a = v := by
  induction m with
  | nil => simp [Memory.insert, Memory.read]
  | cons c r ih =>
    unfold Memory.insert
    split
    · simp [Memory.read]
    · rw [Memory.read, if_neg (h c (by simp)), ih fun d hd => h d (by simp [hd])]

theorem Memory.read_insert_ne (m : Memory) (v : Byte) {a b : Nat} (h : b ≠ a) : (m.insert a v).read b = m.read b := by
  induction m with
  | nil => simp [Memory.insert, Memory.read]; omega
  | cons c r ih =>
    unfold Memory.insert
    split
    · rw [Memory.read, if_neg (by simpa using h.symm)]
    · rw [Memory.read, Memory.read, ih]

theorem Memory.mem_erase {m : Memory} {a : Nat} {c : Host.Cell} : c ∈ m.erase a ↔ c ∈ m ∧ c.1 ≠ a := by
  simp [Memory.erase]

/-- A read after a write to the same address gives the value written. -/
@[simp] theorem Memory.read_write_same (m : Memory) (a : Nat) (v : Byte) : (m.write a v).read a = v := by
  unfold Memory.write
  split
  · rename_i h; rw [h, Memory.read_erase_same]
  · exact Memory.read_insert_same _ _ _ fun c hc => (Memory.mem_erase.mp hc).2

/-- A write leaves every other address alone. -/
theorem Memory.read_write_ne (m : Memory) (v : Byte) {a b : Nat} (h : b ≠ a) : (m.write a v).read b = m.read b := by
  unfold Memory.write
  split
  · exact Memory.read_erase_ne m h
  · rw [Memory.read_insert_ne _ _ h, Memory.read_erase_ne m h]

theorem Memory.read_write (m : Memory) (a b : Nat) (v : Byte) : (m.write a v).read b = if b = a then v else m.read b := by
  split
  · rename_i h; rw [h, Memory.read_write_same]
  · rename_i h; exact Memory.read_write_ne m v h

/-! ## Byte lists -/

@[simp] theorem Memory.readBytes_length (m : Memory) (a n : Nat) : (m.readBytes a n).length = n := by
  induction n generalizing a with
  | zero => rfl
  | succ n ih => simp [Memory.readBytes, ih]

theorem Memory.byteAt_readBytes (m : Memory) (a n i : Nat) : byteAt (m.readBytes a n) i = if i < n then m.read (a + i) else 0 := by
  induction n generalizing a i with
  | zero => simp [Memory.readBytes, byteAt]
  | succ n ih =>
    cases i with
    | zero => simp [Memory.readBytes, byteAt]
    | succ i =>
      have := ih (a + 1) i
      simp only [byteAt] at this
      simp only [Memory.readBytes, byteAt, List.getD_cons_succ, this, Nat.add_lt_add_iff_right]
      rw [show a + 1 + i = a + (i + 1) by omega]

/-- Two memories that agree on a range give the same bytes there. -/
theorem Memory.readBytes_congr {m m' : Memory} {a n : Nat} (h : ∀ i, i < n → m.read (a + i) = m'.read (a + i)) :
    m.readBytes a n = m'.readBytes a n := by
  induction n generalizing a with
  | zero => rfl
  | succ n ih =>
    simp only [Memory.readBytes]
    rw [show m.read a = m'.read a from h 0 (by omega), ih]
    intro i hi
    have := h (i + 1) (by omega)
    rwa [show a + 1 + i = a + (i + 1) by omega]

theorem Memory.readBytes_take (m : Memory) (a n k : Nat) : (m.readBytes a n).take k = m.readBytes a (min k n) := by
  induction n generalizing a k with
  | zero => simp [Memory.readBytes]
  | succ n ih =>
    cases k with
    | zero => simp [Memory.readBytes]
    | succ k => simp [Memory.readBytes, ih, Nat.succ_min_succ]

/-- What a byte list written at `a` leaves at each address. -/
theorem Memory.read_writeBytes (m : Memory) (a : Nat) (l : List Byte) (b : Nat) :
    (m.writeBytes a l).read b = if a ≤ b ∧ b < a + l.length then byteAt l (b - a) else m.read b := by
  induction l generalizing m a with
  | nil => simp only [Memory.writeBytes, List.length_nil]; rw [if_neg (by omega)]
  | cons v r ih =>
    rw [Memory.writeBytes, ih, Memory.read_write]
    by_cases h1 : b = a
    · subst h1
      simp [byteAt]
    · by_cases h2 : a + 1 ≤ b ∧ b < a + 1 + r.length
      · obtain ⟨k, rfl⟩ : ∃ k, b = a + 1 + k := ⟨b - (a + 1), by omega⟩
        rw [if_pos h2, if_pos ⟨by omega, by simp only [List.length_cons]; omega⟩]
        rw [show a + 1 + k - (a + 1) = k by omega, show a + 1 + k - a = k + 1 by omega]
        simp [byteAt]
      · rw [if_neg h2, if_neg h1, if_neg (by simp only [List.length_cons]; omega)]

/-- Bytes written are read back. -/
theorem Memory.readBytes_writeBytes (m : Memory) (a : Nat) (l : List Byte) : (m.writeBytes a l).readBytes a l.length = l := by
  apply List.ext_getElem (by simp)
  intro i h1 h2
  have := Memory.byteAt_readBytes (m.writeBytes a l) a l.length i
  rw [if_pos h2, Memory.read_writeBytes, if_pos ⟨by omega, by omega⟩, show a + i - a = i by omega] at this
  have g : ∀ (x : List Byte) (h : i < x.length), byteAt x i = x[i] := fun x h => by simp [byteAt, h]
  rwa [g _ h1, g _ h2] at this

/-- A byte list written elsewhere changes nothing in a range. -/
theorem Memory.readBytes_writeBytes_of_disjoint (m : Memory) (a b n : Nat) (l : List Byte)
    (h : b + n ≤ a ∨ a + l.length ≤ b) : (m.writeBytes a l).readBytes b n = m.readBytes b n := by
  apply Memory.readBytes_congr
  intro i hi
  rw [Memory.read_writeBytes, if_neg (by omega)]

theorem Memory.read_zeroBelow (m : Memory) (n a : Nat) : (m.zeroBelow n).read a = if a < n then 0 else m.read a := by
  induction m with
  | nil => simp [Memory.zeroBelow, Memory.read]
  | cons c r ih =>
    by_cases h : n ≤ c.1
    · have : Memory.zeroBelow (c :: r) n = c :: Memory.zeroBelow r n := by simp [Memory.zeroBelow, h]
      rw [this, Memory.read, Memory.read, ih]
      by_cases h1 : a < n
      · rw [if_neg (by omega), if_pos h1, if_pos h1]
      · simp only [if_neg h1]
    · have : Memory.zeroBelow (c :: r) n = Memory.zeroBelow r n := by simp [Memory.zeroBelow, h]
      rw [this, ih, Memory.read]
      by_cases h1 : a < n
      · simp only [if_pos h1]
      · rw [if_neg h1, if_neg h1, if_neg (by omega)]

/-! ## Wire bits -/

theorem wireBit_withWireBit (x : Byte) (q k : Nat) (d : Bool) :
    (withWireBit x q d).getLsbD (7 - k % 8) = if k % 8 = q % 8 then d else x.getLsbD (7 - k % 8) := by
  have hq : q % 8 < 8 := Nat.mod_lt _ (by decide)
  have hk : k % 8 < 8 := Nat.mod_lt _ (by decide)
  have hm : ∀ a b : Fin 8, ((0x80 : Byte) >>> a.val).getLsbD (7 - b.val) = decide (b = a) := by decide
  have := hm ⟨q % 8, hq⟩ ⟨k % 8, hk⟩
  simp only [Fin.mk.injEq] at this
  have h8 : 7 - k % 8 < 8 := by omega
  simp only [withWireBit, BitVec.getLsbD_or, BitVec.getLsbD_and, BitVec.getLsbD_not, this, h8, decide_true, Bool.true_and]
  have h0 : (0 : Byte).getLsbD (7 - k % 8) = false := by simp
  cases d
  · simp only [Bool.false_eq_true, if_false, h0]
    by_cases h : k % 8 = q % 8 <;> simp only [h, if_true, if_false, decide_true, decide_false] <;> simp
  · simp only [if_true, this]
    by_cases h : k % 8 = q % 8 <;> simp only [h, if_true, if_false, decide_true, decide_false] <;> simp

/-- A bit set is read back, and every other wire bit is as before. -/
theorem Memory.wireBit_setBit (m : Memory) (q k : Nat) (d : Bool) :
    wireBit (m.setBit q d).read k = if k = q then d else wireBit m.read k := by
  unfold wireBit Memory.setBit
  rw [Memory.read_write]
  by_cases h : k / 8 = q / 8
  · rw [if_pos h, wireBit_withWireBit, h]
    by_cases h2 : k % 8 = q % 8
    · rw [if_pos h2, if_pos (by omega)]
    · rw [if_neg h2, if_neg (by intro e; exact h2 (by rw [e]))]
  · rw [if_neg h, if_neg (by intro e; exact h (by rw [e]))]

/-! ## The canonical form -/

theorem Memory.wfFrom_mono {lo lo' : Nat} {m : Memory} (h : lo' ≤ lo) (w : m.wfFrom lo = true) : m.wfFrom lo' = true := by
  cases m with
  | nil => rfl
  | cons c r =>
    simp only [Memory.wfFrom, Bool.and_eq_true, decide_eq_true_eq] at *
    exact ⟨⟨by omega, w.1.2⟩, w.2⟩

theorem Memory.wfFrom_filter {lo : Nat} {m : Memory} (f : Host.Cell → Bool) (w : m.wfFrom lo = true) :
    Memory.wfFrom lo (m.filter f) = true := by
  induction m generalizing lo with
  | nil => rfl
  | cons c r ih =>
    simp only [Memory.wfFrom, Bool.and_eq_true, decide_eq_true_eq] at w
    rw [List.filter_cons]
    split
    · simp only [Memory.wfFrom, Bool.and_eq_true, decide_eq_true_eq]
      exact ⟨w.1, ih w.2⟩
    · exact Memory.wfFrom_mono (by omega) (ih w.2)

theorem Memory.wfFrom_insert {lo a : Nat} {m : Memory} {v : Byte} (w : m.wfFrom lo = true) (hl : lo ≤ a) (hv : v ≠ 0)
    (hn : ∀ c ∈ m, c.1 ≠ a) : (m.insert a v).wfFrom lo = true := by
  induction m generalizing lo with
  | nil => simp only [Memory.insert, Memory.wfFrom, Bool.and_eq_true, decide_eq_true_eq]; exact ⟨⟨hl, hv⟩, trivial⟩
  | cons c r ih =>
    simp only [Memory.wfFrom, Bool.and_eq_true, decide_eq_true_eq] at w
    have hc := hn c (by simp)
    unfold Memory.insert
    split
    · simp only [Memory.wfFrom, Bool.and_eq_true, decide_eq_true_eq]
      exact ⟨⟨hl, hv⟩, ⟨by omega, w.1.2⟩, w.2⟩
    · simp only [Memory.wfFrom, Bool.and_eq_true, decide_eq_true_eq]
      exact ⟨w.1, ih w.2 (by omega) fun d hd => hn d (by simp [hd])⟩

theorem Memory.wf_erase {m : Memory} (a : Nat) (w : m.wf = true) : (m.erase a).wf = true :=
  Memory.wfFrom_filter _ w

theorem Memory.wf_write {m : Memory} (a : Nat) (v : Byte) (w : m.wf = true) : (m.write a v).wf = true := by
  unfold Memory.write
  split
  · exact Memory.wf_erase a w
  · rename_i hv
    exact Memory.wfFrom_insert (Memory.wf_erase a w) (Nat.zero_le _) hv fun c hc => (Memory.mem_erase.mp hc).2

theorem Memory.wf_writeBytes {m : Memory} (a : Nat) (l : List Byte) (w : m.wf = true) : (m.writeBytes a l).wf = true := by
  induction l generalizing m a with
  | nil => exact w
  | cons v r ih => exact ih (a + 1) (Memory.wf_write a v w)

theorem Memory.wf_setBit {m : Memory} (q : Nat) (d : Bool) (w : m.wf = true) : (m.setBit q d).wf = true :=
  Memory.wf_write _ _ w

theorem Memory.wf_zeroBelow {m : Memory} (n : Nat) (w : m.wf = true) : (m.zeroBelow n).wf = true :=
  Memory.wfFrom_filter _ w

/-- The memories of the machine right after reset have the canonical form. -/
theorem reset_memories_wf :
    (State.reset.dec.db0.wf && State.reset.dec.db1.wf && State.reset.ring.mem.wf && State.reset.cons.stg.wf) = true := rfl

/-! ## The address bound -/

theorem Memory.below_write {m : Memory} {n a : Nat} (v : Byte) (h : m.below n = true) (ha : a < n) :
    (m.write a v).below n = true := by
  have he : (m.erase a).below n = true := by
    simp only [Memory.below, List.all_eq_true, decide_eq_true_eq] at *
    intro c hc
    exact h c (Memory.mem_erase.mp hc).1
  have hi : ∀ k : Memory, k.below n = true → (k.insert a v).below n = true := by
    intro k hk
    induction k with
    | nil => simp [Memory.insert, Memory.below, ha]
    | cons c r ih =>
      simp only [Memory.below, List.all_cons, Bool.and_eq_true, decide_eq_true_eq] at hk
      unfold Memory.insert
      split
      · simp only [Memory.below, List.all_cons, Bool.and_eq_true, decide_eq_true_eq]
        exact ⟨ha, hk⟩
      · simp only [Memory.below, List.all_cons, Bool.and_eq_true, decide_eq_true_eq]
        exact ⟨hk.1, ih hk.2⟩
  unfold Memory.write
  split
  · exact he
  · exact hi _ he

theorem Memory.below_writeBytes {m : Memory} {n a : Nat} (l : List Byte) (h : m.below n = true) (ha : a + l.length ≤ n) :
    (m.writeBytes a l).below n = true := by
  induction l generalizing m a with
  | nil => exact h
  | cons v r ih =>
    simp only [List.length_cons] at ha
    exact ih (Memory.below_write v h (by omega)) (by omega)

end Sys2Proof.Machine
end

