-- ==== Sys2Proof/Laws/State.lean ====
section
/-! SUPPORT. One lemma per field per named update of the state, true by definition. -/

namespace Sys2Proof.Machine

@[simp] theorem State.setDec_cfg (s : State) (d : Decoder) : (s.setDec d).cfg = s.cfg := rfl
@[simp] theorem State.setDec_dec (s : State) (d : Decoder) : (s.setDec d).dec = d := rfl
@[simp] theorem State.setDec_ring (s : State) (d : Decoder) : (s.setDec d).ring = s.ring := rfl
@[simp] theorem State.setDec_cons (s : State) (d : Decoder) : (s.setDec d).cons = s.cons := rfl
@[simp] theorem State.setDec_env (s : State) (d : Decoder) : (s.setDec d).env = s.env := rfl
@[simp] theorem State.setRing_cfg (s : State) (r : Ring) : (s.setRing r).cfg = s.cfg := rfl
@[simp] theorem State.setRing_dec (s : State) (r : Ring) : (s.setRing r).dec = s.dec := rfl
@[simp] theorem State.setRing_ring (s : State) (r : Ring) : (s.setRing r).ring = r := rfl
@[simp] theorem State.setRing_cons (s : State) (r : Ring) : (s.setRing r).cons = s.cons := rfl
@[simp] theorem State.setRing_env (s : State) (r : Ring) : (s.setRing r).env = s.env := rfl
@[simp] theorem State.setCons_cfg (s : State) (c : Consumer) : (s.setCons c).cfg = s.cfg := rfl
@[simp] theorem State.setCons_dec (s : State) (c : Consumer) : (s.setCons c).dec = s.dec := rfl
@[simp] theorem State.setCons_ring (s : State) (c : Consumer) : (s.setCons c).ring = s.ring := rfl
@[simp] theorem State.setCons_cons (s : State) (c : Consumer) : (s.setCons c).cons = c := rfl
@[simp] theorem State.setCons_env (s : State) (c : Consumer) : (s.setCons c).env = s.env := rfl
@[simp] theorem State.setEnv_cfg (s : State) (e : Env) : (s.setEnv e).cfg = s.cfg := rfl
@[simp] theorem State.setEnv_dec (s : State) (e : Env) : (s.setEnv e).dec = s.dec := rfl
@[simp] theorem State.setEnv_ring (s : State) (e : Env) : (s.setEnv e).ring = s.ring := rfl
@[simp] theorem State.setEnv_cons (s : State) (e : Env) : (s.setEnv e).cons = s.cons := rfl
@[simp] theorem State.setEnv_env (s : State) (e : Env) : (s.setEnv e).env = e := rfl

@[simp] theorem State.raise_cfg (s : State) (c : Condition) : (s.raise c).cfg = s.cfg := rfl
@[simp] theorem State.raise_dec (s : State) (c : Condition) : (s.raise c).dec = s.dec := rfl
@[simp] theorem State.raise_ring (s : State) (c : Condition) : (s.raise c).ring = s.ring := rfl
@[simp] theorem State.raise_cons (s : State) (c : Condition) : (s.raise c).cons = s.cons := rfl
@[simp] theorem State.raise_env_inbox (s : State) (c : Condition) : (s.raise c).env.inbox = s.env.inbox := rfl
@[simp] theorem State.raise_env_issuer (s : State) (c : Condition) : (s.raise c).env.issuer = s.env.issuer := rfl
@[simp] theorem State.raise_env_enable (s : State) (c : Condition) : (s.raise c).env.enable = s.env.enable := rfl
@[simp] theorem State.raise_env_now (s : State) (c : Condition) : (s.raise c).env.now = s.env.now := rfl
@[simp] theorem State.raise_env_drain (s : State) (c : Condition) : (s.raise c).env.drain = s.env.drain := rfl
@[simp] theorem State.raise_env_started (s : State) (c : Condition) : (s.raise c).env.started = s.env.started := rfl
@[simp] theorem State.raise_env_cbOut (s : State) (c : Condition) : (s.raise c).env.cbOut = s.env.cbOut := rfl
@[simp] theorem State.raise_env_diag (s : State) (c : Condition) : (s.raise c).env.diag = s.env.diag ++ [c] := rfl
@[simp] theorem State.raise_env_answers (s : State) (c : Condition) : (s.raise c).env.answers = s.env.answers := rfl

@[simp] theorem State.answer_cfg (s : State) (a : Answer) : (s.answer a).cfg = s.cfg := rfl
@[simp] theorem State.answer_dec (s : State) (a : Answer) : (s.answer a).dec = s.dec := rfl
@[simp] theorem State.answer_ring (s : State) (a : Answer) : (s.answer a).ring = s.ring := rfl
@[simp] theorem State.answer_cons (s : State) (a : Answer) : (s.answer a).cons = s.cons := rfl
@[simp] theorem State.answer_env_inbox (s : State) (a : Answer) : (s.answer a).env.inbox = s.env.inbox := rfl
@[simp] theorem State.answer_env_issuer (s : State) (a : Answer) : (s.answer a).env.issuer = s.env.issuer := rfl
@[simp] theorem State.answer_env_enable (s : State) (a : Answer) : (s.answer a).env.enable = s.env.enable := rfl
@[simp] theorem State.answer_env_now (s : State) (a : Answer) : (s.answer a).env.now = s.env.now := rfl
@[simp] theorem State.answer_env_drain (s : State) (a : Answer) : (s.answer a).env.drain = s.env.drain := rfl
@[simp] theorem State.answer_env_started (s : State) (a : Answer) : (s.answer a).env.started = s.env.started := rfl
@[simp] theorem State.answer_env_cbOut (s : State) (a : Answer) : (s.answer a).env.cbOut = s.env.cbOut := rfl
@[simp] theorem State.answer_env_diag (s : State) (a : Answer) : (s.answer a).env.diag = s.env.diag := rfl
@[simp] theorem State.answer_env_answers (s : State) (a : Answer) : (s.answer a).env.answers = s.env.answers ++ [a] := rfl

@[simp] theorem State.setDrain_cfg (s : State) (d : Drain) : (s.setDrain d).cfg = s.cfg := rfl
@[simp] theorem State.setDrain_dec (s : State) (d : Drain) : (s.setDrain d).dec = s.dec := rfl
@[simp] theorem State.setDrain_ring (s : State) (d : Drain) : (s.setDrain d).ring = s.ring := rfl
@[simp] theorem State.setDrain_cons (s : State) (d : Drain) : (s.setDrain d).cons = s.cons := rfl
@[simp] theorem State.setDrain_env_inbox (s : State) (d : Drain) : (s.setDrain d).env.inbox = s.env.inbox := rfl
@[simp] theorem State.setDrain_env_issuer (s : State) (d : Drain) : (s.setDrain d).env.issuer = s.env.issuer := rfl
@[simp] theorem State.setDrain_env_enable (s : State) (d : Drain) : (s.setDrain d).env.enable = s.env.enable := rfl
@[simp] theorem State.setDrain_env_now (s : State) (d : Drain) : (s.setDrain d).env.now = s.env.now := rfl
@[simp] theorem State.setDrain_env_drain (s : State) (d : Drain) : (s.setDrain d).env.drain = d := rfl
@[simp] theorem State.setDrain_env_started (s : State) (d : Drain) : (s.setDrain d).env.started = s.env.started := rfl
@[simp] theorem State.setDrain_env_cbOut (s : State) (d : Drain) : (s.setDrain d).env.cbOut = s.env.cbOut := rfl
@[simp] theorem State.setDrain_env_diag (s : State) (d : Drain) : (s.setDrain d).env.diag = s.env.diag := rfl
@[simp] theorem State.setDrain_env_answers (s : State) (d : Drain) : (s.setDrain d).env.answers = s.env.answers := rfl

@[simp] theorem State.setInbox_cfg (s : State) (l : List Event) : (s.setInbox l).cfg = s.cfg := rfl
@[simp] theorem State.setInbox_dec (s : State) (l : List Event) : (s.setInbox l).dec = s.dec := rfl
@[simp] theorem State.setInbox_ring (s : State) (l : List Event) : (s.setInbox l).ring = s.ring := rfl
@[simp] theorem State.setInbox_cons (s : State) (l : List Event) : (s.setInbox l).cons = s.cons := rfl
@[simp] theorem State.setInbox_env_inbox (s : State) (l : List Event) : (s.setInbox l).env.inbox = l := rfl
@[simp] theorem State.setInbox_env_issuer (s : State) (l : List Event) : (s.setInbox l).env.issuer = s.env.issuer := rfl
@[simp] theorem State.setInbox_env_enable (s : State) (l : List Event) : (s.setInbox l).env.enable = s.env.enable := rfl
@[simp] theorem State.setInbox_env_now (s : State) (l : List Event) : (s.setInbox l).env.now = s.env.now := rfl
@[simp] theorem State.setInbox_env_drain (s : State) (l : List Event) : (s.setInbox l).env.drain = s.env.drain := rfl
@[simp] theorem State.setInbox_env_started (s : State) (l : List Event) : (s.setInbox l).env.started = s.env.started := rfl
@[simp] theorem State.setInbox_env_cbOut (s : State) (l : List Event) : (s.setInbox l).env.cbOut = s.env.cbOut := rfl
@[simp] theorem State.setInbox_env_diag (s : State) (l : List Event) : (s.setInbox l).env.diag = s.env.diag := rfl
@[simp] theorem State.setInbox_env_answers (s : State) (l : List Event) : (s.setInbox l).env.answers = s.env.answers := rfl

@[simp] theorem State.issuedBy_cfg (s : State) (a : Agent) : (s.issuedBy a).cfg = s.cfg := rfl
@[simp] theorem State.issuedBy_dec (s : State) (a : Agent) : (s.issuedBy a).dec = s.dec := rfl
@[simp] theorem State.issuedBy_ring (s : State) (a : Agent) : (s.issuedBy a).ring = s.ring := rfl
@[simp] theorem State.issuedBy_cons (s : State) (a : Agent) : (s.issuedBy a).cons = s.cons := rfl
@[simp] theorem State.issuedBy_env_inbox (s : State) (a : Agent) : (s.issuedBy a).env.inbox = s.env.inbox := rfl
@[simp] theorem State.issuedBy_env_issuer (s : State) (a : Agent) : (s.issuedBy a).env.issuer = a := rfl
@[simp] theorem State.issuedBy_env_enable (s : State) (a : Agent) : (s.issuedBy a).env.enable = s.env.enable := rfl
@[simp] theorem State.issuedBy_env_now (s : State) (a : Agent) : (s.issuedBy a).env.now = s.env.now := rfl
@[simp] theorem State.issuedBy_env_drain (s : State) (a : Agent) : (s.issuedBy a).env.drain = s.env.drain := rfl
@[simp] theorem State.issuedBy_env_started (s : State) (a : Agent) : (s.issuedBy a).env.started = s.env.started := rfl
@[simp] theorem State.issuedBy_env_cbOut (s : State) (a : Agent) : (s.issuedBy a).env.cbOut = s.env.cbOut := rfl
@[simp] theorem State.issuedBy_env_diag (s : State) (a : Agent) : (s.issuedBy a).env.diag = s.env.diag := rfl
@[simp] theorem State.issuedBy_env_answers (s : State) (a : Agent) : (s.issuedBy a).env.answers = s.env.answers := rfl

@[simp] theorem State.setStg_cfg (s : State) (m : Memory) : (s.setStg m).cfg = s.cfg := rfl
@[simp] theorem State.setStg_dec (s : State) (m : Memory) : (s.setStg m).dec = s.dec := rfl
@[simp] theorem State.setStg_ring (s : State) (m : Memory) : (s.setStg m).ring = s.ring := rfl
@[simp] theorem State.setStg_env (s : State) (m : Memory) : (s.setStg m).env = s.env := rfl
@[simp] theorem State.setStg_stg (s : State) (m : Memory) : (s.setStg m).cons.stg = m := rfl
@[simp] theorem State.setStg_recShort (s : State) (m : Memory) : (s.setStg m).cons.recShort = s.cons.recShort := rfl
@[simp] theorem State.setStg_recExt (s : State) (m : Memory) : (s.setStg m).cons.recExt = s.cons.recExt := rfl
@[simp] theorem State.setStg_recLong (s : State) (m : Memory) : (s.setStg m).cons.recLong = s.cons.recLong := rfl
@[simp] theorem State.setStg_cbValid (s : State) (m : Memory) : (s.setStg m).cons.cbValid = s.cons.cbValid := rfl
@[simp] theorem State.setStg_cbHandle (s : State) (m : Memory) : (s.setStg m).cons.cbHandle = s.cons.cbHandle := rfl

/-! Emitting a callback event changes the output port `CB` at most. -/

@[simp] theorem State.emit_cfg (s : State) (t : Byte) (r : Record) (w : List Byte) : (s.emit t r w).cfg = s.cfg := by
  unfold State.emit; split <;> rfl
@[simp] theorem State.emit_dec (s : State) (t : Byte) (r : Record) (w : List Byte) : (s.emit t r w).dec = s.dec := by
  unfold State.emit; split <;> rfl
@[simp] theorem State.emit_ring (s : State) (t : Byte) (r : Record) (w : List Byte) : (s.emit t r w).ring = s.ring := by
  unfold State.emit; split <;> rfl
@[simp] theorem State.emit_cons (s : State) (t : Byte) (r : Record) (w : List Byte) : (s.emit t r w).cons = s.cons := by
  unfold State.emit; split <;> rfl
@[simp] theorem State.emit_env_inbox (s : State) (t : Byte) (r : Record) (w : List Byte) :
    (s.emit t r w).env.inbox = s.env.inbox := by unfold State.emit; split <;> rfl
@[simp] theorem State.emit_env_issuer (s : State) (t : Byte) (r : Record) (w : List Byte) :
    (s.emit t r w).env.issuer = s.env.issuer := by unfold State.emit; split <;> rfl
@[simp] theorem State.emit_env_enable (s : State) (t : Byte) (r : Record) (w : List Byte) :
    (s.emit t r w).env.enable = s.env.enable := by unfold State.emit; split <;> rfl
@[simp] theorem State.emit_env_now (s : State) (t : Byte) (r : Record) (w : List Byte) :
    (s.emit t r w).env.now = s.env.now := by unfold State.emit; split <;> rfl
@[simp] theorem State.emit_env_drain (s : State) (t : Byte) (r : Record) (w : List Byte) :
    (s.emit t r w).env.drain = s.env.drain := by unfold State.emit; split <;> rfl
@[simp] theorem State.emit_env_started (s : State) (t : Byte) (r : Record) (w : List Byte) :
    (s.emit t r w).env.started = s.env.started := by unfold State.emit; split <;> rfl
@[simp] theorem State.emit_env_diag (s : State) (t : Byte) (r : Record) (w : List Byte) :
    (s.emit t r w).env.diag = s.env.diag := by unfold State.emit; split <;> rfl
@[simp] theorem State.emit_env_answers (s : State) (t : Byte) (r : Record) (w : List Byte) :
    (s.emit t r w).env.answers = s.env.answers := by unfold State.emit; split <;> rfl

theorem State.emit_env_cbOut (s : State) (t : Byte) (r : Record) (w : List Byte) :
    (s.emit t r w).env.cbOut =
      if s.cons.cbValid then s.env.cbOut ++ [⟨s.cons.cbHandle, t, r, w⟩] else s.env.cbOut := by
  unfold State.emit; split <;> simp_all

/-! The two buffers of the decoder part. -/

@[simp] theorem Decoder.setDb_prev (d : Decoder) (b : Bool) (m : Memory) : (d.setDb b m).prev = d.prev := by
  cases b <;> rfl
@[simp] theorem Decoder.setDb_phase (d : Decoder) (b : Bool) (m : Memory) : (d.setDb b m).phase = d.phase := by
  cases b <;> rfl
@[simp] theorem Decoder.setDb_cur (d : Decoder) (b : Bool) (m : Memory) : (d.setDb b m).cur = d.cur := by
  cases b <;> rfl
@[simp] theorem Decoder.db_setDb_same (d : Decoder) (b : Bool) (m : Memory) : (d.setDb b m).db b = m := by
  cases b <;> rfl
@[simp] theorem Decoder.db_setDb_not (d : Decoder) (b : Bool) (m : Memory) : (d.setDb b m).db (!b) = d.db (!b) := by
  cases b <;> rfl
@[simp] theorem Decoder.db_setPrev (d : Decoder) (b v : Bool) : Decoder.db { d with prev := v } b = d.db b := by
  cases b <;> rfl

end Sys2Proof.Machine
end

