-- ==== Sys2Proof/Laws/Ops.lean ====
section
/-! SUPPORT. What the shared operations can do: sequencing, bounded memory accesses, bit writes, agent checks. -/

namespace Sys2Proof.Machine

variable {α β : Type}

/-! ## Sequencing -/

@[simp] theorem andThen_next (a : α) (k : α → Res β) : andThen (.next a) k = k a := rfl
@[simp] theorem andThen_fault (f : Fault) (k : α → Res β) : andThen (.fault f) k = .fault f := rfl
@[simp] theorem andThen_refused (r : Refusal) (k : α → Res β) : andThen (.refused r) k = .refused r := rfl

/-- A sequence answers a next state iff both its parts do. -/
theorem andThen_eq_next {x : Res α} {k : α → Res β} {b : β} : andThen x k = .next b ↔ ∃ a, x = .next a ∧ k a = .next b := by
  cases x <;> simp

theorem andThen_eq_fault {x : Res α} {k : α → Res β} {f : Fault} :
    andThen x k = .fault f ↔ x = .fault f ∨ ∃ a, x = .next a ∧ k a = .fault f := by
  cases x <;> simp

theorem andThen_eq_refused {x : Res α} {k : α → Res β} {r : Refusal} :
    andThen x k = .refused r ↔ x = .refused r ∨ ∃ a, x = .next a ∧ k a = .refused r := by
  cases x <;> simp

/-! ## Bounded accesses -/

theorem memRead_eq_next {size : Nat} {m : Memory} {a n : Nat} {l : List Byte} :
    memRead size m a n = .next l ↔ a + n ≤ size ∧ l = m.readBytes a n := by
  unfold memRead; split
  · rename_i h; simp [h, eq_comm]
  · rename_i h; simp [h]

theorem memRead_eq_fault {size : Nat} {m : Memory} {a n : Nat} {f : Fault} :
    memRead size m a n = .fault f ↔ ¬ a + n ≤ size ∧ f = .outOfSpace := by
  unfold memRead; split
  · rename_i h; simp [h]
  · rename_i h; simp [h, eq_comm]

theorem memRead_ne_refused {size : Nat} {m : Memory} {a n : Nat} {r : Refusal} : memRead size m a n ≠ .refused r := by
  unfold memRead; split <;> simp

theorem memWrite_eq_next {size : Nat} {m : Memory} {a : Nat} {l : List Byte} {m' : Memory} :
    memWrite size m a l = .next m' ↔ a + l.length ≤ size ∧ m' = m.writeBytes a l := by
  unfold memWrite; split
  · rename_i h; simp [h, eq_comm]
  · rename_i h; simp [h]

theorem memWrite_eq_fault {size : Nat} {m : Memory} {a : Nat} {l : List Byte} {f : Fault} :
    memWrite size m a l = .fault f ↔ ¬ a + l.length ≤ size ∧ f = .outOfSpace := by
  unfold memWrite; split
  · rename_i h; simp [h]
  · rename_i h; simp [h, eq_comm]

theorem memWrite_ne_refused {size : Nat} {m : Memory} {a : Nat} {l : List Byte} {r : Refusal} :
    memWrite size m a l ≠ .refused r := by
  unfold memWrite; split <;> simp

theorem writeBit_eq_next {size : Nat} {m : Memory} {q : Nat} {d : Bool} {m' : Memory} :
    writeBit size m q d = .next m' ↔ q / 8 < size ∧ m' = m.setBit q d := by
  unfold writeBit; split
  · rename_i h; simp [h, eq_comm]
  · rename_i h; simp [h]

theorem word32_eq_next {size : Nat} {m : Memory} {q : Nat} {w : Word} :
    word32 size m q = .next w ↔ q + 32 ≤ 8 * size ∧ w = BitVec.ofNat 32 (wireNat m.read q 32) := by
  unfold word32; split
  · rename_i h; simp [h, eq_comm]
  · rename_i h; simp [h]

theorem writeBit_ne_refused {size : Nat} {m : Memory} {q : Nat} {d : Bool} {r : Refusal} : writeBit size m q d ≠ .refused r := by
  unfold writeBit; split <;> simp

theorem word32_ne_refused {size : Nat} {m : Memory} {q : Nat} {r : Refusal} : word32 size m q ≠ .refused r := by
  unfold word32; split <;> simp

/-! ## Agents -/

theorem byAgent_of_mem {who : List Agent} {s : State} {k : Res State} (h : s.env.issuer ∈ who) : byAgent who s k = k := if_pos h

theorem byAgent_of_not_mem {who : List Agent} {s : State} {k : Res State} (h : s.env.issuer ∉ who) :
    byAgent who s k = .refused (.wrongAgent s.env.issuer) := if_neg h

theorem byAgent_eq_next {who : List Agent} {s t : State} {k : Res State} :
    byAgent who s k = .next t ↔ s.env.issuer ∈ who ∧ k = .next t := by
  unfold byAgent; split <;> simp_all

theorem byAgent_eq_fault {who : List Agent} {s : State} {k : Res State} {f : Fault} :
    byAgent who s k = .fault f ↔ s.env.issuer ∈ who ∧ k = .fault f := by
  unfold byAgent; split <;> simp_all

theorem whenIdle_of_idle {r : Refusal} {s : State} {k : Res State} (h : s.env.drain = .idle) : whenIdle r s k = k := if_pos h

theorem whenIdle_of_busy {r : Refusal} {s : State} {k : Res State} (h : s.env.drain ≠ .idle) : whenIdle r s k = .refused r :=
  if_neg h

theorem whenIdle_eq_next {r : Refusal} {s t : State} {k : Res State} :
    whenIdle r s k = .next t ↔ s.env.drain = .idle ∧ k = .next t := by
  unfold whenIdle; split <;> simp_all

theorem whenIdle_eq_fault {r : Refusal} {s : State} {k : Res State} {f : Fault} :
    whenIdle r s k = .fault f ↔ s.env.drain = .idle ∧ k = .fault f := by
  unfold whenIdle; split <;> simp_all

/-! ## Byte orders -/

@[simp] theorem leBytes_length (k n : Nat) : (leBytes k n).length = k := by
  induction k generalizing n with
  | zero => rfl
  | succ k ih => simp [leBytes, ih]

/-- A number that fits its bytes is read back. -/
theorem leNat_leBytes {k n : Nat} (h : n < 2 ^ (8 * k)) : leNat (leBytes k n) = n := by
  induction k generalizing n with
  | zero => simp at h; simp [leBytes, leNat, h]
  | succ k ih =>
    have h2 : n / 256 < 2 ^ (8 * k) := by
      apply Nat.div_lt_of_lt_mul
      calc n < 2 ^ (8 * (k + 1)) := h
        _ = 256 * 2 ^ (8 * k) := by rw [Nat.mul_add, Nat.pow_add]; norm_num; ring
    simp only [leBytes, leNat, ih h2, BitVec.toNat_ofNat]
    omega

/-! ## The two buffers -/

theorem Decoder.setDb_prev_comm (d : Decoder) (b v : Bool) (m : Memory) :
    Decoder.setDb { d with prev := v } b m = { d.setDb b m with prev := v } := by cases b <;> rfl

theorem Decoder.db_advance (p : Params) (d : Decoder) (b : Bool) : (advance p d).db b = d.db b := by cases b <;> rfl

end Sys2Proof.Machine
end

