-- ==== Sys2Proof/Laws/Ring.lean ====
section
/-! SUPPORT. What the ring operations can do: one lemma per operation of RingBuffer that says every case of it. -/

namespace Sys2Proof.Machine

theorem rdLen_eq_next {p : Nat} {r : Ring} {a n : Nat} :
    rdLen p r a = .next n ↔ a + p ≤ r.cap ∧ n = leNat (r.mem.readBytes a p) := by
  unfold rdLen
  rw [andThen_eq_next]
  constructor
  · rintro ⟨l, hl, h⟩
    obtain ⟨h1, rfl⟩ := memRead_eq_next.mp hl
    cases h
    exact ⟨h1, rfl⟩
  · rintro ⟨h1, rfl⟩
    exact ⟨_, memRead_eq_next.mpr ⟨h1, rfl⟩, rfl⟩

theorem wrLen_eq_next {p cap : Nat} {m m' : Memory} {a n : Nat} :
    wrLen p cap m a n = .next m' ↔ a + p ≤ cap ∧ m' = m.writeBytes a (leBytes p n) := by
  unfold wrLen
  rw [memWrite_eq_next, leBytes_length]

/-- Where a frame is placed: at head, at 0 behind a sentinel, or at 0 with no room for one. -/
theorem placeFrame_cases {p size : Nat} {r : Ring} {w : Nat} {m : Memory} (h : placeFrame p size r = .next (w, m)) :
    ((size : Int) ≤ (regions p r.head r.tail r.cap).1 ∧ w = r.head ∧ m = r.mem) ∨
    (¬ (size : Int) ≤ (regions p r.head r.tail r.cap).1 ∧ p ≤ r.cap - r.head ∧ r.head + p ≤ r.cap ∧ w = 0 ∧
      m = r.mem.writeBytes r.head (leBytes p 0)) ∨
    (¬ (size : Int) ≤ (regions p r.head r.tail r.cap).1 ∧ ¬ p ≤ r.cap - r.head ∧ w = 0 ∧ m = r.mem) := by
  unfold placeFrame at h
  split at h
  · cases h; left; exact ⟨‹_›, rfl, rfl⟩
  · split at h
    · obtain ⟨m1, hw, h⟩ := andThen_eq_next.mp h
      obtain ⟨h1, rfl⟩ := wrLen_eq_next.mp hw
      cases h
      right; left
      exact ⟨‹_›, ‹_›, h1, rfl, rfl⟩
    · cases h; right; right; exact ⟨‹_›, ‹_›, rfl, rfl⟩

/-- A frame stored at `w`: prefix, payload, new head; capacity, tail, flag and counter stay. -/
theorem storeFrame_eq_next {p : Nat} {data : List Byte} {w : Nat} {m : Memory} {r r' : Ring} :
    storeFrame p data w m r = .next r' ↔ w + p ≤ r.cap ∧ w + p + data.length ≤ r.cap ∧
      r' = { r with
        mem := (m.writeBytes w (leBytes p data.length)).writeBytes (w + p) data
        head := (w + p + data.length) % r.cap } := by
  unfold storeFrame
  rw [andThen_eq_next]
  constructor
  · rintro ⟨m1, h1, h2⟩
    obtain ⟨m2, h2, h3⟩ := andThen_eq_next.mp h2
    obtain ⟨g1, rfl⟩ := wrLen_eq_next.mp h1
    obtain ⟨g2, rfl⟩ := memWrite_eq_next.mp h2
    cases h3
    exact ⟨g1, g2, rfl⟩
  · rintro ⟨g1, g2, rfl⟩
    exact ⟨_, wrLen_eq_next.mpr ⟨g1, rfl⟩, andThen_eq_next.mpr ⟨_, memWrite_eq_next.mpr ⟨g2, rfl⟩, rfl⟩⟩

/-- The three outcomes of a push: nothing; the counter; a stored frame. -/
theorem ringPush_cases {p o : Nat} {data : List Byte} {r r' : Ring} {x : Pushed} (h : ringPush p o data r = .next (r', x)) :
    (x = .rejected ∧ r' = r ∧ (data.length = 0 ∨ r.valid = false)) ∨
    (x = .overflow ∧ r' = { r with ovf := (r.ovf + 1) % 2 ^ o } ∧ data.length ≠ 0 ∧ r.valid = true ∧
      freeBytes p r < data.length) ∨
    (x = .stored ∧ data.length ≠ 0 ∧ r.valid = true ∧ data.length ≤ freeBytes p r ∧
      ∃ w m, placeFrame p data.length r = .next (w, m) ∧ storeFrame p data w m r = .next r') := by
  unfold ringPush at h
  split at h
  · cases h; exact .inl ⟨rfl, rfl, .inl ‹_›⟩
  · split at h
    · cases h; exact .inl ⟨rfl, rfl, .inr ‹_›⟩
    · rename_i h0 hv
      have hv : r.valid = true := by simpa using hv
      split at h
      · cases h; exact .inr (.inl ⟨rfl, rfl, h0, hv, ‹_›⟩)
      · rename_i hf
        obtain ⟨⟨w, m⟩, h1, h2⟩ := andThen_eq_next.mp h
        obtain ⟨r1, h3, h4⟩ := andThen_eq_next.mp h2
        cases h4
        exact .inr (.inr ⟨rfl, h0, hv, by omega, w, m, h1, h3⟩)

/-- A push never moves the tail, the capacity or the flag. -/
theorem ringPush_frame {p o : Nat} {data : List Byte} {r r' : Ring} {x : Pushed} (h : ringPush p o data r = .next (r', x)) :
    r'.valid = r.valid ∧ r'.cap = r.cap ∧ r'.tail = r.tail := by
  obtain ⟨-, rfl, -⟩ | ⟨-, rfl, -⟩ | ⟨-, -, -, -, w, m, -, hs⟩ := ringPush_cases h
  · exact ⟨rfl, rfl, rfl⟩
  · exact ⟨rfl, rfl, rfl⟩
  · obtain ⟨-, -, rfl⟩ := storeFrame_eq_next.mp hs
    exact ⟨rfl, rfl, rfl⟩

/-- A push answers the machine's ring, one event at most, and nothing else. -/
theorem push_cases {data : List Byte} {s t : State} {ok : Bool} (h : push data s = .next (t, ok)) :
    ∃ r x, ringPush s.cfg.par.lenPrefix s.cfg.par.ovfBits data s.ring = .next (r, x) ∧ (ok = true ↔ x = .stored) ∧
      t = if x = .overflow then (s.setRing r).raise (.ringOverflow data.length) else s.setRing r := by
  unfold push at h
  obtain ⟨⟨r, x⟩, h1, h2⟩ := andThen_eq_next.mp h
  refine ⟨r, x, h1, ?_⟩
  cases x <;> cases h2 <;> simp

theorem push_frame {data : List Byte} {s t : State} {ok : Bool} (h : push data s = .next (t, ok)) :
    t.cfg = s.cfg ∧ t.dec = s.dec ∧ t.cons = s.cons ∧ t.env.drain = s.env.drain ∧ t.env.inbox = s.env.inbox ∧
    t.env.issuer = s.env.issuer ∧ t.env.enable = s.env.enable ∧ t.env.now = s.env.now ∧
    t.env.started = s.env.started ∧ t.env.cbOut = s.env.cbOut ∧ t.env.answers = s.env.answers := by
  obtain ⟨r, x, -, -, rfl⟩ := push_cases h
  split <;> simp

/-- The start of `locate`: at tail with a nonzero prefix there, or at 0. -/
theorem locateStart_cases {p : Nat} {r : Ring} {t : Nat} (h : locateStart p r = .next t) :
    (r.cap - r.tail < p ∧ t = 0) ∨
    (¬ r.cap - r.tail < p ∧ r.tail + p ≤ r.cap ∧ leNat (r.mem.readBytes r.tail p) = 0 ∧ t = 0) ∨
    (¬ r.cap - r.tail < p ∧ r.tail + p ≤ r.cap ∧ leNat (r.mem.readBytes r.tail p) ≠ 0 ∧ t = r.tail) := by
  unfold locateStart at h
  split at h
  · cases h; exact .inl ⟨‹_›, rfl⟩
  · obtain ⟨n, h1, h2⟩ := andThen_eq_next.mp h
    obtain ⟨h3, rfl⟩ := rdLen_eq_next.mp h1
    split at h2 <;> cases h2
    · exact .inr (.inl ⟨‹_›, h3, ‹_›, rfl⟩)
    · exact .inr (.inr ⟨‹_›, h3, ‹_›, rfl⟩)

/-- `locate` finds a frame only in a valid ring that is not empty, with a nonzero prefix and inside the data. -/
theorem locate_eq_some {p : Nat} {r : Ring} {t n : Nat} (h : locate p r = .next (some (t, n))) :
    r.valid = true ∧ r.head ≠ r.tail ∧ locateStart p r = .next t ∧ t + p ≤ r.cap ∧ n = leNat (r.mem.readBytes t p) ∧
      n ≠ 0 ∧ frameInside p r t n = true := by
  unfold locate at h
  split at h
  · cases h
  · split at h
    · cases h
    · rename_i hv he
      obtain ⟨t', h1, h2⟩ := andThen_eq_next.mp h
      obtain ⟨n', h3, h4⟩ := andThen_eq_next.mp h2
      obtain ⟨h5, rfl⟩ := rdLen_eq_next.mp h3
      split at h4
      · cases h4
      · split at h4
        · cases h4
          exact ⟨by simpa using hv, he, h1, h5, rfl, ‹_›, ‹_›⟩
        · cases h4

/-- A frame inside the data ends inside storage. -/
theorem frameInside_le_cap {p : Nat} {r : Ring} {t n : Nat} (h : frameInside p r t n = true) (hh : r.head ≤ r.cap) :
    t + p + n ≤ r.cap := by
  unfold frameInside at h
  split at h <;> simp only [decide_eq_true_eq] at h <;> omega

theorem locate_of_invalid {p : Nat} {r : Ring} (h : r.valid = false) : locate p r = .next none := by simp [locate, h]

theorem locate_of_empty {p : Nat} {r : Ring} (h : r.head = r.tail) : locate p r = .next none := by
  unfold locate; split <;> simp

/-- Peek is `locate` with the payload's offset. -/
theorem ringPeek_eq_some {p : Nat} {r : Ring} {n ptr : Nat} :
    ringPeek p r = .next (n, some ptr) ↔ ∃ t, locate p r = .next (some (t, n)) ∧ ptr = t + p := by
  unfold ringPeek
  rw [andThen_eq_next]
  constructor
  · rintro ⟨f, h1, h2⟩
    match f, h1, h2 with
    | some (t, k), h1, h2 => cases h2; exact ⟨t, h1, rfl⟩
    | none, _, h2 => cases h2
  · rintro ⟨t, h1, rfl⟩
    exact ⟨_, h1, rfl⟩

theorem ringPeek_eq_none {p : Nat} {r : Ring} {n : Nat} :
    ringPeek p r = .next (n, none) ↔ locate p r = .next none ∧ n = 0 := by
  unfold ringPeek
  rw [andThen_eq_next]
  constructor
  · rintro ⟨f, h1, h2⟩
    match f, h1, h2 with
    | some (t, k), _, h2 => cases h2
    | none, h1, h2 => cases h2; exact ⟨h1, rfl⟩
  · rintro ⟨h1, rfl⟩
    exact ⟨_, h1, rfl⟩

/-- The cases of pop: nothing there; the size query; a frame consumed. -/
theorem ringPop_cases {p k : Nat} {o : Bool} {r r' : Ring} {ret : Nat} {out : List Byte}
    (h : ringPop p o k r = .next (r', ret, out)) :
    (locate p r = .next none ∧ r' = r ∧ ret = 0 ∧ out = []) ∨
    ∃ t n, locate p r = .next (some (t, n)) ∧
      ((o = true ∧ k = 0 ∧ r' = r ∧ ret = n ∧ out = []) ∨
       (¬ (o = true ∧ k = 0) ∧ r' = { r with tail := (t + p + n) % r.cap } ∧ ret = (if o then min n k else 0) ∧
        t + p + ret ≤ r.cap ∧ out = r.mem.readBytes (t + p) ret)) := by
  unfold ringPop at h
  obtain ⟨f, h1, h2⟩ := andThen_eq_next.mp h
  match f, h1, h2 with
  | none, h1, h2 => cases h2; exact .inl ⟨h1, rfl, rfl, rfl⟩
  | some (t, n), h1, h2 =>
    refine .inr ⟨t, n, h1, ?_⟩
    simp only at h2
    split at h2
    · rename_i hq
      cases h2
      simp only [Bool.and_eq_true, decide_eq_true_eq] at hq
      exact .inl ⟨hq.1, hq.2, rfl, rfl, rfl⟩
    · rename_i hq
      obtain ⟨l, h3, h4⟩ := andThen_eq_next.mp h2
      obtain ⟨h5, rfl⟩ := memRead_eq_next.mp h3
      cases h4
      simp only [Bool.and_eq_true, decide_eq_true_eq] at hq
      exact .inr ⟨hq, rfl, rfl, h5, rfl⟩

/-- A pop moves at most the tail. -/
theorem ringPop_frame {p k : Nat} {o : Bool} {r r' : Ring} {ret : Nat} {out : List Byte}
    (h : ringPop p o k r = .next (r', ret, out)) : r' = { r with tail := r'.tail } := by
  obtain ⟨-, rfl, -⟩ | ⟨t, n, -, ⟨-, -, rfl, -⟩ | ⟨-, rfl, -⟩⟩ := ringPop_cases h <;> rfl

/-! ## Frames -/

theorem holdsFrames_nil {p : Nat} {r : Ring} : holdsFrames p r [] = true ↔ r.head = r.tail := by simp [holdsFrames]

theorem holdsFrames_cons {p : Nat} {r : Ring} {f : List Byte} {fs : List (List Byte)} :
    holdsFrames p r (f :: fs) = true ↔ ∃ t, locate p r = .next (some (t, f.length)) ∧
      (r.tail ≤ t ∨ r.head < r.tail) ∧ r.mem.readBytes (t + p) f.length = f ∧
      holdsFrames p (r.skip p t f.length) fs = true := by
  rw [holdsFrames]
  constructor
  · intro h
    split at h
    · rename_i t n hl
      simp only [Bool.and_eq_true, Bool.or_eq_true, decide_eq_true_eq] at h
      obtain ⟨⟨⟨h1, h2⟩, h3⟩, h4⟩ := h
      subst h1
      exact ⟨t, hl, h2, h3, h4⟩
    · cases h
  · rintro ⟨t, h1, h2, h3, h4⟩
    rw [h1]
    simp only [Bool.and_eq_true, Bool.or_eq_true, decide_eq_true_eq]
    exact ⟨⟨⟨trivial, h2⟩, h3⟩, h4⟩

end Sys2Proof.Machine
end

