-- ==== Sys2Proof/Laws/Consumer.lean ====
section
/-! SUPPORT. What the consumer's operations can do: the parsers' gate, the arms of dispatch, and the steps of a drain. -/

namespace Sys2Proof.Machine

/-! ## Operands -/

@[simp] theorem realignBytes_length (o : Nat) (l : List Byte) : (realignBytes o l).length = l.length := by
  induction l with
  | nil => rfl
  | cons b r ih =>
    cases r with
    | nil => rfl
    | cons c r => simp only [realignBytes, List.length_cons] at *; omega

@[simp] theorem realign_length (l : List Byte) (o : Nat) : (realign l o).length = l.length := by
  unfold realign; split <;> simp

/-! ## The gate -/

/-- Two outcomes: the record register and the event, or the condition. -/
theorem gate_cases (p : CrcParams) (c : Half) (tag : Byte) (r : Record) (m : List Byte) (s : State) :
    (c = p.residual ∧ gate p c tag r m s = ((s.setCons (storeRecord r s.cons)).emit tag r m, true)) ∨
    (c ≠ p.residual ∧ gate p c tag r m s = (s.raise (.crcFail tag c), false)) := by
  unfold gate crcOk
  by_cases h : c = p.residual
  · exact .inl ⟨h, by simp [h]⟩
  · exact .inr ⟨h, by simp [h]⟩

/-- A record register written leaves the staging buffer and the callback as they are. -/
@[simp] theorem storeRecord_stg (r : Record) (c : Consumer) : (storeRecord r c).stg = c.stg := by cases r <;> rfl
@[simp] theorem storeRecord_cbValid (r : Record) (c : Consumer) : (storeRecord r c).cbValid = c.cbValid := by cases r <;> rfl
@[simp] theorem storeRecord_cbHandle (r : Record) (c : Consumer) : (storeRecord r c).cbHandle = c.cbHandle := by cases r <;> rfl

/-- A parser changes the consumer part, `CB` and `DIAG` at most. -/
theorem gate_frame (p : CrcParams) (c : Half) (tag : Byte) (r : Record) (m : List Byte) (s : State) :
    (gate p c tag r m s).1.cfg = s.cfg ∧ (gate p c tag r m s).1.dec = s.dec ∧ (gate p c tag r m s).1.ring = s.ring ∧
    (gate p c tag r m s).1.cons.stg = s.cons.stg ∧ (gate p c tag r m s).1.env.drain = s.env.drain ∧
    (gate p c tag r m s).1.env.inbox = s.env.inbox ∧ (gate p c tag r m s).1.env.issuer = s.env.issuer ∧
    (gate p c tag r m s).1.env.answers = s.env.answers := by
  obtain ⟨-, h⟩ | ⟨-, h⟩ := gate_cases p c tag r m s <;> rw [h] <;> simp

/-- A parser used by dispatch changes what `gate` changes. -/
def ConsumerOnly (parse : List Byte → State → State × Bool) : Prop :=
  ∀ m s, (parse m s).1.cfg = s.cfg ∧ (parse m s).1.dec = s.dec ∧ (parse m s).1.ring = s.ring ∧
    (parse m s).1.cons.stg = s.cons.stg ∧ (parse m s).1.env.drain = s.env.drain ∧
    (parse m s).1.env.inbox = s.env.inbox ∧ (parse m s).1.env.issuer = s.env.issuer ∧
    (parse m s).1.env.answers = s.env.answers

theorem parseShort_consumerOnly : ConsumerOnly parseShort := fun _ _ => gate_frame ..
theorem parseExt_consumerOnly : ConsumerOnly parseExt := fun _ _ => gate_frame ..
theorem parseLong_consumerOnly : ConsumerOnly parseLong := fun _ _ => gate_frame ..

/-! ## Dispatch -/

/-- The two outcomes of an arm for a known tag; it neither faults nor refuses while a message fits the staging buffer. -/
theorem dispatchKnown_cases (tag : Byte) {len : Nat} (hl : len ≤ lenLong) (parse : List Byte → State → State × Bool)
    (n : Nat) (s : State) :
    ((n < hdrLen + len + 1 ∨ 7 < (stgByte s 5).toNat) ∧
      dispatchKnown tag len parse n s = .next (s.raise (.unknownType tag))) ∨
    (¬ (n < hdrLen + len + 1 ∨ 7 < (stgByte s 5).toNat) ∧
      dispatchKnown tag len parse n s = .next (parse
        ((realign (s.cons.stg.readBytes hdrLen (len + 1)) (stgByte s 5).toNat).take len)
        (s.setStg (s.cons.stg.writeBytes hdrLen
          (realign (s.cons.stg.readBytes hdrLen (len + 1)) (stgByte s 5).toNat)))).1) := by
  unfold dispatchKnown
  by_cases h : n < hdrLen + len + 1 ∨ 7 < (stgByte s 5).toNat
  · exact .inl ⟨h, by rw [if_pos h]⟩
  · refine .inr ⟨h, ?_⟩
    rw [if_neg h]
    have hb : hdrLen + (len + 1) ≤ stgLen := by simp only [hdrLen, stgLen, lenLong] at *; omega
    simp [memRead, memWrite, hb]

/-- An arm of dispatch always answers a next state. -/
theorem dispatchTag_cases (tag : Byte) (n : Nat) (s : State) :
    (tag = s.cfg.par.tagShort ∧ dispatchTag tag n s = dispatchKnown tag lenShort parseShort n s) ∨
    (tag = s.cfg.par.tagExt ∧ dispatchTag tag n s = dispatchKnown tag lenExt parseExt n s) ∨
    (tag = s.cfg.par.tagLong ∧ dispatchTag tag n s = dispatchKnown tag lenLong parseLong n s) ∨
    (tag ∉ [s.cfg.par.tagShort, s.cfg.par.tagExt, s.cfg.par.tagLong] ∧
      dispatchTag tag n s = .next (s.raise (.unknownType tag))) := by
  unfold dispatchTag
  by_cases h1 : tag = s.cfg.par.tagShort
  · rw [if_pos h1]; exact .inl ⟨h1, rfl⟩
  · by_cases h2 : tag = s.cfg.par.tagExt
    · rw [if_neg h1, if_pos h2]; exact .inr (.inl ⟨h2, rfl⟩)
    · by_cases h3 : tag = s.cfg.par.tagLong
      · rw [if_neg h1, if_neg h2, if_pos h3]; exact .inr (.inr (.inl ⟨h3, rfl⟩))
      · rw [if_neg h1, if_neg h2, if_neg h3]
        exact .inr (.inr (.inr ⟨by simp [h1, h2, h3], rfl⟩))

/-- Dispatch changes the consumer part, `CB` and `DIAG` at most, and always completes. -/
theorem dispatchTag_frame (tag : Byte) (n : Nat) (s : State) :
    ∃ t, dispatchTag tag n s = .next t ∧ t.cfg = s.cfg ∧ t.dec = s.dec ∧ t.ring = s.ring ∧
      t.env.drain = s.env.drain ∧ t.env.inbox = s.env.inbox ∧ t.env.issuer = s.env.issuer ∧
      t.env.answers = s.env.answers := by
  have known : ∀ {len parse}, len ≤ lenLong → ConsumerOnly parse →
      ∃ t, dispatchKnown tag len parse n s = .next t ∧ t.cfg = s.cfg ∧ t.dec = s.dec ∧ t.ring = s.ring ∧
        t.env.drain = s.env.drain ∧ t.env.inbox = s.env.inbox ∧ t.env.issuer = s.env.issuer ∧
        t.env.answers = s.env.answers := by
    intro len parse hl hp
    obtain ⟨-, h⟩ | ⟨-, h⟩ := dispatchKnown_cases tag hl parse n s
    · exact ⟨_, h, by simp⟩
    · obtain ⟨h1, h2, h3, -, h5, h6, h7, h8⟩ := hp
        ((realign (s.cons.stg.readBytes hdrLen (len + 1)) (stgByte s 5).toNat).take len)
        (s.setStg (s.cons.stg.writeBytes hdrLen
          (realign (s.cons.stg.readBytes hdrLen (len + 1)) (stgByte s 5).toNat)))
      exact ⟨_, h, h1, h2, h3, h5, h6, h7, h8⟩
  obtain ⟨-, h⟩ | ⟨-, h⟩ | ⟨-, h⟩ | ⟨-, h⟩ := dispatchTag_cases tag n s
  · rw [h]; exact known (by decide) parseShort_consumerOnly
  · rw [h]; exact known (by decide) parseExt_consumerOnly
  · rw [h]; exact known (by decide) parseLong_consumerOnly
  · exact ⟨_, h, by simp⟩

/-! ## The drain -/

/-- The peek of the loop: the drain ends, or the peeked frame is next. -/
theorem drainPeek_cases {s t : State} (h : drainPeek s = .next t) :
    (∃ n, ringPeek s.cfg.par.lenPrefix s.ring = .next (n, none) ∧ t = s.setDrain .idle) ∨
    ∃ n ptr, ringPeek s.cfg.par.lenPrefix s.ring = .next (n, some ptr) ∧ t = s.setDrain (.dispatch n ptr) := by
  unfold drainPeek at h
  obtain ⟨⟨n, x⟩, h1, h2⟩ := andThen_eq_next.mp h
  cases x with
  | none => cases h2; exact .inl ⟨n, h1, rfl⟩
  | some ptr => cases h2; exact .inr ⟨n, ptr, h1, rfl⟩

/-- The staging copy. -/
theorem stageFrame_eq_next {n ptr : Nat} {s t : State} (h : stageFrame n ptr s = .next t) :
    ptr + min n stgLen ≤ s.ring.cap ∧
      t = s.setStg (s.cons.stg.writeBytes 0 (s.ring.mem.readBytes ptr (min n stgLen))) := by
  unfold stageFrame at h
  obtain ⟨l, h1, h2⟩ := andThen_eq_next.mp h
  obtain ⟨m, h3, h4⟩ := andThen_eq_next.mp h2
  obtain ⟨h5, rfl⟩ := memRead_eq_next.mp h1
  obtain ⟨-, rfl⟩ := memWrite_eq_next.mp h3
  cases h4
  exact ⟨h5, rfl⟩

/-- The dispatch step: the copy, then the arm of the staged tag. -/
theorem dispatchFrame_eq_next {n ptr : Nat} {s t : State} :
    dispatchFrame n ptr s = .next t ↔ ∃ u, stageFrame n ptr s = .next u ∧ dispatchTag (stgByte u 0) n u = .next t :=
  andThen_eq_next

/-- The pop of the loop. -/
theorem drainPop_cases {s t : State} (h : drainPop s = .next t) :
    ∃ r ret out, ringPop s.cfg.par.lenPrefix false 0 s.ring = .next (r, ret, out) ∧ t = (s.setRing r).setDrain .peek := by
  unfold drainPop at h
  obtain ⟨⟨r, ret, out⟩, h1, h2⟩ := andThen_eq_next.mp h
  cases h2
  exact ⟨r, ret, out, h1, rfl⟩

/-- What the drain's next step is, by the consumer's place in the loop. -/
theorem drainStep_cases {s t : State} (h : drainStep s = .next t) :
    (s.env.drain = .idle ∧ t = s) ∨ (s.env.drain = .peek ∧ drainPeek s = .next t) ∨
    (∃ n ptr u, s.env.drain = .dispatch n ptr ∧ dispatchFrame n ptr s = .next u ∧ t = u.setDrain .pop) ∨
    (s.env.drain = .pop ∧ drainPop s = .next t) := by
  unfold drainStep at h
  split at h
  · cases h; exact .inl ⟨‹_›, rfl⟩
  · exact .inr (.inl ⟨‹_›, h⟩)
  · obtain ⟨u, h1, h2⟩ := andThen_eq_next.mp h
    cases h2
    exact .inr (.inr (.inl ⟨_, _, u, ‹_›, h1, rfl⟩))
  · exact .inr (.inr (.inr ⟨‹_›, h⟩))

end Sys2Proof.Machine
end

