-- ==== Sys2Proof/Laws/PerInstr.lean ====
section
/-! SUPPORT. Statements about every instruction as syntax, one lemma per constructor. -/

namespace Sys2Proof.Laws

/-- The first byte of the selector that spec/opcode_table.json gives a row: the ordinal of an operation, the top byte of a sync
entry's pattern, a tag. -/
def selectorByte : Instr → Byte
  | .processBit _ => 0x00
  | .syncMatch => 0x01
  | .rbInit _ _ => 0x02
  | .rbFreespace => 0x03
  | .rbPush _ => 0x04
  | .rbPeek => 0x05
  | .rbPop _ _ => 0x06
  | .rbOverflowcount => 0x07
  | .crcBch _ => 0x08
  | .crcCcitt _ => 0x09
  | .extractBits _ _ _ => 0x0A
  | .parseShort _ => 0x0B
  | .parseExt _ => 0x0C
  | .parseLong _ => 0x0D
  | .processMessages => 0x0E
  | .registerCallback _ => 0x0F
  | .syncLong => 0x55
  | .syncExt => 0x16
  | .syncShort => 0xF9
  | .tagNone _ => 0x00
  | .tagShort _ => 0x01
  | .tagExt _ => 0x02
  | .tagLong _ => 0x03

/-- The encoding of an instruction starts with its row's selector. -/
def SelectorByte.Statement (i : Instr) : Prop := (encode i).head? = some (selectorByte i)

theorem SelectorByte.processBit (bit : Bool) : SelectorByte.Statement (.processBit bit) := rfl
theorem SelectorByte.syncMatch : SelectorByte.Statement (.syncMatch) := rfl
theorem SelectorByte.rbInit (present : Bool) (capacity : Nat) : SelectorByte.Statement (.rbInit present capacity) := rfl
theorem SelectorByte.rbFreespace : SelectorByte.Statement (.rbFreespace) := rfl
theorem SelectorByte.rbPush (data : List Byte) : SelectorByte.Statement (.rbPush data) := rfl
theorem SelectorByte.rbPeek : SelectorByte.Statement (.rbPeek) := rfl
theorem SelectorByte.rbPop (outPresent : Bool) (maxSize : Nat) : SelectorByte.Statement (.rbPop outPresent maxSize) := rfl
theorem SelectorByte.rbOverflowcount : SelectorByte.Statement (.rbOverflowcount) := rfl
theorem SelectorByte.crcBch (data : List Byte) : SelectorByte.Statement (.crcBch data) := rfl
theorem SelectorByte.crcCcitt (data : List Byte) : SelectorByte.Statement (.crcCcitt data) := rfl
theorem SelectorByte.extractBits (buf : List Byte) (bitOffset bitLen : Nat) : SelectorByte.Statement (.extractBits buf bitOffset bitLen) := rfl
theorem SelectorByte.parseShort (m : List Byte) : SelectorByte.Statement (.parseShort m) := rfl
theorem SelectorByte.parseExt (m : List Byte) : SelectorByte.Statement (.parseExt m) := rfl
theorem SelectorByte.parseLong (m : List Byte) : SelectorByte.Statement (.parseLong m) := rfl
theorem SelectorByte.processMessages : SelectorByte.Statement (.processMessages) := rfl
theorem SelectorByte.registerCallback (handle : Nat) : SelectorByte.Statement (.registerCallback handle) := rfl
theorem SelectorByte.syncLong : SelectorByte.Statement (.syncLong) := rfl
theorem SelectorByte.syncExt : SelectorByte.Statement (.syncExt) := rfl
theorem SelectorByte.syncShort : SelectorByte.Statement (.syncShort) := rfl
theorem SelectorByte.tagNone (n : Nat) : SelectorByte.Statement (.tagNone n) := rfl
theorem SelectorByte.tagShort (n : Nat) : SelectorByte.Statement (.tagShort n) := rfl
theorem SelectorByte.tagExt (n : Nat) : SelectorByte.Statement (.tagExt n) := rfl
theorem SelectorByte.tagLong (n : Nat) : SelectorByte.Statement (.tagLong n) := rfl

end Sys2Proof.Laws
end

