-- ==== Sys2Proof/Laws/Producer.lean ====
section
/-! SUPPORT. What the producer's operations can do: one lemma for each stage of the sync detector and the bit decoder. -/

namespace Sys2Proof.Machine

/-- One entry: no match and nothing changed, or a match and one push of its captured frame. -/
theorem trySync_cases {e : SyncEntry} {b : Bool} {c : Nat} {now : Word} {s t : State} {hit : Bool}
    (h : trySync e b c now s = .next (t, hit)) :
    comparePos e c + 32 ≤ 8 * s.cfg.par.dbBytes ∧
    ((hit = false ∧ t = s ∧ syncHit e (BitVec.ofNat 32 (wireNat (s.dec.db b).read (comparePos e c) 32)) = false) ∨
     (hit = true ∧ syncHit e (BitVec.ofNat 32 (wireNat (s.dec.db b).read (comparePos e c) 32)) = true ∧
      comparePos e c / 8 + (e.len + 1) ≤ s.cfg.par.dbBytes ∧
      ∃ ok, push (frameHeader e.tag now (comparePos e c % 8) ++
        (s.dec.db b).readBytes (comparePos e c / 8) (e.len + 1)) s = .next (t, ok))) := by
  unfold trySync at h
  obtain ⟨w, h1, h2⟩ := andThen_eq_next.mp h
  obtain ⟨h3, rfl⟩ := word32_eq_next.mp h1
  refine ⟨h3, ?_⟩
  split at h2
  · obtain ⟨raw, h4, h5⟩ := andThen_eq_next.mp h2
    obtain ⟨h6, rfl⟩ := memRead_eq_next.mp h4
    obtain ⟨⟨u, ok⟩, h7, h8⟩ := andThen_eq_next.mp h5
    cases h8
    exact .inr ⟨rfl, ‹_›, h6, ok, h7⟩
  · rename_i hn
    cases h2
    exact .inl ⟨rfl, rfl, Bool.eq_false_iff.mpr hn⟩

/-- What a sync match can change: the ring and the port `DIAG`. -/
theorem trySync_frame {e : SyncEntry} {b : Bool} {c : Nat} {now : Word} {s t : State} {hit : Bool}
    (h : trySync e b c now s = .next (t, hit)) :
    t.cfg = s.cfg ∧ t.dec = s.dec ∧ t.cons = s.cons ∧ t.env.drain = s.env.drain ∧ t.env.inbox = s.env.inbox ∧
    t.env.issuer = s.env.issuer ∧ t.env.enable = s.env.enable ∧ t.env.now = s.env.now ∧
    t.env.started = s.env.started ∧ t.env.cbOut = s.env.cbOut ∧ t.env.answers = s.env.answers := by
  obtain ⟨-, ⟨-, rfl, -⟩ | ⟨-, -, -, ok, hp⟩⟩ := trySync_cases h
  · simp
  · exact push_frame hp

/-- The priority order: the state after the first entry that matches, or the state unchanged. -/
theorem syncMatch_cases {b : Bool} {c : Nat} {now : Word} {s t : State} (h : syncMatch b c now s = .next t) :
    trySync s.cfg.par.syncLong b c now s = .next (t, true) ∨
    (trySync s.cfg.par.syncLong b c now s = .next (s, false) ∧
      trySync s.cfg.par.syncExt b c now s = .next (t, true)) ∨
    (trySync s.cfg.par.syncLong b c now s = .next (s, false) ∧
      trySync s.cfg.par.syncExt b c now s = .next (s, false) ∧
      ∃ hit, trySync s.cfg.par.syncShort b c now s = .next (t, hit)) := by
  have same : ∀ {e u hit}, trySync e b c now s = .next (u, hit) → hit = false → u = s := by
    intro e u hit hu hf
    obtain ⟨-, ⟨-, rfl, -⟩ | ⟨ht, -⟩⟩ := trySync_cases hu
    · rfl
    · simp [hf] at ht
  unfold syncMatch at h
  obtain ⟨⟨u, x⟩, h1, h2⟩ := andThen_eq_next.mp h
  cases x
  · obtain rfl := same h1 rfl
    obtain ⟨⟨v, y⟩, h3, h4⟩ := andThen_eq_next.mp (by simpa using h2)
    cases y
    · obtain rfl := same h3 rfl
      obtain ⟨⟨w, z⟩, h5, h6⟩ := andThen_eq_next.mp (by simpa using h4)
      cases h6
      exact .inr (.inr ⟨h1, h3, z, h5⟩)
    · cases (by simpa using h4 : v = t)
      exact .inr (.inl ⟨h1, h3⟩)
  · cases (by simpa using h2 : u = t)
    exact .inl h1

theorem syncMatch_frame {b : Bool} {c : Nat} {now : Word} {s t : State} (h : syncMatch b c now s = .next t) :
    t.cfg = s.cfg ∧ t.dec = s.dec ∧ t.cons = s.cons ∧ t.env.drain = s.env.drain ∧ t.env.inbox = s.env.inbox ∧
    t.env.issuer = s.env.issuer ∧ t.env.enable = s.env.enable ∧ t.env.now = s.env.now ∧
    t.env.started = s.env.started ∧ t.env.cbOut = s.env.cbOut ∧ t.env.answers = s.env.answers := by
  obtain h | ⟨-, h⟩ | ⟨-, -, hit, h⟩ := syncMatch_cases h <;> exact trySync_frame h

/-- The inserted bit stands at the cursor in both windows. -/
theorem insertBit_eq_next {p : Params} {m m' : Memory} {c : Nat} {d : Bool} :
    insertBit p m c d = .next m' ↔
      c / 8 < p.dbBytes ∧ (c + p.wBits) / 8 < p.dbBytes ∧ m' = (m.setBit c d).setBit (c + p.wBits) d := by
  unfold insertBit
  rw [andThen_eq_next]
  constructor
  · rintro ⟨m1, h1, h2⟩
    obtain ⟨g1, rfl⟩ := writeBit_eq_next.mp h1
    obtain ⟨g2, rfl⟩ := writeBit_eq_next.mp h2
    exact ⟨g1, g2, rfl⟩
  · rintro ⟨g1, g2, rfl⟩
    exact ⟨_, writeBit_eq_next.mpr ⟨g1, rfl⟩, writeBit_eq_next.mpr ⟨g2, rfl⟩⟩

/-- Every wire bit of a buffer after an insertion. -/
theorem wireBit_inserted (m : Memory) (c w q : Nat) (d : Bool) :
    wireBit ((m.setBit c d).setBit (c + w) d).read q = if q = c ∨ q = c + w then d else wireBit m.read q := by
  rw [Memory.wireBit_setBit, Memory.wireBit_setBit]
  by_cases h1 : q = c + w
  · simp [h1]
  · by_cases h2 : q = c <;> simp [h1, h2]

/-- The parts of an accepted call: insertion, sync match, advance. -/
theorem acceptBit_eq_next {bit : Bool} {s t : State} (h : acceptBit bit s = .next t) :
    ∃ (m : Memory) (u : State), insertBit s.cfg.par (s.dec.db s.dec.phase) s.dec.cur (manchester s.dec.prev bit) = .next m ∧
      syncMatch s.dec.phase s.dec.cur s.env.now (s.setDec ({ s.dec with prev := bit }.setDb s.dec.phase m)) = .next u ∧
      t = u.setDec (advance s.cfg.par ({ s.dec with prev := bit }.setDb s.dec.phase m)) := by
  unfold acceptBit decodeAndInsert at h
  obtain ⟨d, h1, h2⟩ := andThen_eq_next.mp h
  obtain ⟨m, h3, h4⟩ := andThen_eq_next.mp h1
  obtain ⟨u, h5, h6⟩ := andThen_eq_next.mp h2
  cases h4
  cases h6
  have := syncMatch_frame h5
  refine ⟨m, u, h3, h5, ?_⟩
  rw [this.1, this.2.1]
  simp

end Sys2Proof.Machine
end

