-- ==== Sys2Proof/Tests/Slice0.lean ====
section
/-! SUPPORT. Tests: the well-formedness checks, decoding of hand-written words, the spec's own vectors one step at a time, and for every
statement with hypotheses a concrete state and operands that meet them. Expected results are taken from spec/; the source of each is
named beside it. -/

namespace Sys2Proof.Tests

set_option Elab.async false

open Sys2Proof.Machine

/-! ## Well-formedness: one ill-formed term for each check -/

theorem test_wf_capacity : (Instr.rbInit true (2 ^ 64)).wf = false := by decide
theorem test_wf_maxSize : (Instr.rbPop true (2 ^ 64)).wf = false := by decide
theorem test_wf_handle : (Instr.registerCallback (2 ^ 64)).wf = false := by decide
theorem test_wf_bitOffset : (Instr.extractBits [] (2 ^ 64) 1).wf = false := by decide
theorem test_wf_bitLen : (Instr.extractBits [] 0 (2 ^ 64)).wf = false := by decide
theorem test_wf_tagNone : (Instr.tagNone (2 ^ 64)).wf = false := by decide
theorem test_wf_tagShort : (Instr.tagShort (2 ^ 64)).wf = false := by decide
theorem test_wf_tagExt : (Instr.tagExt (2 ^ 64)).wf = false := by decide
theorem test_wf_tagLong : (Instr.tagLong (2 ^ 64)).wf = false := by decide
theorem test_wf_parseShort : (Instr.parseShort (List.replicate 11 0)).wf = false := by decide
theorem test_wf_parseExt : (Instr.parseExt (List.replicate 17 0)).wf = false := by decide
theorem test_wf_parseLong : (Instr.parseLong (List.replicate 91 0)).wf = false := by decide
theorem wf_data_of_long (l : List Byte) (h : 2 ^ 64 ≤ l.length) :
    bytesFit l = false := by simp only [bytesFit, natFits, decide_eq_false_iff_not]; omega
theorem test_wf_rbPush : (Instr.rbPush (List.replicate (2 ^ 64) 0)).wf = false :=
  wf_data_of_long _ (by rw [List.length_replicate])
theorem test_wf_crcBch : (Instr.crcBch (List.replicate (2 ^ 64) 0)).wf = false :=
  wf_data_of_long _ (by rw [List.length_replicate])
theorem test_wf_crcCcitt : (Instr.crcCcitt (List.replicate (2 ^ 64) 0)).wf = false :=
  wf_data_of_long _ (by rw [List.length_replicate])
theorem test_wf_extractBuf : (Instr.extractBits (List.replicate (2 ^ 64) 0) 0 1).wf = false := by
  simp only [Instr.wf, wf_data_of_long (List.replicate (2 ^ 64) (0 : Byte)) (by rw [List.length_replicate]), Bool.false_and]

/-! ## Decoding: words written out from spec/30_encoding.md R90, R93, R98 and spec/opcode_table.json -/

theorem test_decode_processBit : decode .op4 [0x00, 0x01, 0xAA] = .ok (.processBit true, [0xAA]) := by rfl
theorem test_decode_syncMatch : decode .op4 [0x01] = .ok (.syncMatch, []) := by rfl
theorem test_decode_rbInit : decode .op4 [0x02, 0x01, 0x00, 0x01, 0, 0, 0, 0, 0, 0] = .ok (.rbInit true 256, []) := by rfl
theorem test_decode_rbFreespace : decode .op4 [0x03] = .ok (.rbFreespace, []) := by rfl
theorem test_decode_rbPush : decode .op4 [0x04, 0x02, 0, 0, 0, 0, 0, 0, 0, 0xB1, 0xB2] = .ok (.rbPush [0xB1, 0xB2], []) := by rfl
theorem test_decode_rbPeek : decode .op4 [0x05] = .ok (.rbPeek, []) := by rfl
theorem test_decode_rbPop : decode .op4 [0x06, 0x01, 0x04, 0, 0, 0, 0, 0, 0, 0] = .ok (.rbPop true 4, []) := by rfl
theorem test_decode_rbOverflowcount : decode .op4 [0x07] = .ok (.rbOverflowcount, []) := by rfl
theorem test_decode_crcBch : decode .op4 [0x08, 0x01, 0, 0, 0, 0, 0, 0, 0, 0x02] = .ok (.crcBch [0x02], []) := by rfl
theorem test_decode_crcCcitt : decode .op4 [0x09, 0x01, 0, 0, 0, 0, 0, 0, 0, 0xFF] = .ok (.crcCcitt [0xFF], []) := by rfl
theorem test_decode_extractBits : decode .op4
    [0x0A, 0x01, 0, 0, 0, 0, 0, 0, 0, 0xA5, 0x03, 0, 0, 0, 0, 0, 0, 0, 0x05, 0, 0, 0, 0, 0, 0, 0] =
    .ok (.extractBits [0xA5] 3 5, []) := by rfl
theorem test_decode_parseShort : decode .op4 [0x0B, 1, 2, 3, 4, 5, 6, 7, 8, 9, 10, 11, 12] =
    .ok (.parseShort [1, 2, 3, 4, 5, 6, 7, 8, 9, 10, 11, 12], []) := by rfl
theorem test_decode_parseExt : decode .op4 [0x0C, 1, 2, 3, 4, 5, 6, 7, 8, 9, 10, 11, 12, 13, 14, 15, 16, 17] =
    .ok (.parseExt [1, 2, 3, 4, 5, 6, 7, 8, 9, 10, 11, 12, 13, 14, 15, 16], [17]) := by rfl
theorem test_decode_parseLong : decode .op4 (0x0D :: List.replicate 92 0x5A) = .ok (.parseLong (List.replicate 92 0x5A), []) := by
  rfl
theorem test_decode_processMessages : decode .op4 [0x0E] = .ok (.processMessages, []) := by rfl
theorem test_decode_registerCallback : decode .op4 [0x0F, 0x07, 0, 0, 0, 0, 0, 0, 0] = .ok (.registerCallback 7, []) := by rfl
theorem test_decode_syncLong : decode .sync32 [0x55, 0x55, 0x16, 0xA3] = .ok (.syncLong, []) := by rfl
theorem test_decode_syncExt : decode .sync32 [0x16, 0xA3, 0x1E, 0x9C] = .ok (.syncExt, []) := by rfl
theorem test_decode_syncShort : decode .sync32 [0xF9, 0x53, 0x07, 0xFF] = .ok (.syncShort, []) := by rfl
theorem test_decode_tagNone : decode .tag8 [0x00, 0x13, 0, 0, 0, 0, 0, 0, 0] = .ok (.tagNone 19, []) := by rfl
theorem test_decode_tagShort : decode .tag8 [0x01, 0x13, 0, 0, 0, 0, 0, 0, 0] = .ok (.tagShort 19, []) := by rfl
theorem test_decode_tagExt : decode .tag8 [0x02, 0x17, 0, 0, 0, 0, 0, 0, 0] = .ok (.tagExt 23, []) := by rfl
theorem test_decode_tagLong : decode .tag8 [0x03, 0x63, 0, 0, 0, 0, 0, 0, 0] = .ok (.tagLong 99, []) := by rfl
/-- spec/95_test_vectors.md V12: bit 11 of the SHORT pattern differs. -/
theorem test_decode_noSync : decode .sync32 [0xF9, 0x53, 0x08, 0x00] = .error .noSyncEntry := by rfl
theorem test_decode_noTag : decode .tag8 [0x04, 0, 0, 0, 0, 0, 0, 0, 0] = .error .noTag := by rfl
/-- spec/93_implementation_defined.md U1. -/
theorem test_decode_badSample : decode .op4 [0x00, 0x02] = .error .badSample := by rfl
theorem test_decode_badFlag : decode .op4 [0x02, 0x02, 0x10, 0, 0, 0, 0, 0, 0, 0] = .error .badFlag := by rfl
theorem test_decode_truncated : decode .op4 [0x0B, 1, 2, 3] = .error .truncated := by rfl
theorem test_table_op4 : decodeTableWord 8 0x3 = some .rbFreespace := by decide
theorem test_table_sync32 : decodeTableWord 32 0xF9530000 = some .syncShort := by decide

/-! ## Helpers -/

/-- The next state of an answer, if it is one. -/
def nextOf {α : Type} : Res α → Option α
  | .next a => some a
  | .fault _ => none
  | .refused _ => none

/-- A configuration with a window of four bytes, so that a whole window is short: the default patterns, masks and tags, messages of four
bytes (log entry 25). -/
def smallParams : Params := { defaultParams placeholderLongBLayout [0x18] with
  wBytes := 4
  syncLong := ⟨0x03, 0x555516A3, 0xFFFFFFFF, 0, 4⟩
  syncExt := ⟨0x02, 0x16A30000, 0xFFFF0000, 0, 4⟩
  syncShort := ⟨0x01, 0xF9530000, 0xFFFFF800, 0, 4⟩ }
theorem smallParams_ok : smallParams.ok = true := by decide
def smallCfg : Cfg := ⟨smallParams, smallParams_ok⟩

/-! ### Parameters that break a constraint of spec/00_scope.md R7 are no configuration (spec/93_implementation_defined.md U11) -/

theorem test_cfg_window : { smallParams with wBytes := 3 }.ok = false := by decide
theorem test_cfg_order : { smallParams with syncLong := smallParams.syncExt, syncExt := smallParams.syncLong }.ok = false := by decide
theorem test_cfg_tags : { smallParams with tagNone := 0x01 }.ok = false := by decide
theorem test_cfg_prefix : { smallParams with lenPrefix := 3 }.ok = false := by decide
theorem test_cfg_bchResidual : { smallParams with bch := ⟨0x6F63, 0x0000, 0x0001⟩ }.ok = false := by decide
theorem test_cfg_ccittResidual : { smallParams with ccitt := ⟨0x1021, 0xFFFF, 0x0000⟩ }.ok = false := by decide
theorem test_cfg_range : { smallParams with rangeShort := ⟨2, 12⟩ }.ok = false := by decide
theorem test_cfg_shortOverlap : { smallParams with short := { defaultShortLayout with rsv := 22 } }.ok = false := by decide
theorem test_cfg_shortPreamble : { smallParams with short := { defaultShortLayout with idHi := 0 } }.ok = false := by decide
theorem test_cfg_shortOutside : { smallParams with short := { defaultShortLayout with crc := 81 } }.ok = false := by decide
theorem test_cfg_longAOverlap : { smallParams with longA := { defaultLongALayout with deltaBit := 263 } }.ok = false := by decide
theorem test_cfg_longAOutside : { smallParams with longA := { defaultLongALayout with packetCrc := 91 } }.ok = false := by decide
theorem test_cfg_longBOverlap : { smallParams with longB := { placeholderLongBLayout with lastOff := 17 } }.ok = false := by decide
theorem test_cfg_longBOutside : { smallParams with longB := { placeholderLongBLayout with unknownOff := 13 } }.ok = false := by decide
/-- `interval_count` exchanged with the first byte of the body is a layout (log entry 26), but it lies in the body of shape B. -/
theorem test_cfg_bodyClear :
    let p := { smallParams with longA := { defaultLongALayout with moduleState := 13, intervalCount := 14 } }
    p.longA.ok = true ∧ p.longB.ok = true ∧ p.ok = false := by decide

/-- A state of the given parts, enabled. -/
def mk (c : Cfg) (d : Decoder) (r : Ring) (a : Agent) (dr : Drain) (inbox : List Event) : State :=
  ⟨c, d, r, Consumer.reset, { Env.reset with issuer := a, enable := true, drain := dr, inbox := inbox }⟩

/-- Byte list as a memory from address 0 on. -/
def mem (l : List Byte) : Memory := Memory.writeBytes [] 0 l

/-- A ring of 16 with the frames 11 22 33 and A1 .. A5 (spec/42_ring_buffer.md R197). -/
def ring16 : Ring := ⟨true, 16, 12, 0, 0, mem [3, 0, 0x11, 0x22, 0x33, 5, 0, 0xA1, 0xA2, 0xA3, 0xA4, 0xA5]⟩
/-- A ring of 10 whose only frame lies behind a sentinel (spec/95_test_vectors.md V32). -/
def ring10 : Ring := ⟨true, 10, 5, 8, 0, mem [3, 0, 0xE1, 0xE2, 0xE3, 0xD4, 0xD5, 0xD6, 0, 0]⟩
/-- Empty rings of 10 with head and tail at `k`. -/
def empty10 (k : Nat) : Ring := ⟨true, 10, k, k, 0, []⟩

/-- The parts of the ring's invariant that a list of frames witnesses. -/
def ringOk (c : Cfg) (r : Ring) (fs : List (List Byte)) : Bool :=
  r.mem.wf && decide (r.ovf < 2 ^ c.par.ovfBits) && decide (c.par.lenPrefix < r.cap) &&
  decide (r.cap ≤ 2 ^ (8 * c.par.lenPrefix)) && decide (r.head < r.cap) && decide (r.tail < r.cap) && r.valid &&
  holdsFrames c.par.lenPrefix r fs

theorem ringInv_of_ok {c : Cfg} {r : Ring} (fs : List (List Byte)) (h : ringOk c r fs = true) : RingInv c.par r := by
  simp only [ringOk, Bool.and_eq_true, decide_eq_true_eq] at h
  obtain ⟨⟨⟨⟨⟨⟨⟨h1, h2⟩, h3⟩, h4⟩, h5⟩, h6⟩, h7⟩, h8⟩ := h
  exact ⟨h1, h2, fun h => by simp [h7] at h, fun _ => ⟨h3, h4⟩, fun _ => h5, fun _ => h6, fun _ => ⟨fs, h8⟩⟩

theorem ringInv_reset (c : Cfg) : RingInv c.par Ring.reset :=
  ⟨rfl, Nat.two_pow_pos _, fun _ => ⟨rfl, rfl, rfl, rfl⟩, fun h => by simp [Ring.reset] at h, fun h => by simp [Ring.reset] at h,
    fun h => by simp [Ring.reset] at h, fun h => by simp [Ring.reset] at h⟩

theorem bufferInv_empty (p : Params) : BufferInv p [] := ⟨rfl, rfl, fun _ _ => by simp [wireBit, Memory.read]⟩

theorem consInv_reset : ConsumerInv Consumer.reset := ⟨rfl, rfl, by decide⟩

/-- The decoder part with empty buffers. -/
def dec (prev phase : Bool) (cur : Nat) : Decoder := ⟨prev, phase, cur, [], []⟩

theorem inv_mk {c : Cfg} {prev phase : Bool} {cur : Nat} {r : Ring} {a : Agent} {dr : Drain} {inbox : List Event}
    (hc : cur < c.par.wBits) (hr : RingInv c.par r) (hd : DrainInv c.par.lenPrefix r dr) :
    (mk c (dec prev phase cur) r a dr inbox).Inv :=
  ⟨⟨hc, bufferInv_empty _, bufferInv_empty _⟩, hr, consInv_reset, hd⟩

/-- A decoder part whose phase 1 window holds the given 32 bits at the oldest place. -/
def sync (l : List Byte) : Decoder := ⟨false, true, 31, [], mem (l ++ l)⟩

theorem inv_sync {l : List Byte} {r : Ring} {a : Agent} (hb : BufferInv smallCfg.par (mem (l ++ l)))
    (hr : RingInv smallCfg.par r) : (mk smallCfg (sync l) r a .idle []).Inv :=
  ⟨⟨by change 31 < 32; decide, bufferInv_empty _, hb⟩, hr, consInv_reset, trivial⟩

theorem buf_long : BufferInv smallCfg.par (mem [0x55, 0x55, 0x16, 0xA3, 0x55, 0x55, 0x16, 0xA3]) := ⟨by decide, by decide, by decide⟩
theorem buf_ext : BufferInv smallCfg.par (mem [0x16, 0xA3, 0x1E, 0x9C, 0x16, 0xA3, 0x1E, 0x9C]) := ⟨by decide, by decide, by decide⟩
theorem buf_short : BufferInv smallCfg.par (mem [0xF9, 0x53, 0x02, 0x4E, 0xF9, 0x53, 0x02, 0x4E]) := ⟨by decide, by decide, by decide⟩

theorem ring16_inv : RingInv smallCfg.par ring16 :=
  ringInv_of_ok [[0x11, 0x22, 0x33], [0xA1, 0xA2, 0xA3, 0xA4, 0xA5]] (by decide)
theorem ring10_inv : RingInv smallCfg.par ring10 := ringInv_of_ok [[0xE1, 0xE2, 0xE3]] (by decide)
theorem empty8_inv : RingInv smallCfg.par (empty10 8) := ringInv_of_ok [] (by decide)
theorem empty9_inv : RingInv smallCfg.par (empty10 9) := ringInv_of_ok [] (by decide)
theorem empty0_inv : RingInv smallCfg.par (empty10 0) := ringInv_of_ok [] (by decide)

/-- The messages V1 and V10 of spec/95_test_vectors.md. -/
def v1 : List Byte := [0xF9, 0x53, 0x02, 0x4E, 0x00, 0x30, 0x39, 0xF5, 0x19, 0x09, 0x11, 0xC7]
def v10 : List Byte := [0x16, 0xA3, 0x1E, 0x9C, 0x12, 0x34, 0x56, 0x78, 0x00, 0x01, 0xE2, 0x40, 0x48, 0x01, 0x47, 0x36]
/-- The message of spec/45_parsers.md R278. -/
def longA : List Byte :=
  [0x55, 0x55, 0x16, 0xA3, 0x1C, 0x5C, 0xC6, 0x01, 0x17, 0x01, 0x23, 0x45, 0x67, 0x2A, 0xBC, 0x01] ++
  [0x02, 0x03, 0x04, 0x05, 0x06, 0x01, 0x02, 0xA1, 0xA2, 0xA3, 0xA4, 0xA5, 0xA6, 0x00, 0x01, 0x23] ++
  [0x45, 0x01, 0x83, 0x83, 0x22, 0x41, 0x78, 0xE8, 0x8A, 0x50, 0x2D, 0x99, 0x8E, 0x27, 0xC4, 0x3A] ++
  [0x49, 0x3A, 0xA8, 0x59, 0xAF, 0x99, 0x2D, 0x46, 0xFB, 0xA9, 0xEB, 0x00, 0x85, 0xC5, 0xA4, 0x32] ++
  [0xC9, 0xBD, 0x0A, 0x9B, 0x58, 0xB1, 0xDB, 0xAF, 0x38, 0x4C, 0x7E, 0x6B, 0x4B, 0xB0, 0xDD, 0xF1] ++
  [0xBA, 0x3D, 0xCF, 0x3F, 0xCB, 0xFA, 0x01, 0x55, 0xAB, 0xCD, 0x65, 0xB1]
/-- The message of spec/45_parsers.md R279. -/
def longB : List Byte :=
  [0x55, 0x55, 0x16, 0xA3, 0x1C, 0x5C, 0xC6, 0x01, 0x18, 0x01, 0x23, 0x45, 0x67, 0x2A, 0xE0, 0xE1] ++
  [0xE2, 0xE3, 0x00, 0x01, 0xE2, 0x40, 0x00, 0x00, 0x2A, 0x00, 0x01, 0x00, 0x00, 0x12, 0xD6, 0x87] ++
  [0x00, 0x00, 0x00, 0x00, 0x00, 0x00, 0x01, 0x34, 0x2A, 0x61, 0x3F, 0xC7, 0x58, 0x26, 0xC4, 0xC0] ++
  [0xA3, 0x98, 0xD0, 0xBC, 0x4C, 0x55, 0x56, 0xE5, 0xF1, 0xDA, 0x20, 0x71, 0xE5, 0xED, 0x28, 0x4A] ++
  [0xE3, 0x84, 0x97, 0x76, 0x83, 0x6A, 0xA3, 0xEC, 0xE8, 0xBD, 0x07, 0x19, 0xAC, 0xFC, 0xF6, 0x4C] ++
  [0xE2, 0x97, 0xAF, 0xEF, 0x55, 0xC0, 0x01, 0x55, 0xAB, 0xCD, 0xBC, 0x50]

/-- A state with the callback 7 registered and nothing else after reset. -/
def withCb (s : State) : State := s.setCons { s.cons with cbValid := true, cbHandle := 7 }

/-! ## Instructions, one step each -/

/-- spec/40_manchester_decoder.md R130, worked example: bytes 0 and `W_BYTES` of the active buffer become 0x80, the cursor advances. -/
theorem test_processBit : (nextOf (exec (.processBit false) (mk smallCfg (dec true true 0) Ring.reset .prod .idle []))).map
    (fun t => ((t.dec.prev, t.dec.phase, t.dec.cur), t.dec.db0.readBytes 0 9, t.dec.db1.readBytes 0 9)) =
    some ((false, false, 1), [0, 0, 0, 0, 0, 0, 0, 0, 0], [0x80, 0, 0, 0, 0x80, 0, 0, 0, 0]) := by decide
/-- spec/40_manchester_decoder.md R135. -/
theorem test_processBit_disabled : (nextOf (exec (.processBit false)
    ((mk smallCfg (dec true true 0) Ring.reset .prod .idle []).setEnv { Env.reset with issuer := .prod }))).map
    (fun t => (t.dec.prev, t.dec.phase, t.dec.cur, t.dec.db1)) = some (true, true, 0, []) := by decide
/-- spec/41_sync_detector.md R152: a SHORT match at cursor 31 of a window of 32; header and raw bytes behind the prefix. -/
theorem test_syncMatch : (nextOf (exec .syncMatch
    (mk smallCfg (sync [0xF9, 0x53, 0x02, 0x4E]) ⟨true, 32, 0, 0, 0, []⟩ .prod .idle []))).map
    (fun t => (t.ring.head, t.ring.mem.readBytes 0 13)) =
    some (13, [11, 0, 0x01, 0, 0, 0, 0, 0, 0xF9, 0x53, 0x02, 0x4E, 0]) := by decide
/-- spec/41_sync_detector.md R158: a full ring counts the lost frame. -/
theorem test_syncMatch_overflow : (nextOf (exec .syncMatch
    (mk smallCfg (sync [0x55, 0x55, 0x16, 0xA3]) ⟨true, 13, 0, 0, 0, []⟩ .prod .idle []))).map
    (fun t => (t.ring.ovf, t.ring.head, t.env.diag)) = some (1, 0, [.ringOverflow 11]) := by decide
theorem test_syncLong : (nextOf (exec .syncLong
    (mk smallCfg (sync [0x55, 0x55, 0x16, 0xA3]) ⟨true, 32, 0, 0, 0, []⟩ .prod .idle []))).map
    (fun t => (t.ring.head, t.ring.mem.read 2)) = some (13, 0x03) := by decide
theorem test_syncExt : (nextOf (exec .syncExt
    (mk smallCfg (sync [0x16, 0xA3, 0x1E, 0x9C]) ⟨true, 32, 0, 0, 0, []⟩ .prod .idle []))).map
    (fun t => (t.ring.head, t.ring.mem.read 2)) = some (13, 0x02) := by decide
theorem test_syncShort_miss : (nextOf (exec .syncShort
    (mk smallCfg (sync [0x16, 0xA3, 0x1E, 0x9C]) ⟨true, 32, 0, 0, 0, []⟩ .prod .idle []))).map
    (fun t => (t.ring.head, t.ring.mem)) = some (0, []) := by decide
/-- spec/42_ring_buffer.md R172, spec/95_test_vectors.md V36. -/
theorem test_rbInit : (nextOf (exec (.rbInit true 16) (mk smallCfg (dec false false 0) ring16 .host .idle []))).map
    (fun t => (t.ring, t.env.answers)) = some (⟨true, 16, 0, 0, 0, []⟩, [.init true]) := by decide
theorem test_rbInit_small : (nextOf (exec (.rbInit true 2) (mk smallCfg (dec false false 0) ring16 .host .idle []))).map
    (fun t => (t.ring.valid, t.ring.cap, t.ring.head, t.env.answers)) = some (false, 0, 0, [.init false]) := by decide
/-- spec/42_ring_buffer.md R176, spec/95_test_vectors.md V35. -/
theorem test_freeSpace : ([(0, 0), (5, 0), (13, 0), (14, 0), (8, 8), (12, 8), (15, 8), (15, 15), (3, 8), (5, 8), (0, 8), (0, 15), (7, 3), (15, 1)].map
    fun (h, t) => freeSpace 2 ⟨true, 16, h, t, 0, []⟩) = [13, 8, 0, 0, 6, 5, 5, 12, 2, 0, 5, 12, 7, 0] := by decide
/-- spec/42_ring_buffer.md R180, worked example: exact fit, the head wraps to 0. -/
theorem test_rbPush_exactFit : (nextOf (exec (.rbPush [0xB1, 0xB2])
    (mk smallCfg (dec false false 0) ⟨true, 16, 12, 5, 0, []⟩ .prod .idle []))).map
    (fun t => (t.ring, t.env.answers)) = some (⟨true, 16, 0, 5, 0, [(12, 2), (14, 0xB1), (15, 0xB2)]⟩, [.push true]) := by decide
/-- spec/95_test_vectors.md V32: a sentinel at 8, the frame at 0. -/
theorem test_rbPush_sentinel : (nextOf (exec (.rbPush [0xE1, 0xE2, 0xE3])
    (mk smallCfg (dec false false 0) ⟨true, 10, 8, 8, 0, mem [6, 0, 0xD1, 0xD2, 0xD3, 0xD4, 0xD5, 0xD6, 7, 7]⟩ .prod .idle []))).map
    (fun t => (t.ring.head, t.ring.mem.readBytes 0 10)) =
    some (5, [3, 0, 0xE1, 0xE2, 0xE3, 0xD4, 0xD5, 0xD6, 0, 0]) := by decide
/-- spec/95_test_vectors.md V32: the prefix at the tail is the sentinel. -/
theorem test_rbPeek_sentinel : (nextOf (exec .rbPeek (mk smallCfg (dec false false 0) ring10 .cons .idle []))).map
    (fun t => t.env.answers) = some [.peek 3 (some 2)] := by decide
theorem test_rbPeek : (nextOf (exec .rbPeek (mk smallCfg (dec false false 0) ring16 .cons .idle []))).map
    (fun t => t.env.answers) = some [.peek 3 (some 2)] := by decide
/-- spec/42_ring_buffer.md R189, worked example: two of three bytes copied, the frame consumed. -/
theorem test_rbPop : (nextOf (exec (.rbPop true 2) (mk smallCfg (dec false false 0) ring16 .cons .idle []))).map
    (fun t => (t.ring.tail, t.env.answers)) = some (5, [.pop 2 [0x11, 0x22]]) := by decide
theorem test_rbPop_query : (nextOf (exec (.rbPop true 0) (mk smallCfg (dec false false 0) ring16 .cons .idle []))).map
    (fun t => (t.ring.tail, t.env.answers)) = some (0, [.pop 3 []]) := by decide
/-- spec/42_ring_buffer.md R192. -/
theorem test_rbOverflowcount : (nextOf (exec .rbOverflowcount
    (mk smallCfg (dec false false 0) { ring16 with ovf := 2 } .cons .idle []))).map
    (fun t => (t.ring.ovf, t.env.answers)) = some (0, [.overflowCount 2]) := by decide
/-- spec/95_test_vectors.md V27: table entries and check values. -/
theorem test_table_bch : ([0, 1, 2, 3, 4, 5, 6, 7, 0x90, 0xFF].map (crcTable 0x6F63)) =
    [0x0000, 0x6F63, 0xDEC6, 0xB1A5, 0xD2EF, 0xBD8C, 0x0C29, 0x634A, 0x499B, 0x22FC] := by decide
theorem test_table_ccitt : ([0, 1, 2, 3, 4, 5, 6, 7, 0xFF].map (crcTable 0x1021)) =
    [0x0000, 0x1021, 0x2042, 0x3063, 0x4084, 0x50A5, 0x60C6, 0x70E7, 0x1EF0] := by decide
theorem test_crcBch : (nextOf (exec (.crcBch [0x31, 0x32, 0x33, 0x34, 0x35, 0x36, 0x37, 0x38, 0x39])
    (mk smallCfg (dec false false 0) Ring.reset .cons .idle []))).map (fun t => t.env.answers) = some [.crc 0xBDF4 false] := by decide
theorem test_crcCcitt : (nextOf (exec (.crcCcitt [0x31, 0x32, 0x33, 0x34, 0x35, 0x36, 0x37, 0x38, 0x39, 0xD6, 0x4E])
    (mk smallCfg (dec false false 0) Ring.reset .cons .idle []))).map (fun t => t.env.answers) = some [.crc 0x1D0F true] := by decide
/-- spec/44_field_extractor.md R235: a field over five bytes, and a request past the end. -/
theorem test_extractBits : (nextOf (exec (.extractBits [0xA5, 0x3C, 0xF0, 0x0F, 0x81] 5 32)
    (mk smallCfg (dec false false 0) Ring.reset .cons .idle []))).map (fun t => t.env.answers) = some [.extract 0xA79E01F0] := by decide
theorem test_extractBits_values : ([(0, 1), (1, 1), (39, 1), (4, 8), (12, 9), (7, 9), (3, 14), (8, 32), (9, 32), (0, 0), (0, 33), (40, 1)].map
    fun (o, l) => extractBits [0xA5, 0x3C, 0xF0, 0x0F, 0x81] o l) =
    [some 1, some 0, some 1, some 0x53, some 0x19E, some 0x13C, some 0xA79, some 0x3CF00F81, none, none, none, none] := by decide
/-- spec/45_parsers.md R246, worked example. -/
theorem test_parseShort : (nextOf (exec (.parseShort v1) (withCb (mk Cfg.examples (dec false false 0) Ring.reset .cons .idle [])))).map
    (fun t => (t.cons.recShort, t.env.cbOut, t.env.answers)) =
    some (⟨32839945, 0, 1, 3, 2, 12345, 0x11C7⟩, [⟨7, 0x01, .short ⟨32839945, 0, 1, 3, 2, 12345, 0x11C7⟩, v1⟩], [.accepted true]) := by
  decide
/-- spec/45_parsers.md R247 (e): the last bit flipped. -/
theorem test_parseShort_rejects : (nextOf (exec (.parseShort (flipWireBit v1 95))
    (withCb (mk Cfg.examples (dec false false 0) Ring.reset .cons .idle [])))).map
    (fun t => (t.cons.recShort, t.env.cbOut, t.env.diag, t.env.answers)) =
    some (ShortRecord.zero, [], [.crcFail 0x01 0x6F63], [.accepted false]) := by decide
/-- spec/45_parsers.md R250, worked example. -/
theorem test_parseExt : (nextOf (exec (.parseExt v10) (mk Cfg.examples (dec false false 0) Ring.reset .cons .idle []))).map
    (fun t => (t.cons.recExt, t.env.cbOut, t.env.answers)) =
    some (⟨0x16A3, 0x1E, 0x9C, 305419896, 123456, 0x4801, 0x4736⟩, [], [.accepted true]) := by decide +kernel
/-- spec/45_parsers.md R278: the acceptance and some fields of shape A, the first and the last deltas. -/
theorem test_parseLong_accepts : (nextOf (exec (.parseLong longA) (mk Cfg.examples (dec false false 0) Ring.reset .cons .idle []))).map
    (fun t => (t.cons.recLong.serial, t.cons.recLong.txTimeOffset, t.env.answers)) =
    some (0x01234567, 0x0155, [.accepted true]) := by decide +kernel
theorem test_parseLong_a : (match (longRecord Cfg.examples.par longA).shape with
    | .a x => (x.moduleState, x.asyncCounter, x.lastConsumption, x.delta.take 3, x.delta.drop 46)
    | .b _ => (0, 0, 0, [], [])) = (0xBC, 0x0102, 74565, [3, 14, 25], [509]) := by rfl
/-- spec/45_parsers.md R279: some fields of shape B, the first and the last deltas. -/
theorem test_parseLong_b : (match (longRecord Cfg.examples.par longB).shape with
    | .b x => (x.unknown, x.lastConsumption, x.excess, x.residual, x.hiresConsumption, x.delta.take 2, x.delta.drop 26)
    | .a _ => ([], 0, 0, 0, 0, [], [])) = ([0xE0, 0xE1, 0xE2, 0xE3], 123456, 42, 256, 1234567, [77, 678], [15703]) := by rfl
/-- spec/46_dispatch.md R284: the first peek. -/
theorem test_processMessages : (nextOf (exec .processMessages (mk smallCfg (dec false false 0) ring16 .cons .idle []))).map
    (fun t => (t.env.drain, t.env.started, t.ring.tail)) = some (.dispatch 3 2, true, 0) := by decide
theorem test_processMessages_empty : (nextOf (exec .processMessages (mk smallCfg (dec false false 0) Ring.reset .cons .idle []))).map
    (fun t => (t.env.drain, t.env.started)) = some (.idle, true) := by decide
/-- spec/46_dispatch.md R292, worked example. -/
theorem test_registerCallback : (nextOf (exec (.registerCallback 9) (withCb (mk smallCfg (dec false false 0) Ring.reset .cons .idle [])))).map
    (fun t => (t.cons.cbValid, t.cons.cbHandle)) = some (true, 9) := by decide
theorem test_registerCallback_prod :
    nextOf (exec (.registerCallback 9) (mk smallCfg (dec false false 0) Ring.reset .prod .idle [])) = none := by decide
/-- spec/46_dispatch.md R282, spec/95_test_vectors.md V25. -/
theorem test_realign : ([0, 1, 3, 7].map (realign [0x1F, 0x2A, 0x60, 0x9C, 0xFF])) =
    [[0x1F, 0x2A, 0x60, 0x9C, 0xFF], [0x3E, 0x54, 0xC1, 0x39, 0xFE], [0xF9, 0x53, 0x04, 0xE7, 0xF8], [0x95, 0x30, 0x4E, 0x7F, 0x80]] := by decide

/-- A state whose staging buffer holds the given frame. -/
def staged (f : List Byte) : State := (withCb (mk Cfg.examples (dec false false 0) Ring.reset .cons .idle [])).setStg (mem f)

/-- spec/95_test_vectors.md V29: tag NONE; a frame one byte short; a bit offset of 8; a good frame. -/
theorem test_tagNone : (nextOf (exec (.tagNone 19) (staged ([0, 0, 0, 0, 0, 0] ++ v1 ++ [0])))).map
    (fun t => (t.env.diag, t.env.cbOut)) = some ([.unknownType 0x00], []) := by decide
theorem test_tagShort_short : (nextOf (exec (.tagShort 18) (staged ([1, 0, 0, 0, 0, 0] ++ v1)))).map
    (fun t => (t.env.diag, t.env.cbOut)) = some ([.unknownType 0x01], []) := by decide
theorem test_tagShort_bitoff : (nextOf (exec (.tagShort 19) (staged ([1, 0, 0, 0, 0, 8] ++ v1 ++ [0])))).map
    (fun t => (t.env.diag, t.env.cbOut)) = some ([.unknownType 0x01], []) := by decide
theorem test_tagShort : (nextOf (exec (.tagShort 19) (staged ([1, 0, 0, 0, 0, 0] ++ v1 ++ [0])))).map
    (fun t => (t.env.diag, t.env.cbOut)) = some ([], [⟨7, 0x01, .short ⟨32839945, 0, 1, 3, 2, 12345, 0x11C7⟩, v1⟩]) := by decide
/-- spec/46_dispatch.md R295: realigned by 6. -/
theorem test_tagExt : (nextOf (exec (.tagExt 23) (staged
    [0x02, 0xDE, 0xAD, 0xBE, 0xEF, 0x06, 0x00, 0x5A, 0x8C, 0x7A, 0x70, 0x48, 0xD1, 0x59, 0xE0, 0x00, 0x07, 0x89, 0x01, 0x20, 0x05, 0x1C, 0xD8]))).map
    (fun t => (t.env.diag, t.env.cbOut.map fun e => (e.handle, e.tag, e.raw))) = some ([], [(7, 0x02, v10)]) := by decide +kernel
theorem test_tagLong : (nextOf (exec (.tagLong 99) (staged ([3, 0, 0, 0, 0, 0] ++ longA ++ [0])))).map
    (fun t => (t.env.diag, t.env.cbOut.map fun e => (e.tag, e.raw))) = some ([], [(0x03, longA)]) := by decide +kernel
/-- The host's probe: the word of RB_FREESPACE run as the first instruction after reset. -/
theorem test_fetch : (nextOf (step (State.reset.withFetchWord 8 0x3))).map (fun t => t.env.answers) = some [.freeSpace 0] := by decide
theorem test_fetch_sync : (nextOf (step (State.reset.withFetchWord 32 0xF9530000))).map (fun t => (t.env.issuer, t.env.inbox)) =
    some (.prod, []) := by decide

/-! ## Witnesses: for each statement with hypotheses, states and operands that meet them, each clause at a boundary of its range -/

/-- A state of the small configuration with the decoder at its reset state. -/
def base (r : Ring) (a : Agent) (dr : Drain) (inbox : List Event) : State := mk smallCfg (dec false false 0) r a dr inbox

theorem inv_base {r : Ring} {a : Agent} {dr : Drain} {inbox : List Event} (hr : RingInv smallCfg.par r)
    (hd : DrainInv smallCfg.par.lenPrefix r dr) : (base r a dr inbox).Inv :=
  inv_mk (by change 0 < 32; decide) hr hd

/-- PROD at a given place of the alignment buffers. -/
def prodAt (prev phase : Bool) (cur : Nat) : State := mk smallCfg (dec prev phase cur) ring16 .prod .idle []

theorem inv_prodAt {prev phase : Bool} {cur : Nat} (h : cur < 32) : (prodAt prev phase cur).Inv := inv_mk h ring16_inv trivial

/-- A state with one sync word in the active window, and the ring of `r`. -/
def syncAt (l : List Byte) (r : Ring) : State := mk smallCfg (sync l) r .prod .idle []

/-- The frames of `ring16`. -/
def frames16 : List (List Byte) := [[0x11, 0x22, 0x33], [0xA1, 0xA2, 0xA3, 0xA4, 0xA5]]

theorem witness_DisabledSampleChangesNothing :
    let s := (prodAt true true 31).setEnv { (prodAt true true 31).env with enable := false }
    s.env.issuer = .prod ∧ s.env.enable = false := by decide

/-- Both phases; the first and the last cursor. For the four statements about one accepted sample or two. -/
theorem witness_AcceptedSample :
    ((prodAt false false 0).Inv ∧ (prodAt false false 0).env.issuer = .prod ∧ (prodAt false false 0).env.enable = true ∧
      (prodAt false false 0).dec.phase = false) ∧
    ((prodAt true true 31).Inv ∧ (prodAt true true 31).env.issuer = .prod ∧ (prodAt true true 31).env.enable = true ∧
      (prodAt true true 31).dec.cur + 1 = (prodAt true true 31).cfg.par.wBits) ∧
    ((prodAt true false 31).Inv ∧ (prodAt true false 31).dec.phase = false) :=
  ⟨⟨inv_prodAt (by decide), rfl, rfl, rfl⟩, ⟨inv_prodAt (by decide), rfl, rfl, rfl⟩, inv_prodAt (by decide), rfl⟩

/-- A stream that fills both windows exactly: calls 0 and 63 both still stand; with one sample more call 0 does not. -/
theorem witness_StreamView : (base ring16 .prod .idle []).Inv ∧ (base ring16 .prod .idle []).dec = Decoder.reset ∧
    (base ring16 .prod .idle []).env.issuer = .prod ∧ (base ring16 .prod .idle []).env.enable = true ∧
    (List.replicate 64 true).length ≤ 0 + 2 * (base ring16 .prod .idle []).cfg.par.wBits ∧ 63 < (List.replicate 64 true).length ∧
    ¬ (List.replicate 65 true).length ≤ 0 + 2 * (base ring16 .prod .idle []).cfg.par.wBits :=
  ⟨inv_base ring16_inv trivial, rfl, rfl, rfl, by decide, by decide, by decide⟩

theorem witness_ManchesterStreamDecodes : (base ring16 .prod .idle []).Inv ∧ (base ring16 .prod .idle []).dec = Decoder.reset ∧
    (base ring16 .prod .idle []).env.issuer = .prod ∧ (base ring16 .prod .idle []).env.enable = true ∧
    (List.replicate 32 true).length = (base ring16 .prod .idle []).cfg.par.wBits ∧ 31 < (List.replicate 32 true).length ∧
    30 + 1 < (List.replicate 32 true).length := ⟨inv_base ring16_inv trivial, rfl, rfl, rfl, rfl, by decide, by decide⟩

/-- A state with one sample waiting. -/
def sampling : State := base ring16 .prod .idle [.port .prod .op4 [0x00, 0x01]]
theorem inv_sampling : sampling.Inv := inv_base ring16_inv trivial
/-- For the statements about a step that answers a next state. -/
theorem witness_step_next : DecoderInv sampling.cfg.par sampling.dec ∧ sampling.Inv ∧ (∃ t, step sampling = .next t ∧ t.ring.valid = true ∧
    ringPeek t.cfg.par.lenPrefix t.ring = .next (3, some 2)) ∧ (5 : Nat) < sampling.cfg.par.wBits :=
  ⟨inv_sampling.dec, inv_sampling, ⟨_, rfl, rfl, rfl⟩, by decide⟩

theorem inv_syncAt_long {r : Ring} (hr : RingInv smallCfg.par r) : (syncAt [0x55, 0x55, 0x16, 0xA3] r).Inv := inv_sync buf_long hr
theorem inv_syncAt_ext {r : Ring} (hr : RingInv smallCfg.par r) : (syncAt [0x16, 0xA3, 0x1E, 0x9C] r).Inv := inv_sync buf_ext hr
theorem inv_syncAt_short {r : Ring} (hr : RingInv smallCfg.par r) : (syncAt [0xF9, 0x53, 0x02, 0x4E] r).Inv := inv_sync buf_short hr

/-- For the compare word and the captured frame: each entry, the cursor at its last value (an aligned window) and in the middle of a byte. -/
theorem witness_CompareWord :
    ((syncAt [0x55, 0x55, 0x16, 0xA3] ring16).Inv ∧
      smallCfg.par.syncLong ∈ [smallCfg.par.syncLong, smallCfg.par.syncExt, smallCfg.par.syncShort] ∧
      smallCfg.par.syncExt ∈ [smallCfg.par.syncLong, smallCfg.par.syncExt, smallCfg.par.syncShort] ∧
      smallCfg.par.syncShort ∈ [smallCfg.par.syncLong, smallCfg.par.syncExt, smallCfg.par.syncShort] ∧
      comparePos smallCfg.par.syncLong 31 % 8 = 0) ∧
    (prodAt false true 6).Inv ∧ comparePos smallCfg.par.syncLong 6 % 8 = 7 ∧ 31 < 8 * smallCfg.par.syncLong.len :=
  ⟨⟨inv_syncAt_long ring16_inv, by decide, by decide, by decide, by decide⟩, inv_prodAt (by decide), by decide, by decide⟩

theorem witness_SyncMatch_none : (prodAt false true 31).Inv ∧ (prodAt false true 31).env.issuer = .prod ∧
    firstHit (prodAt false true 31) = none := ⟨inv_prodAt (by decide), rfl, by decide⟩
theorem witness_SyncMatch_long : (syncAt [0x55, 0x55, 0x16, 0xA3] ring16).Inv ∧ (syncAt [0x55, 0x55, 0x16, 0xA3] ring16).env.issuer = .prod ∧
    firstHit (syncAt [0x55, 0x55, 0x16, 0xA3] ring16) = some smallCfg.par.syncLong := ⟨inv_syncAt_long ring16_inv, rfl, by decide⟩
theorem witness_SyncMatch_ext : (syncAt [0x16, 0xA3, 0x1E, 0x9C] ring16).Inv ∧ (syncAt [0x16, 0xA3, 0x1E, 0x9C] ring16).env.issuer = .prod ∧
    firstHit (syncAt [0x16, 0xA3, 0x1E, 0x9C] ring16) = some smallCfg.par.syncExt := ⟨inv_syncAt_ext ring16_inv, rfl, by decide⟩
theorem witness_SyncMatch_short : (syncAt [0xF9, 0x53, 0x02, 0x4E] ring16).Inv ∧ (syncAt [0xF9, 0x53, 0x02, 0x4E] ring16).env.issuer = .prod ∧
    firstHit (syncAt [0xF9, 0x53, 0x02, 0x4E] ring16) = some smallCfg.par.syncShort := ⟨inv_syncAt_short ring16_inv, rfl, by decide⟩
/-- Each entry alone, on a window it matches and on one it does not (with the invariants of the theorems above). -/
theorem witness_SyncEntrySteps :
    (let s := syncAt [0x55, 0x55, 0x16, 0xA3] ring16
     compareWord s.cfg.par.syncLong s &&& s.cfg.par.syncLong.mask = s.cfg.par.syncLong.pattern ∧
     compareWord s.cfg.par.syncExt s &&& s.cfg.par.syncExt.mask ≠ s.cfg.par.syncExt.pattern ∧
     compareWord s.cfg.par.syncShort s &&& s.cfg.par.syncShort.mask ≠ s.cfg.par.syncShort.pattern) ∧
    (let s := syncAt [0x16, 0xA3, 0x1E, 0x9C] ring16
     compareWord s.cfg.par.syncLong s &&& s.cfg.par.syncLong.mask ≠ s.cfg.par.syncLong.pattern ∧
     compareWord s.cfg.par.syncExt s &&& s.cfg.par.syncExt.mask = s.cfg.par.syncExt.pattern) ∧
    (let s := syncAt [0xF9, 0x53, 0x02, 0x4E] ring16
     compareWord s.cfg.par.syncShort s &&& s.cfg.par.syncShort.mask = s.cfg.par.syncShort.pattern) := by decide

theorem witness_DefaultPatternsExclusive : syncHit defaultSyncLong 0x555516A3 = true ∧ syncHit defaultSyncExt 0x16A31E9C = true := by decide

/-- The least and the greatest capacity of a success, and the three ways to fail. -/
theorem witness_RingInitResult :
    let s := base ring16 .host .idle []
    let good := fun (present : Bool) (capacity : Nat) =>
      present = true ∧ s.cfg.par.lenPrefix < capacity ∧ capacity ≤ 2 ^ (8 * s.cfg.par.lenPrefix)
    s.env.issuer = .host ∧ s.env.drain = .idle ∧ good true 3 ∧ good true 65536 ∧ ¬ good true 2 ∧ ¬ good true 65537 ∧ ¬ good false 16 :=
  ⟨rfl, rfl, by decide, by decide, by decide, by decide, by decide⟩

theorem witness_FreeSpaceIsLargerRegion :
    ((base Ring.reset .prod .idle []).env.issuer ∈ [Agent.prod, Agent.cons] ∧ (base Ring.reset .prod .idle []).ring.valid = false) ∧
    ((base (empty10 8) .cons .idle []).env.issuer ∈ [Agent.prod, Agent.cons] ∧ (base (empty10 8) .cons .idle []).ring.valid = true ∧
      (empty10 8).tail ≤ (empty10 8).head) ∧
    ((base ring10 .prod .idle []).ring.valid = true ∧ ring10.head < ring10.tail) := by decide

/-- No payload; an invalid ring; one byte more than the free space. -/
theorem witness_PushFailures :
    ((base ring16 .prod .idle []).env.issuer = .prod ∧ ([] : List Byte).length = 0) ∧
    (0 < ([1] : List Byte).length ∧ (base Ring.reset .prod .idle []).ring.valid = false) ∧
    (0 < ([1, 2] : List Byte).length ∧ (base ring16 .prod .idle []).ring.valid = true ∧
      freeSpace (base ring16 .prod .idle []).cfg.par.lenPrefix ring16 + 1 = ([1, 2] : List Byte).length) := by decide

/-- The ring of the worked example of R180: the frame A1 .. A5 from 5 on; two bytes fit exactly. -/
def ringExact : Ring := { ring16 with tail := 5 }
theorem ringExact_inv : RingInv smallCfg.par ringExact := ringInv_of_ok [[0xA1, 0xA2, 0xA3, 0xA4, 0xA5]] (by decide)

/-- The right region to its last byte; behind a sentinel with the greatest size; at the start without room for a sentinel. For the three
statements about a push that fits. -/
theorem witness_PushFits :
    ((base ringExact .prod .idle []).Inv ∧ ringExact.valid = true ∧ (2 : Int) ≤ (regions 2 12 5 16).1 ∧ 2 ≤ freeSpace 2 ringExact ∧
      holdsFrames 2 ringExact [[0xA1, 0xA2, 0xA3, 0xA4, 0xA5]] = true) ∧
    ((base (empty10 8) .prod .idle []).Inv ∧ (empty10 8).valid = true ∧ ¬ (5 : Int) ≤ (regions 2 8 8 10).1 ∧ 5 = freeSpace 2 (empty10 8) ∧
      2 ≤ 10 - 8 ∧ holdsFrames 2 (empty10 8) [] = true) ∧
    ((base (empty10 9) .prod .idle []).Inv ∧ ¬ (6 : Int) ≤ (regions 2 9 9 10).1 ∧ 6 = freeSpace 2 (empty10 9) ∧ ¬ 2 ≤ 10 - 9) ∧
    (base ringExact .prod .idle []).env.issuer = .prod ∧ (base ringExact .prod .idle []).cfg.par.lenPrefix = 2 :=
  ⟨⟨inv_base ringExact_inv trivial, rfl, by decide, by decide, by decide⟩,
   ⟨inv_base empty8_inv trivial, rfl, by decide, by decide, by decide, by decide⟩,
   ⟨inv_base empty9_inv trivial, by decide, by decide, by decide⟩, rfl, rfl⟩

/-- An empty ring, a ring of two frames, a ring whose frame lies behind a sentinel. For peek, pop and the first step of a drain. -/
theorem witness_OldestFrame :
    ((base (empty10 0) .cons .idle []).Inv ∧ holdsFrames 2 (empty10 0) [] = true) ∧
    ((base ring16 .cons .idle []).Inv ∧ holdsFrames 2 ring16 frames16 = true) ∧
    ((base ring10 .cons .idle []).Inv ∧ holdsFrames 2 ring10 [[0xE1, 0xE2, 0xE3]] = true) ∧
    (base ring16 .cons .idle []).env.issuer = .cons ∧ (base ring16 .cons .idle []).env.drain = .idle ∧
    (base ring16 .cons .idle []).cfg.par.lenPrefix = 2 :=
  ⟨⟨inv_base empty0_inv trivial, by decide⟩, ⟨inv_base ring16_inv trivial, by decide⟩, ⟨inv_base ring10_inv trivial, by decide⟩, rfl, rfl, rfl⟩

theorem witness_FramesAreDetermined : holdsFrames 2 ring16 frames16 = true := by decide

theorem witness_OverflowCountReadsAndClears : (base { ring16 with ovf := 2 ^ 32 - 1 } .cons .idle []).env.issuer = .cons := rfl

theorem witness_PeekIsStableUnderPush : (base ringExact .prod .idle []).Inv ∧ (base ringExact .prod .idle []).env.issuer = .prod ∧
    ringPeek (base ringExact .prod .idle []).cfg.par.lenPrefix ringExact = .next (5, some 7) ∧
    ∃ t, exec (.rbPush [0xB1, 0xB2]) (base ringExact .prod .idle []) = .next t := ⟨inv_base ringExact_inv trivial, rfl, rfl, _, rfl⟩

theorem witness_UninitialisedRing :
    ((base Ring.reset .prod .idle []).Inv ∧ (base Ring.reset .prod .idle []).ring.valid = false ∧
      (base Ring.reset .prod .idle []).env.issuer = .prod ∧ (base Ring.reset .prod .idle []).env.enable = true) ∧
    ((base Ring.reset .cons .idle []).Inv ∧ (base Ring.reset .cons .idle []).env.issuer = .cons ∧
      (base Ring.reset .cons .idle []).env.drain = .idle) :=
  ⟨⟨inv_base (ringInv_reset _) trivial, rfl, rfl, rfl⟩, inv_base (ringInv_reset _) trivial, rfl, rfl⟩

/-- The first and the last bit of the check range of V1, which is accepted. -/
theorem witness_SingleBitFlip :
    let p : CrcParams := ⟨0x6F63, 0x0000, 0x0000⟩
    p.poly ≠ 0 ∧ 0 < 8 * (v1.drop 2).length ∧ 79 + 1 = 8 * (v1.drop 2).length ∧ crcOk p (crcOf p (v1.drop 2)) = true := by decide

/-- One bit; 32 bits; the last bit of the buffer; no bit, 33 bits, one bit too far. -/
theorem witness_ExtractBits :
    let buf : List Byte := [0xA5, 0x3C, 0xF0, 0x0F, 0x81]
    let inside := fun (off len : Nat) => 1 ≤ len ∧ len ≤ 32 ∧ off + len ≤ 8 * buf.length
    inside 0 1 ∧ inside 8 32 ∧ inside 7 32 ∧ inside 39 1 ∧ ¬ inside 0 0 ∧ ¬ inside 0 33 ∧ ¬ inside 40 1 ∧ ¬ inside 9 32 := by decide
theorem witness_ExtractBitsByteAligned : 3 + 1 ≤ ([1, 2, 3, 4] : List Byte).length ∧ 2 + 2 ≤ ([1, 2, 3, 4] : List Byte).length ∧
    1 + 3 ≤ ([1, 2, 3, 4] : List Byte).length ∧ 0 + 4 ≤ ([1, 2, 3, 4] : List Byte).length := by decide
theorem witness_ExtractBitsLaws :
    (1 ≤ 1 ∧ 1 ≤ 31 ∧ 1 + 31 ≤ 32 ∧ 8 + 1 + 31 ≤ 8 * ([1, 2, 3, 4, 5] : List Byte).length) ∧
    (7 ≤ 7 ∧ 1 ≤ 32 ∧ 32 ≤ 32 ∧ 1 + 7 + 32 ≤ 8 * ([1, 2, 3, 4, 5] : List Byte).length) ∧ v1.length = lenShort := by decide

/-- A state of the example configuration, CONS issuing. -/
def parsing : State := mk Cfg.examples (dec false false 0) Ring.reset .cons .idle []

/-- Lengths on both sides of each bound; an accepted and a rejected message of each length (spec/95_test_vectors.md V1, V10, R278). -/
theorem witness_ParsersAreGatedByCrc :
    let p := parsing.cfg.par
    parsing.env.issuer = .cons ∧ (v1.take 11).length < lenShort ∧ v1.length = lenShort ∧ (v10.take 15).length < lenExt ∧
    v10.length = lenExt ∧ (longA.take 91).length < lenLong ∧ longA.length = lenLong ∧
    crcOf p.bch (checkRange p.rangeShort v1) = p.bch.residual ∧
    crcOf p.bch (checkRange p.rangeShort (flipWireBit v1 95)) ≠ p.bch.residual ∧
    crcOf p.ccitt (checkRange p.rangeExt v10) = p.ccitt.residual ∧
    crcOf p.ccitt (checkRange p.rangeExt (flipWireBit v10 16)) ≠ p.ccitt.residual := by decide +kernel
theorem witness_ParseShortFields :
    parsing.env.issuer = .cons ∧ v1.length = 12 ∧ (flipWireBit v1 95).length = 12 ∧ parsing.cfg.par.short = defaultShortLayout ∧
    parsing.cfg.par.bch = ⟨0x6F63, 0x0000, 0x0000⟩ ∧ parsing.cfg.par.rangeShort = ⟨2, 11⟩ ∧
    crcRun 0x6F63 0 (v1.drop 2) = 0 ∧ crcRun 0x6F63 0 ((flipWireBit v1 95).drop 2) ≠ 0 := by decide +kernel
theorem witness_ParseExtFields :
    parsing.env.issuer = .cons ∧ v10.length = 16 ∧ (flipWireBit v10 127).length = 16 ∧
    parsing.cfg.par.ccitt = ⟨0x1021, 0xFFFF, 0x1D0F⟩ ∧ parsing.cfg.par.rangeExt = ⟨2, 15⟩ ∧
    crcRun 0x1021 0xFFFF (v10.drop 2) = 0x1D0F ∧ crcRun 0x1021 0xFFFF ((flipWireBit v10 127).drop 2) ≠ 0x1D0F := by decide +kernel
theorem witness_ParseLongShapeA :
    parsing.env.issuer = .cons ∧ longA.length = 92 ∧ parsing.cfg.par.longA = defaultLongALayout ∧
    parsing.cfg.par.ccitt = ⟨0x1021, 0xFFFF, 0x1D0F⟩ ∧ parsing.cfg.par.rangeLong = ⟨4, 91⟩ ∧
    crcRun 0x1021 0xFFFF (longA.drop 4) = 0x1D0F ∧ byteAt longA 8 ∉ parsing.cfg.par.subtypeB := by decide +kernel
theorem witness_ParseLongShapeB :
    parsing.env.issuer = .cons ∧ longA.length = 92 ∧ longB.length = 92 ∧
    crcOf parsing.cfg.par.ccitt (checkRange parsing.cfg.par.rangeLong longA) = parsing.cfg.par.ccitt.residual ∧
    crcOf parsing.cfg.par.ccitt (checkRange parsing.cfg.par.rangeLong longB) = parsing.cfg.par.ccitt.residual ∧
    byteAt longA parsing.cfg.par.longA.subtype ∉ parsing.cfg.par.subtypeB ∧
    byteAt longB parsing.cfg.par.longA.subtype ∈ parsing.cfg.par.subtypeB := by decide +kernel
theorem witness_LongRequestsAreInDomain : longB.length = 92 ∧ 46 < 47 ∧ 26 < 27 := by decide
theorem witness_RealignShiftsWireBits : 0 ≤ 7 ∧ 7 ≤ 7 ∧ 95 < 8 * v1.length ∧ 88 + 7 < 8 * v1.length ∧ ¬ 89 + 7 < 8 * v1.length := by decide

/-- A frame with the bit offset `o` and a message of `len` zeros in staging. -/
def stagedZeros (o : Byte) (len : Nat) : State := staged ([0, 0, 0, 0, 0, o] ++ List.replicate (len + 1) 0)

/-- For each tag a size at the bound and one short of it, and bit offsets 7 and 8. -/
theorem witness_KnownTagDispatch :
    (stagedZeros 7 12).env.issuer = .cons ∧ ((stagedZeros 7 12).cons.stg.read 5).toNat = 7 ∧
    7 < ((stagedZeros 8 12).cons.stg.read 5).toNat ∧ 18 < 6 + 12 + 1 ∧ 6 + 12 + 1 ≤ 19 ∧ 22 < 6 + 16 + 1 ∧ 6 + 16 + 1 ≤ 23 ∧
    98 < 6 + 92 + 1 ∧ 6 + 92 + 1 ≤ 99 ∧
    (Instr.tagShort 19, parsing.cfg.par.tagShort, 12) ∈ [(Instr.tagShort 19, parsing.cfg.par.tagShort, 12),
      (Instr.tagExt 19, parsing.cfg.par.tagExt, 16), (Instr.tagLong 19, parsing.cfg.par.tagLong, 92)] ∧
    (Instr.tagExt 23, parsing.cfg.par.tagExt, 16) ∈ [(Instr.tagShort 23, parsing.cfg.par.tagShort, 12),
      (Instr.tagExt 23, parsing.cfg.par.tagExt, 16), (Instr.tagLong 23, parsing.cfg.par.tagLong, 92)] ∧
    (Instr.tagLong 99, parsing.cfg.par.tagLong, 92) ∈ [(Instr.tagShort 99, parsing.cfg.par.tagShort, 12),
      (Instr.tagExt 99, parsing.cfg.par.tagExt, 16), (Instr.tagLong 99, parsing.cfg.par.tagLong, 92)] := by decide
theorem witness_UnknownTagDispatch : parsing.env.issuer = .cons ∧
    (∀ t ∈ ([0x00, 0x04, 0xFF] : List Byte), t ∉ [parsing.cfg.par.tagShort, parsing.cfg.par.tagExt, parsing.cfg.par.tagLong]) := by decide

/-- A drain before its dispatch and before its pop. -/
theorem witness_DrainSteps :
    ((base ring16 .cons (.dispatch 3 2) []).Inv ∧ holdsFrames 2 ring16 frames16 = true) ∧ (base ring16 .cons .pop []).Inv :=
  ⟨⟨inv_base ring16_inv rfl, by decide⟩, inv_base ring16_inv ⟨3, 2, rfl⟩⟩
/-- A drain of two frames and one of none. -/
theorem witness_DrainDelivers :
    ((base ring16 .host .idle [.port .cons .op4 (encode .processMessages)]).Inv ∧ holdsFrames 2 ring16 frames16 = true) ∧
    ((base (empty10 0) .host .idle [.port .cons .op4 (encode .processMessages)]).Inv ∧ holdsFrames 2 (empty10 0) [] = true) :=
  ⟨⟨inv_base ring16_inv trivial, by decide⟩, inv_base empty0_inv trivial, by decide⟩
theorem witness_RegisterCallbackReplaces :
    (base ring16 .cons .idle []).env.issuer = .cons ∧
    ((base ring16 .host .idle []).env.issuer = .host ∧ (base ring16 .host .idle []).env.started = false) ∧
    (let s := (base ring16 .host .idle []).setEnv { (base ring16 .host .idle []).env with started := true }
     ¬ (s.env.issuer = .cons ∨ (s.env.issuer = .host ∧ s.env.started = false))) ∧
    ¬ ((base ring16 .prod .idle []).env.issuer = .cons ∨ ((base ring16 .prod .idle []).env.issuer = .host ∧
      (base ring16 .prod .idle []).env.started = false)) := by decide

theorem witness_DecodeEncodeRoundTrip : (Instr.rbInit true (2 ^ 64 - 1)).wf = true ∧ (Instr.parseLong longA).wf = true ∧
    (Instr.extractBits v1 (2 ^ 64 - 1) (2 ^ 64 - 1)).wf = true ∧ (Instr.rbPush []).wf = true := by decide
theorem witness_StepRunsDecodedInstruction : sampling.env.inbox = .port .prod .op4 [0x00, 0x01] :: [] ∧
    decode .op4 [0x00, 0x01] = .ok (.processBit true, []) := ⟨rfl, rfl⟩
theorem witness_StepServesOtherInputs :
    (base ring16 .host .idle [.enable true]).env.inbox = [.enable true] ∧ (base ring16 .host .idle [.now 5]).env.inbox = [.now 5] ∧
    (base ring16 .host .idle [.consStep]).env.inbox = [.consStep] ∧ (base ring16 .host .peek []).env.inbox = [] ∧
    (base ring16 .host .idle []).env.drain = .idle := by decide
theorem witness_ResetGivesStatedValues : (∃ t, hostReset (base ring16 .host .idle []) = .next t) ∧
    (base ring16 .host .idle [.reset]).env.inbox = .reset :: [] ∧ (base ring16 .host .idle [.reset]).env.drain = .idle :=
  ⟨⟨_, rfl⟩, rfl, rfl⟩
theorem witness_BusyMachineRefuses : (base ring16 .host .peek []).env.drain ≠ .idle ∧ (base ring16 .host .peek []).env.issuer = .host ∧
    (base ring16 .cons .pop []).env.drain ≠ .idle ∧ (base ring16 .cons .pop []).env.issuer = .cons := by decide
/-- Each agent, and CONS inside a drain. -/
theorem witness_OwnershipOfState :
    (∃ t, exec (.rbPush [1]) (base ring16 .prod .idle []) = .next t) ∧ (∃ t, exec (.rbPop false 0) (base ring16 .cons .idle []) = .next t) ∧
    (∃ t, exec (.crcBch [1]) (base ring16 .host .idle []) = .next t) ∧ (∀ handle, Instr.crcBch [1] ≠ .registerCallback handle) ∧
    (∀ present capacity, Instr.crcBch [1] ≠ .rbInit present capacity) ∧
    ∃ t, drainStep (base ring16 .cons .pop []) = .next t :=
  ⟨⟨_, rfl⟩, ⟨_, rfl⟩, ⟨_, rfl⟩, by simp, by simp, ⟨_, rfl⟩⟩
theorem witness_WrongAgentIsRefused : (base ring16 .cons .idle []).env.issuer ∉ mayIssue (base ring16 .cons .idle []).env.started (.rbPush [1]) ∧
    (base ring16 .prod .idle []).env.issuer ∉ mayIssue (base ring16 .prod .idle []).env.started .rbPeek := by decide

end Sys2Proof.Tests
end

section
/-! Every operation completes from a state that meets the invariant: its accesses stay inside the memories and `locate` finds no corrupt
length (spec/00_scope.md R13, spec/93_implementation_defined.md U3). An operation that may also refuse does not fault. -/

namespace Sys2Proof.Machine

/-! ## Sequencing -/

/-- A sequence completes if its first part does and the rest does from what the first part answers. -/
theorem andThen_completes {α β : Type} {x : Res α} {k : α → Res β} (hx : ∃ a, x = .next a)
    (hk : ∀ a, x = .next a → ∃ b, k a = .next b) : ∃ b, andThen x k = .next b := by
  obtain ⟨a, rfl⟩ := hx
  exact hk a rfl

theorem noFault_next (s : State) : NoFault (.next s) := by simp [NoFault]

theorem noFault_refused (r : Refusal) : NoFault (.refused r) := by simp [NoFault]

theorem noFault_of_completes {x : Res State} (h : ∃ t, x = .next t) : NoFault x := by
  obtain ⟨t, rfl⟩ := h
  exact noFault_next t

theorem noFault_byAgent {who : List Agent} {s : State} {k : Res State} (h : NoFault k) : NoFault (byAgent who s k) :=
  fun f hf => h f (byAgent_eq_fault.mp hf).2

theorem noFault_whenIdle {r : Refusal} {s : State} {k : Res State} (h : NoFault k) : NoFault (whenIdle r s k) :=
  fun f hf => h f (whenIdle_eq_fault.mp hf).2

/-! ## The consumer's side of the ring -/

/-- The frames of the invariant rule out a corrupt length: either the ring is empty, or `locate` finds the first of them. -/
theorem locate_completes {p : Params} {r : Ring} (h : RingInv p r) : ∃ f, locate p.lenPrefix r = .next f := by
  cases hv : r.valid with
  | false => exact ⟨_, locate_of_invalid hv⟩
  | true =>
    obtain ⟨fs, hfs⟩ := h.frames hv
    cases fs with
    | nil => exact ⟨_, locate_of_empty (holdsFrames_nil.mp hfs)⟩
    | cons f fs =>
      obtain ⟨t, ht, -⟩ := holdsFrames_cons.mp hfs
      exact ⟨_, ht⟩

/-- A frame that `locate` finds lies inside storage, its length bytes included. -/
theorem locate_fits {p : Params} {r : Ring} (h : RingInv p r) {t n : Nat} (hl : locate p.lenPrefix r = .next (some (t, n))) :
    t + p.lenPrefix + n ≤ r.cap := by
  obtain ⟨hv, -, -, -, -, -, hin⟩ := locate_eq_some hl
  exact frameInside_le_cap hin (h.head hv).le

theorem ringPeek_completes {p : Params} {r : Ring} (h : RingInv p r) : ∃ x, ringPeek p.lenPrefix r = .next x := by
  refine andThen_completes (locate_completes h) fun f _ => ?_
  cases f <;> exact ⟨_, rfl⟩

/-- The payload of a peeked frame lies inside storage. -/
theorem ringPeek_fits {p : Params} {r : Ring} (h : RingInv p r) {n ptr : Nat} (hp : ringPeek p.lenPrefix r = .next (n, some ptr)) :
    ptr + n ≤ r.cap := by
  obtain ⟨t, hl, rfl⟩ := ringPeek_eq_some.mp hp
  exact locate_fits h hl

theorem ringPop_completes {p : Params} {r : Ring} (h : RingInv p r) (o : Bool) (k : Nat) :
    ∃ x, ringPop p.lenPrefix o k r = .next x := by
  refine andThen_completes (locate_completes h) fun f hf => ?_
  match f, hf with
  | none, _ => exact ⟨_, rfl⟩
  | some (t, n), hf =>
    have hfit := locate_fits h hf
    dsimp only
    split
    · exact ⟨_, rfl⟩
    · refine andThen_completes ⟨_, memRead_eq_next.mpr ⟨?_, rfl⟩⟩ fun _ _ => ⟨_, rfl⟩
      split <;> omega

/-! ## The producer's side of the ring -/

/-- A frame that fits the free space fits one of the two regions. -/
theorem fits_region_of_le_freeBytes {p size : Nat} {r : Ring} (h0 : size ≠ 0) (h : size ≤ freeBytes p r) :
    (size : Int) ≤ (regions p r.head r.tail r.cap).1 ∨ (size : Int) ≤ (regions p r.head r.tail r.cap).2 := by
  unfold freeBytes at h
  omega

/-- A frame that fits the first region ends inside storage when it is placed at head. -/
theorem first_region_le_cap {p size h t c : Nat} (ht : t < c) (hs : (size : Int) ≤ (regions p h t c).1) : h + p + size ≤ c := by
  unfold regions at hs
  split at hs
  · dsimp only at hs
    split at hs <;> omega
  · dsimp only at hs
    omega

/-- A frame that fits the second region ends inside storage when it is placed at offset 0. -/
theorem second_region_le_cap {p size h t c : Nat} (ht : t < c) (hs : (size : Int) ≤ (regions p h t c).2) : p + size ≤ c := by
  unfold regions at hs
  split at hs <;> dsimp only at hs <;> omega

theorem placeFrame_completes {p size : Nat} {r : Ring} (hh : r.head < r.cap) : ∃ x, placeFrame p size r = .next x := by
  unfold placeFrame
  split
  · exact ⟨_, rfl⟩
  · split
    · exact andThen_completes ⟨_, wrLen_eq_next.mpr ⟨by omega, rfl⟩⟩ fun _ _ => ⟨_, rfl⟩
    · exact ⟨_, rfl⟩

/-- Where a frame that fits the free space is placed, it ends inside storage. -/
theorem placeFrame_fits {p size : Nat} {r : Ring} {w : Nat} {m : Memory} (ht : r.tail < r.cap) (h0 : size ≠ 0)
    (hs : size ≤ freeBytes p r) (h : placeFrame p size r = .next (w, m)) : w + p + size ≤ r.cap := by
  have at_zero (hn : ¬ (size : Int) ≤ (regions p r.head r.tail r.cap).1) : 0 + p + size ≤ r.cap := by
    have := second_region_le_cap ht ((fits_region_of_le_freeBytes h0 hs).resolve_left hn)
    omega
  obtain ⟨h1, rfl, -⟩ | ⟨hn, -, -, rfl, -⟩ | ⟨hn, -, rfl, -⟩ := placeFrame_cases h
  · exact first_region_le_cap ht h1
  · exact at_zero hn
  · exact at_zero hn

theorem ringPush_completes {p : Params} {r : Ring} (h : RingInv p r) (o : Nat) (data : List Byte) :
    ∃ x, ringPush p.lenPrefix o data r = .next x := by
  unfold ringPush
  split
  · exact ⟨_, rfl⟩
  next h0 =>
    split
    · exact ⟨_, rfl⟩
    next hv =>
      replace hv : r.valid = true := by simpa using hv
      split
      · exact ⟨_, rfl⟩
      next hs =>
        refine andThen_completes (placeFrame_completes (h.head hv)) fun ⟨w, m⟩ hw => ?_
        have hfit := placeFrame_fits (h.tail hv) h0 (not_lt.mp hs) hw
        exact andThen_completes ⟨_, storeFrame_eq_next.mpr ⟨by omega, hfit, rfl⟩⟩ fun _ _ => ⟨_, rfl⟩

theorem push_completes {s : State} (h : RingInv s.cfg.par s.ring) (data : List Byte) : ∃ x, push data s = .next x := by
  refine andThen_completes (ringPush_completes h _ data) fun ⟨r, x⟩ _ => ?_
  cases x <;> exact ⟨_, rfl⟩

/-! ## The sync detector and the bit decoder -/

/-- The compared word and the captured bytes of a table entry lie inside an alignment buffer, for every cursor. -/
theorem sync_window_fits (g : Cfg) {e : SyncEntry} (he : e ∈ [g.par.syncLong, g.par.syncExt, g.par.syncShort]) {c : Nat}
    (hc : c < g.par.wBits) :
    comparePos e c + 32 ≤ 8 * g.par.dbBytes ∧ comparePos e c / 8 + (e.len + 1) ≤ g.par.dbBytes := by
  obtain ⟨hlen, hpos⟩ := g.sync_fits he
  simp only [comparePos, Params.dbBytes, Params.wBits] at *
  omega

section

variable {s : State} {c : Nat} (b : Bool) (now : Word)

theorem trySync_completes (hr : RingInv s.cfg.par s.ring) (hc : c < s.cfg.par.wBits) {e : SyncEntry}
    (he : e ∈ [s.cfg.par.syncLong, s.cfg.par.syncExt, s.cfg.par.syncShort]) : ∃ x, trySync e b c now s = .next x := by
  obtain ⟨hword, hraw⟩ := sync_window_fits s.cfg he hc
  refine andThen_completes ⟨_, word32_eq_next.mpr ⟨hword, rfl⟩⟩ fun w _ => ?_
  split
  · refine andThen_completes ⟨_, memRead_eq_next.mpr ⟨hraw, rfl⟩⟩ fun raw _ => ?_
    exact andThen_completes (push_completes hr _) fun _ _ => ⟨_, rfl⟩
  · exact ⟨_, rfl⟩

/-- An entry that does not match leaves the state as it is. -/
theorem trySync_miss {e : SyncEntry} {t : State} (h : trySync e b c now s = .next (t, false)) : t = s := by
  obtain ⟨-, ⟨-, ht, -⟩ | ⟨hf, -⟩⟩ := trySync_cases h
  · exact ht
  · cases hf

theorem syncMatch_completes (hr : RingInv s.cfg.par s.ring) (hc : c < s.cfg.par.wBits) :
    ∃ t, syncMatch b c now s = .next t := by
  refine andThen_completes (trySync_completes b now hr hc (by simp)) fun ⟨t, hit⟩ hlong => ?_
  cases hit with
  | true => exact ⟨_, rfl⟩
  | false =>
    obtain rfl := trySync_miss b now hlong
    refine andThen_completes (trySync_completes b now hr hc (by simp)) fun ⟨u, hit⟩ hext => ?_
    cases hit with
    | true => exact ⟨_, rfl⟩
    | false =>
      obtain rfl := trySync_miss b now hext
      exact andThen_completes (trySync_completes b now hr hc (by simp)) fun _ _ => ⟨_, rfl⟩

end

theorem tryActive_noFault {s : State} (h : s.Inv) {e : SyncEntry}
    (he : e ∈ [s.cfg.par.syncLong, s.cfg.par.syncExt, s.cfg.par.syncShort]) : NoFault (tryActive e s) :=
  noFault_byAgent <| noFault_of_completes <|
    andThen_completes (trySync_completes _ _ h.ring h.dec.cur he) fun _ _ => ⟨_, rfl⟩

/-- Both copies of the decoded bit lie inside an alignment buffer. -/
theorem insertBit_completes {p : Params} (m : Memory) {c : Nat} (d : Bool) (hc : c < p.wBits) :
    ∃ m', insertBit p m c d = .next m' := by
  refine ⟨_, insertBit_eq_next.mpr ⟨?_, ?_, rfl⟩⟩ <;> simp only [Params.wBits, Params.dbBytes] at * <;> omega

theorem acceptBit_completes {s : State} (h : s.Inv) (bit : Bool) : ∃ t, acceptBit bit s = .next t := by
  have hdec : ∃ d, decodeAndInsert s.cfg.par bit s.dec = .next d :=
    andThen_completes (insertBit_completes _ _ h.dec.cur) fun _ _ => ⟨_, rfl⟩
  refine andThen_completes hdec fun d _ => ?_
  have hsync : ∃ u, syncMatch s.dec.phase s.dec.cur s.env.now (s.setDec d) = .next u :=
    syncMatch_completes (s := s.setDec d) _ _ h.ring h.dec.cur
  exact andThen_completes hsync fun _ _ => ⟨_, rfl⟩

/-! ## The drain -/

theorem dispatchTag_completes (tag : Byte) (n : Nat) (s : State) : ∃ t, dispatchTag tag n s = .next t := by
  obtain ⟨t, ht, -⟩ := dispatchTag_frame tag n s
  exact ⟨t, ht⟩

/-- A frame that lies inside storage is staged: the copy takes `STG_LEN` bytes at most. -/
theorem stageFrame_completes {n ptr : Nat} {s : State} (h : ptr + n ≤ s.ring.cap) : ∃ t, stageFrame n ptr s = .next t := by
  refine andThen_completes ⟨_, memRead_eq_next.mpr ⟨by omega, rfl⟩⟩ fun data hd => ?_
  obtain ⟨-, rfl⟩ := memRead_eq_next.mp hd
  refine andThen_completes ⟨_, memWrite_eq_next.mpr ⟨?_, rfl⟩⟩ fun _ _ => ⟨_, rfl⟩
  rw [Memory.readBytes_length]
  omega

theorem drainPeek_completes {s : State} (h : RingInv s.cfg.par s.ring) : ∃ t, drainPeek s = .next t := by
  refine andThen_completes (ringPeek_completes h) fun ⟨n, ptr⟩ _ => ?_
  cases ptr <;> exact ⟨_, rfl⟩

/-- CONS always has a next step. That the peeked frame still stands at the tail when it is dispatched is the drain's invariant. -/
theorem drainStep_completes {s : State} (h : s.Inv) : ∃ t, drainStep s = .next t := by
  have hdrain := h.drain
  unfold drainStep
  split
  case h_1 => exact ⟨s, rfl⟩
  case h_2 => exact drainPeek_completes h.ring
  case h_3 n ptr hd =>
    rw [hd] at hdrain
    have hframe : ∃ t, dispatchFrame n ptr s = .next t :=
      andThen_completes (stageFrame_completes (ringPeek_fits h.ring hdrain)) fun _ _ => dispatchTag_completes _ _ _
    exact andThen_completes hframe fun _ _ => ⟨_, rfl⟩
  case h_4 => exact andThen_completes (ringPop_completes h.ring _ _) fun _ _ => ⟨_, rfl⟩

/-! ## Every instruction, every input -/

theorem callParser_noFault (len : Nat) (parse : List Byte → State → State × Bool) (m : List Byte) (s : State) :
    NoFault (callParser len parse m s) := by
  refine noFault_byAgent ?_
  split
  · exact noFault_refused _
  · exact noFault_next _

theorem execExtractBits_noFault (buf : List Byte) (bitOffset bitLen : Nat) (s : State) :
    NoFault (execExtractBits buf bitOffset bitLen s) := by
  unfold execExtractBits
  split
  · exact noFault_next _
  · exact noFault_refused _

theorem execProcessBit_noFault {s : State} (h : s.Inv) (bit : Bool) : NoFault (execProcessBit bit s) := by
  refine noFault_byAgent ?_
  split
  · exact noFault_of_completes (acceptBit_completes h bit)
  · exact noFault_next _

theorem exec_noFault {s : State} (h : s.Inv) (i : Instr) : NoFault (exec i s) := by
  have tag (t : Byte) (n : Nat) : NoFault (byAgent [.cons] s (dispatchTag t n s)) :=
    noFault_byAgent (noFault_of_completes (dispatchTag_completes t n s))
  cases i with
  | processBit bit => exact execProcessBit_noFault h bit
  | syncMatch => exact noFault_byAgent (noFault_of_completes (syncMatch_completes _ _ h.ring h.dec.cur))
  | syncLong | syncExt | syncShort => exact tryActive_noFault h (by simp)
  | rbInit present capacity => exact noFault_byAgent (noFault_whenIdle (noFault_next _))
  | rbFreespace => exact noFault_byAgent (noFault_next _)
  | rbPush data =>
    exact noFault_byAgent (noFault_of_completes (andThen_completes (push_completes h.ring data) fun _ _ => ⟨_, rfl⟩))
  | rbPeek =>
    exact noFault_byAgent (noFault_of_completes (andThen_completes (ringPeek_completes h.ring) fun _ _ => ⟨_, rfl⟩))
  | rbPop o k =>
    exact noFault_byAgent (noFault_whenIdle
      (noFault_of_completes (andThen_completes (ringPop_completes h.ring o k) fun _ _ => ⟨_, rfl⟩)))
  | rbOverflowcount => exact noFault_byAgent (noFault_next _)
  | crcBch data | crcCcitt data => exact noFault_next _
  | extractBits buf bitOffset bitLen => exact execExtractBits_noFault buf bitOffset bitLen s
  | parseShort m | parseExt m | parseLong m => exact callParser_noFault _ _ m s
  | processMessages =>
    exact noFault_byAgent (noFault_whenIdle (noFault_of_completes (drainPeek_completes (s := s.setEnv _) h.ring)))
  | registerCallback handle => exact noFault_byAgent (noFault_next _)
  | tagNone n | tagShort n | tagExt n | tagLong n => exact tag _ n

/-- The invariant does not speak of the inputs that wait. -/
theorem State.Inv.setInbox {s : State} (h : s.Inv) (l : List Event) : (s.setInbox l).Inv := ⟨h.dec, h.ring, h.cons, h.drain⟩

/-- The invariant does not speak of the agent that issues. -/
theorem State.Inv.issuedBy {s : State} (h : s.Inv) (a : Agent) : (s.issuedBy a).Inv := ⟨h.dec, h.ring, h.cons, h.drain⟩

theorem serveTransaction_noFault {s : State} (h : s.Inv) (a : Agent) (f : Format) (bytes : List Byte) :
    NoFault (serveTransaction a f bytes s) := by
  unfold serveTransaction
  split
  · exact exec_noFault (h.issuedBy a) _
  · exact noFault_refused _

theorem serve_noFault {s : State} (h : s.Inv) (e : Event) : NoFault (serve e s) := by
  cases e with
  | port a f bytes => exact serveTransaction_noFault h a f bytes
  | consStep => exact noFault_of_completes (drainStep_completes h)
  | reset => exact noFault_whenIdle (noFault_next _)
  | enable v | now v => exact noFault_next _

theorem step_of_empty_inbox {s : State} (h : s.env.inbox = []) : step s = drainStep s := by
  simp only [step, h]

theorem step_of_inbox_cons {s : State} {e : Event} {rest : List Event} (h : s.env.inbox = e :: rest) :
    step s = serve e (s.setInbox rest) := by
  simp only [step, h]

/-- Settles O55, by the input that stands first in the inbox: the drain always completes, and no instruction faults. -/
theorem noStepFaults : Obligations.NoStepFaults := by
  intro s h
  cases hin : s.env.inbox with
  | nil =>
    rw [step_of_empty_inbox hin]
    exact noFault_of_completes (drainStep_completes h)
  | cons e rest =>
    rw [step_of_inbox_cons hin]
    exact serve_noFault (h.setInbox rest) e

/-! ## One transaction -/

theorem serveTransaction_of_decode {a : Agent} {f : Format} {bytes rest : List Byte} {i : Instr} (s : State)
    (h : decode f bytes = .ok (i, rest)) : serveTransaction a f bytes s = exec i (s.issuedBy a) := by
  simp only [serveTransaction, h]

/-- Settles O49: the transaction is taken off the inbox, decoded, and executed in the name of its agent. -/
theorem stepRunsDecodedInstruction : Obligations.StepRunsDecodedInstruction := by
  intro s a f bytes rest inbox i hin hdec
  calc step s = serveTransaction a f bytes (s.setInbox inbox) := step_of_inbox_cons hin
    _ = exec i ((s.setInbox inbox).issuedBy a) := serveTransaction_of_decode _ hdec

end Sys2Proof.Machine
end

section
/-! What the checks on a configuration say of the table's constraints (spec/00_scope.md R7, spec/93_implementation_defined.md U11). -/

namespace Sys2Proof

namespace Cfg

theorem sync_tags (c : Cfg) :
    c.par.syncLong.tag = c.par.tagLong ∧ c.par.syncExt.tag = c.par.tagExt ∧ c.par.syncShort.tag = c.par.tagShort := by
  have h := c.syncOk
  simp only [Params.syncOk, Bool.and_eq_true, decide_eq_true_eq] at h
  obtain ⟨⟨⟨-, hlong⟩, hext⟩, hshort⟩ := h
  exact ⟨hlong, hext, hshort⟩

theorem tags_nodup (c : Cfg) : [c.par.tagNone, c.par.tagShort, c.par.tagExt, c.par.tagLong].Nodup :=
  of_decide_eq_true c.tagsOk

theorem residuals (c : Cfg) : c.par.bch.residual = 0 ∧ c.par.ccitt.residual ≠ 0 := by
  simpa only [Params.residualsOk, Bool.and_eq_true, decide_eq_true_eq] using c.residualsOk

theorem longB_layoutOk (c : Cfg) : layoutOk 112 688 c.par.longB.fields = true := by
  have h := c.longB_ok
  simp only [LongBLayout.ok, Bool.and_eq_true] at h
  obtain ⟨⟨⟨⟨hl, -⟩, -⟩, -⟩, -⟩ := h
  exact hl

/-- In a message of shape B no two fields overlap: not two of the common header and trailer, not two of the body, not one of each. -/
theorem longB_message_apart (c : Cfg) :
    (c.par.longA.common ++ c.par.longB.fields).Pairwise fun f g => f.1 + f.2 ≤ g.1 ∨ g.1 + g.2 ≤ f.1 := by
  obtain ⟨-, hA⟩ := layoutOk_iff.mp c.longA_ok
  obtain ⟨-, hB⟩ := layoutOk_iff.mp c.longB_layoutOk
  obtain ⟨hcommon, -, -⟩ := List.pairwise_append.mp hA
  exact List.pairwise_append.mpr ⟨hcommon, hB, bodyClear_iff.mp c.bodyClear_ok⟩

end Cfg

/-- Settles O60, one constraint of the table after the other. -/
theorem configurationMeetsConstraints : Obligations.ConfigurationMeetsConstraints := by
  intro c
  obtain ⟨hlong, hext, hshort⟩ := c.sync_tags
  obtain ⟨hbch, hccitt⟩ := c.residuals
  obtain ⟨-, rangeShort⟩ := ByteRange.ok_iff.mp c.rangeShort_ok
  obtain ⟨-, rangeExt⟩ := ByteRange.ok_iff.mp c.rangeExt_ok
  obtain ⟨-, rangeLong⟩ := ByteRange.ok_iff.mp c.rangeLong_ok
  obtain ⟨shortInside, shortApart⟩ := layoutOk_iff.mp c.short_ok
  obtain ⟨longAInside, longAApart⟩ := layoutOk_iff.mp c.longA_ok
  obtain ⟨longBInside, -⟩ := layoutOk_iff.mp c.longB_layoutOk
  exact ⟨fun e he => c.sync_fits he, hlong, hext, hshort, c.tags_nodup, by simpa using c.lenPrefix_cases, hbch, hccitt,
    rangeShort, rangeExt, rangeLong, fun f hf => (shortInside f hf).2, shortApart, fun f hf => (longAInside f hf).2, longAApart,
    longBInside, c.longB_message_apart⟩

end Sys2Proof
end

section
/-! The consumer part keeps its invariant (spec/10_state.md R34 to R37): staging stays canonical and inside its space, and the record a
parser stores has the lengths of its shape, because a configuration's layout lies inside the message. -/

namespace Sys2Proof.Machine

/-! ## Records of full size -/

theorem slice_length {m : List Byte} {i k : Nat} (h : i + k < m.length) : (slice m i (i + k)).length = k + 1 := by
  simp only [slice, List.length_take, List.length_drop]
  omega

theorem packedArray_length (m : List Byte) (start w count : Nat) : (packedArray m start w count).length = count := by
  simp [packedArray]

theorem LongShape.sized_a_iff {x : LongA} : (LongShape.a x).sized = true ↔
    x.tamperCounters.length = 6 ∧ x.powerOutageFlags.length = 6 ∧ x.delta.length = nDeltaA := by
  simp [LongShape.sized, and_assoc]

theorem LongShape.sized_b_iff {x : LongB} : (LongShape.b x).sized = true ↔ x.unknown.length = 4 ∧ x.delta.length = nDeltaB := by
  simp [LongShape.sized]

theorem longBodyA_sized (g : Cfg) {m : List Byte} (hm : m.length = lenLong) :
    (LongShape.a (longBodyA g.par.longA m)).sized = true := by
  obtain ⟨hinside, -⟩ := layoutOk_iff.mp g.longA_ok
  have htamper := (hinside (8 * g.par.longA.tamperCounters, 48) (by simp [LongALayout.body])).2
  have houtage := (hinside (8 * g.par.longA.powerOutageFlags, 48) (by simp [LongALayout.body])).2
  simp only [lenLong] at hm
  exact LongShape.sized_a_iff.mpr ⟨slice_length (by omega), slice_length (by omega), packedArray_length ..⟩

theorem longBodyB_sized (g : Cfg) {m : List Byte} (hm : m.length = lenLong) :
    (LongShape.b (longBodyB g.par.longB m)).sized = true := by
  obtain ⟨hinside, -⟩ := layoutOk_iff.mp g.longB_layoutOk
  have hunknown := (hinside (8 * g.par.longB.unknownOff, 32) (by simp [LongBLayout.fields])).2
  simp only [lenLong] at hm
  exact LongShape.sized_b_iff.mpr ⟨slice_length (by omega), packedArray_length ..⟩

theorem longRecord_sized (g : Cfg) {m : List Byte} (hm : m.length = lenLong) : (longRecord g.par m).shape.sized = true := by
  simp only [longRecord, longShape]
  split
  · exact longBodyB_sized g hm
  · exact longBodyA_sized g hm

/-! ## The parsers -/

/-- A LONG record has the lengths of its shape; the other records hold no lists. -/
def Record.Sized : Record → Prop
  | .short _ => True
  | .ext _ => True
  | .long r => r.shape.sized = true

theorem ConsumerInv.storeRecord {c : Consumer} (h : ConsumerInv c) {r : Record} (hr : r.Sized) :
    ConsumerInv (storeRecord r c) := by
  cases r with
  | short _ | ext _ => exact ⟨h.wf, h.below, h.sized⟩
  | long _ => exact ⟨h.wf, h.below, hr⟩

theorem ConsumerInv.gate {s : State} (h : ConsumerInv s.cons) {r : Record} (hr : r.Sized) (p : CrcParams) (c : Half) (tag : Byte)
    (m : List Byte) : ConsumerInv (gate p c tag r m s).1.cons := by
  obtain ⟨-, hg⟩ | ⟨-, hg⟩ := gate_cases p c tag r m s <;> rw [hg]
  · simpa using h.storeRecord hr
  · simpa using h

/-- A parser of messages of `len` bytes keeps the consumer's invariant. -/
def KeepsConsumerInv (len : Nat) (parse : List Byte → State → State × Bool) : Prop :=
  ∀ m s, m.length = len → ConsumerInv s.cons → ConsumerInv (parse m s).1.cons

theorem parseShort_keepsConsumerInv : KeepsConsumerInv lenShort parseShort :=
  fun m _ _ h => h.gate (r := .short _) trivial _ _ _ m

theorem parseExt_keepsConsumerInv : KeepsConsumerInv lenExt parseExt :=
  fun m _ _ h => h.gate (r := .ext _) trivial _ _ _ m

theorem parseLong_keepsConsumerInv : KeepsConsumerInv lenLong parseLong :=
  fun m s hm h => h.gate (r := .long _) (longRecord_sized s.cfg hm) _ _ _ m

/-! ## Staging and dispatch -/

/-- Bytes written inside the staging buffer. -/
theorem ConsumerInv.stage {s : State} (h : ConsumerInv s.cons) {a : Nat} {l : List Byte} (hl : a + l.length ≤ stgLen) :
    ConsumerInv (s.setStg (s.cons.stg.writeBytes a l)).cons :=
  ⟨Memory.wf_writeBytes a l h.wf, Memory.below_writeBytes l h.below hl, h.sized⟩

theorem dispatchKnown_consumerInv {tag : Byte} {len n : Nat} {parse : List Byte → State → State × Bool} {s t : State}
    (hlen : len ≤ lenLong) (hparse : KeepsConsumerInv len parse) (h : ConsumerInv s.cons)
    (ht : dispatchKnown tag len parse n s = .next t) : ConsumerInv t.cons := by
  obtain ⟨-, hk⟩ | ⟨-, hk⟩ := dispatchKnown_cases tag hlen parse n s
  · cases hk.symm.trans ht
    exact h
  · cases hk.symm.trans ht
    refine hparse _ _ (by simp) (h.stage ?_)
    simp only [realign_length, Memory.readBytes_length, hdrLen, stgLen, lenLong] at *
    omega

theorem dispatchTag_consumerInv {tag : Byte} {n : Nat} {s t : State} (h : ConsumerInv s.cons)
    (ht : dispatchTag tag n s = .next t) : ConsumerInv t.cons := by
  obtain ⟨-, hd⟩ | ⟨-, hd⟩ | ⟨-, hd⟩ | ⟨-, hd⟩ := dispatchTag_cases tag n s <;> rw [hd] at ht
  · exact dispatchKnown_consumerInv (by decide) parseShort_keepsConsumerInv h ht
  · exact dispatchKnown_consumerInv (by decide) parseExt_keepsConsumerInv h ht
  · exact dispatchKnown_consumerInv (by decide) parseLong_keepsConsumerInv h ht
  · cases ht
    exact h

theorem dispatchFrame_consumerInv {n ptr : Nat} {s t : State} (h : ConsumerInv s.cons) (ht : dispatchFrame n ptr s = .next t) :
    ConsumerInv t.cons := by
  obtain ⟨u, hu, ht⟩ := dispatchFrame_eq_next.mp ht
  obtain ⟨-, rfl⟩ := stageFrame_eq_next hu
  refine dispatchTag_consumerInv (h.stage ?_) ht
  rw [Memory.readBytes_length]
  omega

end Sys2Proof.Machine
end

section
/-! What one step can do: an operation has one of eight effects on the block (`Effect`), and a step is an operation, one step of the drain,
a reset, or the drive of a pin (`step_cases`). The constant configuration (spec/10_state.md R39) and the ownership of the state (R51) are
read off these cases. -/

namespace Sys2Proof.Machine

/-! ## The effect of an operation -/

/-- Two states that differ at most in the inputs, the pins and the outputs: the same block state, the drain at the same place. -/
structure SameBlock (s t : State) : Prop where
  cfg : t.cfg = s.cfg
  dec : t.dec = s.dec
  ring : t.ring = s.ring
  cons : t.cons = s.cons
  drain : t.env.drain = s.env.drain

/-- The ring after one push, of any data. -/
def Pushes (p : Params) (r r' : Ring) : Prop := ∃ data x, ringPush p.lenPrefix p.ovfBits data r = .next (r', x)

/-- A push of nothing leaves the ring as it is. -/
theorem Pushes.refl (p : Params) (r : Ring) : Pushes p r r := ⟨[], .rejected, rfl⟩

/-- A push leaves flag, capacity and tail, and counts one overflow at most. -/
theorem Pushes.frame {p : Params} {r r' : Ring} (h : Pushes p r r') : r'.valid = r.valid ∧ r'.cap = r.cap ∧ r'.tail = r.tail ∧
    (r'.ovf = r.ovf ∨ r'.ovf = (r.ovf + 1) % 2 ^ p.ovfBits) := by
  obtain ⟨data, x, hx⟩ := h
  obtain ⟨hvalid, hcap, htail⟩ := ringPush_frame hx
  refine ⟨hvalid, hcap, htail, ?_⟩
  obtain ⟨-, rfl, -⟩ | ⟨-, rfl, -⟩ | ⟨-, -, -, -, w, m, -, hs⟩ := ringPush_cases hx
  · exact .inl rfl
  · exact .inr rfl
  · obtain ⟨-, -, rfl⟩ := storeFrame_eq_next.mp hs
    exact .inl rfl

/-- The decoder part after an accepted sample (spec/40_manchester_decoder.md R130): a bit inserted into the active buffer, then the
advance. -/
def TakesSample (p : Params) (d d' : Decoder) : Prop :=
  ∃ bit m, insertBit p (d.db d.phase) d.cur (manchester d.prev bit) = .next m ∧
    d' = advance p ({ d with prev := bit }.setDb d.phase m)

/-- What an operation that answers `t` in the state `s` can have done. -/
inductive Effect (i : Instr) (s t : State) : Prop
  /-- Output at most. -/
  | output (same : SameBlock s t)
  /-- An operation of PROD: a sample at most, and one push at most. -/
  | produce (issuer : s.env.issuer = .prod) (sample : t.dec = s.dec ∨ TakesSample s.cfg.par s.dec t.dec)
      (pushes : Pushes s.cfg.par s.ring t.ring) (same : SameBlock ((s.setDec t.dec).setRing t.ring) t)
  /-- `RB_INIT` of HOST. -/
  | init (present : Bool) (capacity : Nat) (instr : i = .rbInit present capacity) (issuer : s.env.issuer = .host)
      (idle : s.env.drain = .idle) (same : SameBlock (s.setRing (ringInit s.cfg.par.lenPrefix present capacity s.ring)) t)
  /-- `RB_POP` of CONS. -/
  | pop (o : Bool) (k : Nat) (x : Popped) (issuer : s.env.issuer = .cons) (idle : s.env.drain = .idle)
      (pops : ringPop s.cfg.par.lenPrefix o k s.ring = .next x) (same : SameBlock (s.setRing x.1) t)
  /-- `RB_OVERFLOWCOUNT` of CONS. -/
  | clear (issuer : s.env.issuer = .cons) (same : SameBlock (s.setRing { s.ring with ovf := 0 }) t)
  /-- A parser or a type tag of CONS: staging and records. -/
  | consume (issuer : s.env.issuer = .cons) (keeps : ConsumerInv s.cons → ConsumerInv t.cons)
      (same : SameBlock (s.setCons t.cons) t)
  /-- `REGISTER_CALLBACK`, not of PROD. -/
  | register (handle : Nat) (instr : i = .registerCallback handle) (issuer : s.env.issuer ≠ .prod)
      (same : SameBlock (s.setCons { s.cons with cbHandle := handle, cbValid := true }) t)
  /-- `PROCESS_MESSAGES` of CONS: the first peek of a drain. -/
  | drain (issuer : s.env.issuer = .cons) (peeks : drainPeek (s.setEnv { s.env with started := true }) = .next t)

/-! ## The producer's stages -/

theorem push_pushes {data : List Byte} {s t : State} {ok : Bool} (h : push data s = .next (t, ok)) :
    Pushes s.cfg.par s.ring t.ring := by
  obtain ⟨r, x, hr, -, rfl⟩ := push_cases h
  split <;> exact ⟨data, x, hr⟩

theorem trySync_pushes {e : SyncEntry} {b : Bool} {c : Nat} {now : Word} {s t : State} {hit : Bool}
    (h : trySync e b c now s = .next (t, hit)) : Pushes s.cfg.par s.ring t.ring := by
  obtain ⟨-, ⟨-, rfl, -⟩ | ⟨-, -, -, ok, hp⟩⟩ := trySync_cases h
  · exact .refl _ _
  · exact push_pushes hp

/-- The first entry that matches ends the sync match, so it pushes once at most. -/
theorem syncMatch_pushes {b : Bool} {c : Nat} {now : Word} {s t : State} (h : syncMatch b c now s = .next t) :
    Pushes s.cfg.par s.ring t.ring := by
  obtain h | ⟨-, h⟩ | ⟨-, -, hit, h⟩ := syncMatch_cases h <;> exact trySync_pushes h

section

variable {i : Instr} {s t : State}

theorem execRbPush_effect {data : List Byte} (h : execRbPush data s = .next t) : Effect i s t := by
  obtain ⟨hissuer, h⟩ := byAgent_eq_next.mp h
  obtain ⟨⟨u, ok⟩, hp, h⟩ := andThen_eq_next.mp h
  obtain ⟨hcfg, hdec, hcons, hdrain, -⟩ := push_frame hp
  have hring := push_pushes hp
  cases h
  exact .produce (by simpa using hissuer) (.inl hdec) hring ⟨hcfg, rfl, rfl, hcons, hdrain⟩

theorem tryActive_effect {e : SyncEntry} (h : tryActive e s = .next t) : Effect i s t := by
  obtain ⟨hissuer, h⟩ := byAgent_eq_next.mp h
  obtain ⟨⟨u, hit⟩, hs, h⟩ := andThen_eq_next.mp h
  obtain ⟨hcfg, hdec, hcons, hdrain, -⟩ := trySync_frame hs
  have hring := trySync_pushes hs
  cases h
  exact .produce (by simpa using hissuer) (.inl hdec) hring ⟨hcfg, rfl, rfl, hcons, hdrain⟩

theorem execSyncMatch_effect (h : execSyncMatch s = .next t) : Effect i s t := by
  obtain ⟨hissuer, h⟩ := byAgent_eq_next.mp h
  obtain ⟨hcfg, hdec, hcons, hdrain, -⟩ := syncMatch_frame h
  exact .produce (by simpa using hissuer) (.inl hdec) (syncMatch_pushes h) ⟨hcfg, rfl, rfl, hcons, hdrain⟩

theorem execProcessBit_effect {bit : Bool} (h : execProcessBit bit s = .next t) : Effect i s t := by
  obtain ⟨hissuer, h⟩ := byAgent_eq_next.mp h
  split at h
  · obtain ⟨m, u, hm, hu, rfl⟩ := acceptBit_eq_next h
    obtain ⟨hcfg, -, hcons, hdrain, -⟩ := syncMatch_frame hu
    have hring := syncMatch_pushes hu
    exact .produce (by simpa using hissuer) (.inr ⟨bit, m, hm, rfl⟩) hring ⟨hcfg, rfl, rfl, hcons, hdrain⟩
  · cases h
    exact .output ⟨rfl, rfl, rfl, rfl, rfl⟩

/-! ## The consumer's and the host's operations -/

theorem execRbInit_effect {present : Bool} {capacity : Nat} (h : execRbInit present capacity s = .next t) :
    Effect (.rbInit present capacity) s t := by
  obtain ⟨hissuer, h⟩ := byAgent_eq_next.mp h
  obtain ⟨hidle, h⟩ := whenIdle_eq_next.mp h
  cases h
  exact .init present capacity rfl (by simpa using hissuer) hidle ⟨rfl, rfl, rfl, rfl, rfl⟩

theorem execRbPeek_effect (h : execRbPeek s = .next t) : Effect i s t := by
  obtain ⟨-, h⟩ := byAgent_eq_next.mp h
  obtain ⟨x, -, h⟩ := andThen_eq_next.mp h
  cases h
  exact .output ⟨rfl, rfl, rfl, rfl, rfl⟩

theorem execRbFreespace_effect (h : execRbFreespace s = .next t) : Effect i s t := by
  obtain ⟨-, h⟩ := byAgent_eq_next.mp h
  cases h
  exact .output ⟨rfl, rfl, rfl, rfl, rfl⟩

theorem execRbPop_effect {o : Bool} {k : Nat} (h : execRbPop o k s = .next t) : Effect i s t := by
  obtain ⟨hissuer, h⟩ := byAgent_eq_next.mp h
  obtain ⟨hidle, h⟩ := whenIdle_eq_next.mp h
  obtain ⟨x, hx, h⟩ := andThen_eq_next.mp h
  cases h
  exact .pop o k x (by simpa using hissuer) hidle hx ⟨rfl, rfl, rfl, rfl, rfl⟩

theorem execRbOverflowcount_effect (h : execRbOverflowcount s = .next t) : Effect i s t := by
  obtain ⟨hissuer, h⟩ := byAgent_eq_next.mp h
  cases h
  exact .clear (by simpa using hissuer) ⟨rfl, rfl, rfl, rfl, rfl⟩

theorem execExtractBits_effect {buf : List Byte} {bitOffset bitLen : Nat} (h : execExtractBits buf bitOffset bitLen s = .next t) :
    Effect i s t := by
  unfold execExtractBits at h
  split at h <;> cases h
  exact .output ⟨rfl, rfl, rfl, rfl, rfl⟩

theorem callParser_effect {len : Nat} {parse : List Byte → State → State × Bool} {m : List Byte} (hframe : ConsumerOnly parse)
    (hkeeps : KeepsConsumerInv len parse) (h : callParser len parse m s = .next t) : Effect i s t := by
  obtain ⟨hissuer, h⟩ := byAgent_eq_next.mp h
  split at h
  · cases h
  next hlen =>
    obtain ⟨hcfg, hdec, hring, -, hdrain, -⟩ := hframe (m.take len) s
    cases h
    exact .consume (by simpa using hissuer) (hkeeps _ s (by rw [List.length_take]; omega)) ⟨hcfg, hdec, hring, rfl, hdrain⟩

theorem tag_effect {tag : Byte} {n : Nat} (h : byAgent [.cons] s (dispatchTag tag n s) = .next t) : Effect i s t := by
  obtain ⟨hissuer, h⟩ := byAgent_eq_next.mp h
  obtain ⟨u, hu, hcfg, hdec, hring, hdrain, -⟩ := dispatchTag_frame tag n s
  cases hu.symm.trans h
  exact .consume (by simpa using hissuer) (fun hc => dispatchTag_consumerInv hc h) ⟨hcfg, hdec, hring, rfl, hdrain⟩

theorem execProcessMessages_effect (h : execProcessMessages s = .next t) : Effect i s t := by
  obtain ⟨hissuer, h⟩ := byAgent_eq_next.mp h
  obtain ⟨-, h⟩ := whenIdle_eq_next.mp h
  exact .drain (by simpa using hissuer) h

theorem execRegisterCallback_effect {handle : Nat} (h : execRegisterCallback handle s = .next t) :
    Effect (.registerCallback handle) s t := by
  obtain ⟨hissuer, h⟩ := byAgent_eq_next.mp h
  have hnot : s.env.issuer ≠ .prod := by
    intro hp
    rw [hp] at hissuer
    split at hissuer <;> simp at hissuer
  cases h
  exact .register handle rfl hnot ⟨rfl, rfl, rfl, rfl, rfl⟩

/-- Every operation that answers a next state has one of the effects. -/
theorem exec_effect (h : exec i s = .next t) : Effect i s t := by
  cases i with
  | processBit bit => exact execProcessBit_effect h
  | syncMatch => exact execSyncMatch_effect h
  | syncLong | syncExt | syncShort => exact tryActive_effect h
  | rbInit present capacity => exact execRbInit_effect h
  | rbFreespace => exact execRbFreespace_effect h
  | rbPush data => exact execRbPush_effect h
  | rbPeek => exact execRbPeek_effect h
  | rbPop o k => exact execRbPop_effect h
  | rbOverflowcount => exact execRbOverflowcount_effect h
  | crcBch data | crcCcitt data =>
    cases h
    exact .output ⟨rfl, rfl, rfl, rfl, rfl⟩
  | extractBits buf bitOffset bitLen => exact execExtractBits_effect h
  | parseShort m => exact callParser_effect parseShort_consumerOnly parseShort_keepsConsumerInv h
  | parseExt m => exact callParser_effect parseExt_consumerOnly parseExt_keepsConsumerInv h
  | parseLong m => exact callParser_effect parseLong_consumerOnly parseLong_keepsConsumerInv h
  | processMessages => exact execProcessMessages_effect h
  | registerCallback handle => exact execRegisterCallback_effect h
  | tagNone n | tagShort n | tagExt n | tagLong n => exact tag_effect h

/-! ## The drain and the step -/

theorem drainPeek_frame (h : drainPeek s = .next t) : t.cfg = s.cfg ∧ t.dec = s.dec ∧ t.ring = s.ring ∧ t.cons = s.cons := by
  obtain ⟨n, -, rfl⟩ | ⟨n, ptr, -, rfl⟩ := drainPeek_cases h <;> exact ⟨rfl, rfl, rfl, rfl⟩

theorem dispatchFrame_frame {n ptr : Nat} (h : dispatchFrame n ptr s = .next t) :
    t.cfg = s.cfg ∧ t.dec = s.dec ∧ t.ring = s.ring := by
  obtain ⟨u, hu, h⟩ := dispatchFrame_eq_next.mp h
  obtain ⟨-, rfl⟩ := stageFrame_eq_next hu
  obtain ⟨v, hv, hcfg, hdec, hring, -⟩ := dispatchTag_frame (stgByte _ 0) n _
  cases hv.symm.trans h
  exact ⟨hcfg, hdec, hring⟩

/-- A drain step leaves the parameters and the decoder part, and of the ring everything but the tail. -/
theorem drainStep_frame (h : drainStep s = .next t) :
    t.cfg = s.cfg ∧ t.dec = s.dec ∧ t.ring = { s.ring with tail := t.ring.tail } := by
  obtain ⟨-, rfl⟩ | ⟨-, h⟩ | ⟨n, ptr, u, -, hu, rfl⟩ | ⟨-, h⟩ := drainStep_cases h
  · exact ⟨rfl, rfl, rfl⟩
  · obtain ⟨n, -, rfl⟩ | ⟨n, ptr, -, rfl⟩ := drainPeek_cases h <;> exact ⟨rfl, rfl, rfl⟩
  · obtain ⟨hcfg, hdec, hring⟩ := dispatchFrame_frame hu
    refine ⟨hcfg, hdec, ?_⟩
    rw [State.setDrain_ring, hring]
  · obtain ⟨r, ret, out, hr, rfl⟩ := drainPop_cases h
    exact ⟨rfl, rfl, ringPop_frame hr⟩

theorem hostReset_eq_next (h : hostReset s = .next t) : s.env.drain = .idle ∧
    t = { s with dec := Decoder.reset, ring := Ring.reset, cons := Consumer.reset, env := { s.env with started := false } } := by
  obtain ⟨hidle, h⟩ := whenIdle_eq_next.mp h
  cases h
  exact ⟨hidle, rfl⟩

/-- A step is an operation, one step of the drain, a reset, or the drive of a pin. The state it starts from may differ from `s` in the
inputs that wait and in the agent that issues. -/
theorem step_cases (h : step s = .next t) : ∃ u, SameBlock s u ∧
    ((∃ j, exec j u = .next t) ∨ drainStep u = .next t ∨ hostReset u = .next t ∨ SameBlock u t) := by
  cases hin : s.env.inbox with
  | nil =>
    rw [step_of_empty_inbox hin] at h
    exact ⟨s, ⟨rfl, rfl, rfl, rfl, rfl⟩, .inr (.inl h)⟩
  | cons e rest =>
    rw [step_of_inbox_cons hin] at h
    cases e with
    | port a f bytes =>
      refine ⟨(s.setInbox rest).issuedBy a, ⟨rfl, rfl, rfl, rfl, rfl⟩, .inl ?_⟩
      simp only [serve, serveTransaction] at h
      split at h
      · exact ⟨_, h⟩
      · cases h
    | consStep => exact ⟨s.setInbox rest, ⟨rfl, rfl, rfl, rfl, rfl⟩, .inr (.inl h)⟩
    | reset => exact ⟨s.setInbox rest, ⟨rfl, rfl, rfl, rfl, rfl⟩, .inr (.inr (.inl h))⟩
    | enable v | now v =>
      cases h
      exact ⟨s, ⟨rfl, rfl, rfl, rfl, rfl⟩, .inr (.inr (.inr ⟨rfl, rfl, rfl, rfl, rfl⟩))⟩

/-! ## Parameters and ownership -/

theorem exec_cfg (h : exec i s = .next t) : t.cfg = s.cfg := by
  cases exec_effect h with
  | output same | clear _ same => exact same.cfg
  | produce _ _ _ same => exact same.cfg
  | init _ _ _ _ _ same => exact same.cfg
  | pop _ _ _ _ _ _ same => exact same.cfg
  | consume _ _ same => exact same.cfg
  | register _ _ _ same => exact same.cfg
  | drain _ peeks => exact (drainPeek_frame peeks).1

/-- What PROD leaves as it is (spec/10_state.md R51). -/
theorem exec_prod_frame (h : exec i s = .next t) (hissuer : s.env.issuer = .prod) :
    t.cons = s.cons ∧ t.ring.valid = s.ring.valid ∧ t.ring.cap = s.ring.cap ∧ t.ring.tail = s.ring.tail ∧
      (t.ring.ovf = s.ring.ovf ∨ t.ring.ovf = (s.ring.ovf + 1) % 2 ^ s.cfg.par.ovfBits) := by
  cases exec_effect h with
  | output same => rw [same.ring]; exact ⟨same.cons, rfl, rfl, rfl, .inl rfl⟩
  | produce _ _ pushes same => exact ⟨same.cons, pushes.frame⟩
  | register _ _ issuer _ => exact absurd hissuer issuer
  | init _ _ _ issuer _ _ | pop _ _ _ issuer _ _ _ | clear issuer _ | consume issuer _ _ | drain issuer _ =>
    simp [hissuer] at issuer

/-- What CONS leaves as it is (spec/10_state.md R51). -/
theorem exec_cons_frame (h : exec i s = .next t) (hissuer : s.env.issuer = .cons) :
    t.dec = s.dec ∧ t.ring.valid = s.ring.valid ∧ t.ring.cap = s.ring.cap ∧ t.ring.head = s.ring.head ∧
      t.ring.mem = s.ring.mem ∧ (t.ring.ovf = s.ring.ovf ∨ t.ring.ovf = 0) := by
  cases exec_effect h with
  | output same => rw [same.ring]; exact ⟨same.dec, rfl, rfl, rfl, rfl, .inl rfl⟩
  | pop _ _ _ _ _ pops same =>
    rw [same.ring, State.setRing_ring, ringPop_frame pops]
    exact ⟨same.dec, rfl, rfl, rfl, rfl, .inl rfl⟩
  | clear _ same => rw [same.ring]; exact ⟨same.dec, rfl, rfl, rfl, rfl, .inr rfl⟩
  | consume _ _ same => rw [same.ring]; exact ⟨same.dec, rfl, rfl, rfl, rfl, .inl rfl⟩
  | register _ _ _ same => rw [same.ring]; exact ⟨same.dec, rfl, rfl, rfl, rfl, .inl rfl⟩
  | drain _ peeks =>
    obtain ⟨-, hdec, hring, -⟩ := drainPeek_frame peeks
    rw [hring]
    exact ⟨hdec, rfl, rfl, rfl, rfl, .inl rfl⟩
  | produce issuer _ _ _ | init _ _ _ issuer _ _ => simp [hissuer] at issuer

/-- What HOST leaves as it is (spec/10_state.md R51), but for its registration of a callback (spec/46_dispatch.md R292). -/
theorem exec_host_frame (h : exec i s = .next t) (hissuer : s.env.issuer = .host) :
    t.dec = s.dec ∧ t.cons.stg = s.cons.stg ∧ t.cons.recShort = s.cons.recShort ∧ t.cons.recExt = s.cons.recExt ∧
      t.cons.recLong = s.cons.recLong ∧ ((∀ handle, i ≠ .registerCallback handle) → t.cons = s.cons) ∧
      ((∀ present capacity, i ≠ .rbInit present capacity) → t.ring = s.ring) := by
  cases exec_effect h with
  | output same =>
    rw [same.cons]
    exact ⟨same.dec, rfl, rfl, rfl, rfl, fun _ => rfl, fun _ => same.ring⟩
  | init present capacity instr _ _ same =>
    rw [same.cons]
    exact ⟨same.dec, rfl, rfl, rfl, rfl, fun _ => rfl, fun hi => absurd instr (hi present capacity)⟩
  | register handle instr _ same =>
    rw [same.cons]
    exact ⟨same.dec, rfl, rfl, rfl, rfl, fun hi => absurd instr (hi handle), fun _ => same.ring⟩
  | produce issuer _ _ _ | pop _ _ _ issuer _ _ _ | clear issuer _ | consume issuer _ _ | drain issuer _ =>
    simp [hissuer] at issuer

end

/-- Settles O59: the parameters are a field that no effect, no drain step and no reset writes. -/
theorem configurationIsConstant : Obligations.ConfigurationIsConstant := by
  intro s t h
  obtain ⟨u, hu, ⟨j, h⟩ | h | h | h⟩ := step_cases h
  · exact (exec_cfg h).trans hu.cfg
  · exact (drainStep_frame h).1.trans hu.cfg
  · obtain ⟨-, rfl⟩ := hostReset_eq_next h
    exact hu.cfg
  · exact h.cfg.trans hu.cfg

/-- Settles O56, agent by agent, and by the cases of a drain step. -/
theorem ownershipOfState : Obligations.OwnershipOfState :=
  ⟨fun _ _ _ h => ⟨exec_prod_frame h, exec_cons_frame h, exec_host_frame h⟩, fun _ _ h => (drainStep_frame h).2⟩

end Sys2Proof.Machine
end

section
/-! The frames of a ring under its operations (spec/10_state.md R50). A ring read from the tail has at most one list of frames. A push keeps
the bytes between tail and head and places the new frame outside of them, so every frame is still found where it was, and the new one after
them (`holdsFrames_append`); a pop drops the first. Hence each operation keeps the ring's invariant, and a push keeps what a peek found. -/

namespace Sys2Proof.Machine

/-! ## Determinacy -/

/-- Settles O21, by induction on the frames: `locate` is a function, and the bytes at a frame's offset are its data. -/
theorem framesAreDetermined : Obligations.FramesAreDetermined := by
  intro p r fs
  induction fs generalizing r with
  | nil =>
    intro gs hf hg
    cases gs with
    | nil => rfl
    | cons g gs =>
      obtain ⟨t, hl, -⟩ := holdsFrames_cons.mp hg
      cases (locate_of_empty (holdsFrames_nil.mp hf)).symm.trans hl
  | cons f fs ih =>
    intro gs hf hg
    obtain ⟨t, hl, -, hdata, hrest⟩ := holdsFrames_cons.mp hf
    cases gs with
    | nil => cases (locate_of_empty (holdsFrames_nil.mp hg)).symm.trans hl
    | cons g gs =>
      obtain ⟨t', hl', -, hdata', hrest'⟩ := holdsFrames_cons.mp hg
      have hsame := hl.symm.trans hl'
      simp only [Host.Outcome.next.injEq, Option.some.injEq, Prod.mk.injEq] at hsame
      obtain ⟨rfl, hlen⟩ := hsame
      rw [← hlen] at hdata' hrest'
      rw [← hdata, hdata', ih _ gs hrest hrest']

/-- A ring that holds frames is empty iff there are none. -/
theorem head_eq_tail_iff_nil {p : Nat} {r : Ring} {fs : List (List Byte)} (h : holdsFrames p r fs = true) :
    r.head = r.tail ↔ fs = [] := by
  constructor
  · exact fun he => framesAreDetermined p r fs [] h (holdsFrames_nil.mpr he)
  · rintro rfl
    exact holdsFrames_nil.mp h

/-- The first of the frames is the one `locate` finds. -/
theorem holdsFrames_of_locate {p : Nat} {r : Ring} {fs : List (List Byte)} {t n : Nat} (h : holdsFrames p r fs = true)
    (hl : locate p r = .next (some (t, n))) :
    (r.tail ≤ t ∨ r.head < r.tail) ∧ ∃ rest, holdsFrames p (r.skip p t n) rest = true := by
  cases fs with
  | nil => cases (locate_of_empty (holdsFrames_nil.mp h)).symm.trans hl
  | cons f rest =>
    obtain ⟨t', hl', horder, -, hrest⟩ := holdsFrames_cons.mp h
    have hsame := hl.symm.trans hl'
    simp only [Host.Outcome.next.injEq, Option.some.injEq, Prod.mk.injEq] at hsame
    obtain ⟨rfl, rfl⟩ := hsame
    exact ⟨horder, rest, hrest⟩

/-- Nothing about the frames depends on the overflow counter. -/
theorem holdsFrames_setOvf {p k : Nat} {r : Ring} {fs : List (List Byte)} (h : holdsFrames p r fs = true) :
    holdsFrames p { r with ovf := k } fs = true := by
  induction fs generalizing r with
  | nil => exact h
  | cons f fs ih =>
    obtain ⟨t, hl, horder, hdata, hrest⟩ := holdsFrames_cons.mp h
    exact holdsFrames_cons.mpr ⟨t, hl, horder, hdata, ih hrest⟩

/-! ## Finding a frame -/

/-- An offset at or before the end of storage, wrapped. -/
theorem mod_of_le {e c : Nat} (h : e ≤ c) : (e < c ∧ e % c = e) ∨ (e = c ∧ e % c = 0) := by
  rcases Nat.lt_or_eq_of_le h with hlt | rfl
  · exact .inl ⟨hlt, Nat.mod_eq_of_lt hlt⟩
  · exact .inr ⟨rfl, Nat.mod_self e⟩

theorem locateStart_of_near_end {p : Nat} {r : Ring} (h : r.cap - r.tail < p) : locateStart p r = .next 0 := by
  simp [locateStart, h]

theorem locateStart_of_fits {p : Nat} {r : Ring} (h : r.tail + p ≤ r.cap) :
    locateStart p r = .next (if leNat (r.mem.readBytes r.tail p) = 0 then 0 else r.tail) := by
  have hroom : ¬ r.cap - r.tail < p := by omega
  rw [locateStart, if_neg hroom, rdLen_eq_next.mpr ⟨h, rfl⟩, andThen_next]

/-- The converse of `locate_eq_some`. -/
theorem locate_of_start {p : Nat} {r : Ring} {t n : Nat} (hv : r.valid = true) (hne : r.head ≠ r.tail)
    (hstart : locateStart p r = .next t) (hfit : t + p ≤ r.cap) (hn : leNat (r.mem.readBytes t p) = n) (h0 : n ≠ 0)
    (hin : frameInside p r t n = true) : locate p r = .next (some (t, n)) := by
  simp [locate, hv, hne, hstart, rdLen_eq_next.mpr ⟨hfit, hn.symm⟩, h0, hin]

/-- Where the next frame lies: at the tail and before the head; at the tail, the data wrapped behind it; at offset 0, the wrap between. -/
theorem frame_place {p : Nat} {r : Ring} {t n : Nat} (hl : locate p r = .next (some (t, n))) (horder : r.tail ≤ t ∨ r.head < r.tail) :
    (t = r.tail ∧ r.tail ≤ r.head ∧ t + p + n ≤ r.head) ∨ (t = r.tail ∧ r.head < r.tail ∧ t + p + n ≤ r.cap) ∨
    (t = 0 ∧ r.head < r.tail ∧ t + p + n ≤ r.head) := by
  obtain ⟨-, -, hstart, -, -, -, hin⟩ := locate_eq_some hl
  have ht : t = 0 ∨ t = r.tail := by
    obtain ⟨-, ht⟩ | ⟨-, -, -, ht⟩ | ⟨-, -, -, ht⟩ := locateStart_cases hstart
    exacts [.inl ht, .inl ht, .inr ht]
  unfold frameInside at hin
  split at hin <;> simp only [decide_eq_true_eq] at hin <;> omega

/-! ## Rings that hold the same frames, and more behind them -/

/-- The bytes between tail and head, around the end of storage if the head is behind the tail. -/
def Ring.Occupied (r : Ring) (a : Nat) : Prop :=
  (r.tail ≤ a ∧ a < r.head) ∨ (r.head < r.tail ∧ ((r.tail ≤ a ∧ a < r.cap) ∨ a < r.head))

/-- The head of `r'` lies further on than the head of `r`, around the end of storage if need be, and has not reached the tail; the occupied
bytes of `r` are the same in `r'`. -/
structure KeepsFrames (r r' : Ring) : Prop where
  valid : r'.valid = r.valid
  cap : r'.cap = r.cap
  tail : r'.tail = r.tail
  head : (r.tail ≤ r.head ∧ (r.head < r'.head ∨ r'.head < r.tail)) ∨ (r.head < r'.head ∧ r'.head < r.tail)
  mem : ∀ a, r.Occupied a → r'.mem.read a = r.mem.read a

section

variable {p t n : Nat} {r r' : Ring}

theorem KeepsFrames.readBytes_eq (h : KeepsFrames r r') {a k : Nat} (hocc : ∀ b, a ≤ b → b < a + k → r.Occupied b) :
    r'.mem.readBytes a k = r.mem.readBytes a k :=
  Memory.readBytes_congr fun i hi => h.mem _ (hocc _ (by omega) (by omega))

/-- The bytes of the next frame are occupied. -/
theorem frame_occupied (hl : locate p r = .next (some (t, n))) (horder : r.tail ≤ t ∨ r.head < r.tail) {b : Nat} (h1 : t ≤ b)
    (h2 : b < t + p + n) : r.Occupied b := by
  have := frame_place hl horder
  unfold Ring.Occupied
  omega

/-- The search starts at the same offset: the length bytes at the tail are occupied whenever they are read. -/
theorem KeepsFrames.locateStart_eq (h : KeepsFrames r r') (ht : r.tail < r.cap) (hl : locate p r = .next (some (t, n)))
    (horder : r.tail ≤ t ∨ r.head < r.tail) : locateStart p r' = .next t := by
  obtain ⟨-, -, hstart, -⟩ := locate_eq_some hl
  by_cases hroom : r.tail + p ≤ r.cap
  · have hbytes : r'.mem.readBytes r.tail p = r.mem.readBytes r.tail p := by
      refine h.readBytes_eq fun b h1 h2 => ?_
      have := frame_place hl horder
      unfold Ring.Occupied
      omega
    rw [locateStart_of_fits hroom] at hstart
    rw [locateStart_of_fits (by rw [h.tail, h.cap]; exact hroom), h.tail, hbytes, hstart]
  · rw [locateStart_of_near_end (by omega)] at hstart
    rw [locateStart_of_near_end (by rw [h.tail, h.cap]; omega), hstart]

/-- The next frame is found where it was. -/
theorem KeepsFrames.locate_eq (h : KeepsFrames r r') (hh : r.head < r.cap) (ht : r.tail < r.cap) (hl : locate p r = .next (some (t, n)))
    (horder : r.tail ≤ t ∨ r.head < r.tail) :
    locate p r' = .next (some (t, n)) ∧ (r'.tail ≤ t ∨ r'.head < r'.tail) := by
  have hplace := frame_place hl horder
  have hstart := h.locateStart_eq ht hl horder
  obtain ⟨hv, -, -, hfit, hn, h0, -⟩ := locate_eq_some hl
  have hbytes : r'.mem.readBytes t p = r.mem.readBytes t p :=
    h.readBytes_eq fun b h1 h2 => frame_occupied hl horder h1 (by omega)
  obtain ⟨hvalid, hcap, htail, hhead, -⟩ := h
  refine ⟨locate_of_start (hvalid.trans hv) (by omega) hstart (by omega) (by rw [hbytes, hn]) h0 ?_, by omega⟩
  unfold frameInside
  split <;> simp only [decide_eq_true_eq] <;> omega

/-- After the next frame is consumed, the rest is kept. -/
theorem KeepsFrames.skip (h : KeepsFrames r r') (hh : r.head < r.cap) (hl : locate p r = .next (some (t, n)))
    (horder : r.tail ≤ t ∨ r.head < r.tail) : KeepsFrames (r.skip p t n) (r'.skip p t n) := by
  have hplace := frame_place hl horder
  obtain ⟨hvalid, hcap, htail, hhead, hmem⟩ := h
  have hmod : t + p + n ≤ r.cap := by omega
  refine ⟨hvalid, hcap, by simp only [Ring.skip, hcap], ?_, fun a ha => hmem a ?_⟩
  · have := mod_of_le hmod
    simp only [Ring.skip]
    omega
  · have := mod_of_le hmod
    simp only [Ring.skip, Ring.Occupied] at *
    omega

end

/-- If a ring keeps the frames of another and holds one more where the other's head is, it holds the old frames and then the new one. -/
theorem holdsFrames_append {p : Nat} {r r' : Ring} {fs : List (List Byte)} {data : List Byte} (hh : r.head < r.cap)
    (ht : r.tail < r.cap) (hk : KeepsFrames r r') (hfs : holdsFrames p r fs = true)
    (hnew : holdsFrames p { r' with tail := r.head } [data] = true) : holdsFrames p r' (fs ++ [data]) = true := by
  induction fs generalizing r r' with
  | nil =>
    have htail : r'.tail = r.head := hk.tail.trans (holdsFrames_nil.mp hfs).symm
    rwa [← htail] at hnew
  | cons f fs ih =>
    obtain ⟨t, hl, horder, hdata, hrest⟩ := holdsFrames_cons.mp hfs
    obtain ⟨hl', horder'⟩ := hk.locate_eq hh ht hl horder
    have hbytes : r'.mem.readBytes (t + p) f.length = r.mem.readBytes (t + p) f.length :=
      hk.readBytes_eq fun b h1 h2 => frame_occupied hl horder (by omega) (by omega)
    have hrest' : holdsFrames p (r'.skip p t f.length) (fs ++ [data]) = true :=
      ih (r := r.skip p t f.length) hh (Nat.mod_lt _ (by omega)) (hk.skip hh hl horder) hrest hnew
    exact holdsFrames_cons.mpr ⟨t, hl', horder', hbytes.trans hdata, hrest'⟩

/-! ## The new frame of a push -/

/-- Where a push of `n` bytes places its frame, and the storage before the frame is written: at the head; or at offset 0, below the tail,
the head marked by a zero length if there is room for one. -/
inductive Placed (p n : Nat) (r : Ring) : Nat → Memory → Prop
  | atHead (fit : r.head + p + n ≤ r.cap) (below : r.head < r.tail → r.head + p + n < r.tail)
      (full : r.head + p + n = r.cap → 0 < r.tail) : Placed p n r r.head r.mem
  | wrapped {m : Memory} (order : r.tail ≤ r.head) (below : p + n < r.tail)
      (mark : (r.head + p ≤ r.cap ∧ m = r.mem.writeBytes r.head (leBytes p 0)) ∨ (r.cap - r.head < p ∧ m = r.mem)) :
      Placed p n r 0 m

/-- A frame that fits the first region ends before the tail if the tail is ahead, and does not fill the storage up to a tail at 0. -/
theorem first_region_below_tail {p n h t c : Nat} (hs : (n : Int) ≤ (regions p h t c).1) :
    (h < t → h + p + n < t) ∧ (h + p + n = c → 0 < t) := by
  unfold regions at hs
  split at hs
  · dsimp only at hs
    split at hs <;> omega
  · dsimp only at hs
    omega

/-- There is a second region only behind the tail, and a frame that fits it ends below the tail. -/
theorem second_region_below_tail {p n h t c : Nat} (hs : (n : Int) ≤ (regions p h t c).2) : t ≤ h ∧ p + n < t := by
  unfold regions at hs
  split at hs <;> dsimp only at hs <;> omega

theorem placeFrame_placed {p n : Nat} {r : Ring} {w : Nat} {m : Memory} (ht : r.tail < r.cap) (h0 : n ≠ 0)
    (hs : n ≤ freeBytes p r) (h : placeFrame p n r = .next (w, m)) : Placed p n r w m := by
  have second (hn : ¬ (n : Int) ≤ (regions p r.head r.tail r.cap).1) : r.tail ≤ r.head ∧ p + n < r.tail :=
    second_region_below_tail ((fits_region_of_le_freeBytes h0 hs).resolve_left hn)
  obtain ⟨h1, rfl, rfl⟩ | ⟨hn, -, hroom, rfl, rfl⟩ | ⟨hn, hroom, rfl, rfl⟩ := placeFrame_cases h
  · obtain ⟨hbelow, hfull⟩ := first_region_below_tail h1
    exact .atHead (first_region_le_cap ht h1) hbelow hfull
  · obtain ⟨horder, hbelow⟩ := second hn
    exact .wrapped horder hbelow (.inl ⟨hroom, rfl⟩)
  · obtain ⟨horder, hbelow⟩ := second hn
    exact .wrapped horder hbelow (.inr ⟨by omega, rfl⟩)

/-- The ring after a frame is stored at `w` of the storage `m`. -/
def Ring.store (p : Nat) (data : List Byte) (w : Nat) (m : Memory) (r : Ring) : Ring :=
  { r with
    mem := (m.writeBytes w (leBytes p data.length)).writeBytes (w + p) data
    head := (w + p + data.length) % r.cap }

theorem ringPush_stored {p o : Nat} {data : List Byte} {r r' : Ring} (ht : r.tail < r.cap)
    (h : ringPush p o data r = .next (r', .stored)) :
    data.length ≠ 0 ∧ r.valid = true ∧ ∃ w m, Placed p data.length r w m ∧ r' = r.store p data w m := by
  obtain ⟨hx, -⟩ | ⟨hx, -⟩ | ⟨-, h0, hv, hs, w, m, hw, hr⟩ := ringPush_cases h
  · cases hx
  · cases hx
  · obtain ⟨-, -, rfl⟩ := storeFrame_eq_next.mp hr
    exact ⟨h0, hv, w, m, placeFrame_placed ht h0 hs hw, rfl⟩

section

variable {p w : Nat} {data : List Byte} {m : Memory} {r : Ring}

theorem store_read_outside {a : Nat} (h : a < w ∨ w + p + data.length ≤ a) : (r.store p data w m).mem.read a = m.read a := by
  simp only [Ring.store]
  rw [Memory.read_writeBytes, if_neg (by omega), Memory.read_writeBytes, if_neg (by rw [leBytes_length]; omega)]

theorem store_readBytes_outside {a k : Nat} (h : a + k ≤ w ∨ w + p + data.length ≤ a) :
    (r.store p data w m).mem.readBytes a k = m.readBytes a k :=
  Memory.readBytes_congr fun i hi => store_read_outside (by omega)

theorem store_readBytes_length : (r.store p data w m).mem.readBytes w p = leBytes p data.length := by
  simp only [Ring.store]
  rw [Memory.readBytes_writeBytes_of_disjoint _ _ _ _ _ (.inl le_rfl)]
  simpa using Memory.readBytes_writeBytes m w (leBytes p data.length)

theorem store_readBytes_data : (r.store p data w m).mem.readBytes (w + p) data.length = data :=
  Memory.readBytes_writeBytes ..

theorem Placed.mem_wf (h : Placed p data.length r w m) (hr : r.mem.wf = true) : (r.store p data w m).mem.wf = true := by
  have hm : m.wf = true := by
    cases h with
    | atHead => exact hr
    | wrapped _ _ mark =>
      obtain ⟨-, rfl⟩ | ⟨-, rfl⟩ := mark
      · exact Memory.wf_writeBytes _ _ hr
      · exact hr
  exact Memory.wf_writeBytes _ _ (Memory.wf_writeBytes _ _ hm)

/-- Neither the mark at the head nor the new frame touches an occupied byte, and the new head has not reached the tail. -/
theorem Placed.keepsFrames (h : Placed p data.length r w m) (h0 : data.length ≠ 0) (hh : r.head < r.cap) (ht : r.tail < r.cap) :
    KeepsFrames r (r.store p data w m) := by
  refine ⟨rfl, rfl, rfl, ?_, fun a ha => ?_⟩
  · cases h with
    | atHead fit below full =>
      have := mod_of_le fit
      simp only [Ring.store]
      omega
    | wrapped order below mark =>
      have : (0 + p + data.length) % r.cap = 0 + p + data.length := Nat.mod_eq_of_lt (by omega)
      simp only [Ring.store]
      omega
  · unfold Ring.Occupied at ha
    cases h with
    | atHead fit below full => exact store_read_outside (by omega)
    | wrapped order below mark =>
      rw [store_read_outside (by omega)]
      obtain ⟨-, rfl⟩ | ⟨-, rfl⟩ := mark
      · rw [Memory.read_writeBytes, if_neg (by omega)]
      · rfl

/-- The new head: behind the new frame, or 0 if that frame ends the storage. -/
theorem Placed.store_head (h : Placed p data.length r w m) (ht : r.tail < r.cap) :
    ((r.store p data w m).head = w + p + data.length ∨
      ((r.store p data w m).head = 0 ∧ 0 < w ∧ w + p + data.length = r.cap)) ∧
    (w = r.head ∨ (w = 0 ∧ (r.store p data w m).head < r.head)) := by
  cases h with
  | atHead fit below full =>
    have := mod_of_le fit
    refine ⟨?_, .inl rfl⟩
    simp only [Ring.store]
    omega
  | wrapped order below mark =>
    have : (0 + p + data.length) % r.cap = 0 + p + data.length := Nat.mod_eq_of_lt (by omega)
    exact ⟨.inl this, .inr ⟨rfl, lt_of_eq_of_lt this (by omega)⟩⟩

theorem store_length (h0 : data.length < 2 ^ (8 * p)) :
    leNat ((r.store p data w m).mem.readBytes w p) = data.length := by
  rw [store_readBytes_length, leNat_leBytes h0]

/-- A search from the old head starts at the new frame: at the head itself, or past the mark or the end of storage. -/
theorem Placed.locateStart_eq (h : Placed p data.length r w m) (h0 : data.length ≠ 0) (hlen : data.length < 2 ^ (8 * p)) :
    locateStart p { r.store p data w m with tail := r.head } = .next w := by
  cases h with
  | atHead fit below full =>
    have hfit : r.head + p ≤ r.cap := by omega
    rw [locateStart_of_fits hfit]
    simp only [store_length hlen, if_neg h0]
  | wrapped order below mark =>
    obtain ⟨hfit, rfl⟩ | ⟨hnear, rfl⟩ := mark
    · have hmark : (r.store p data 0 (r.mem.writeBytes r.head (leBytes p 0))).mem.readBytes r.head p = leBytes p 0 := by
        rw [store_readBytes_outside (by omega)]
        simpa using Memory.readBytes_writeBytes r.mem r.head (leBytes p 0)
      rw [locateStart_of_fits hfit]
      simp only [hmark, leNat_leBytes (Nat.two_pow_pos (8 * p)), if_true]
    · exact locateStart_of_near_end hnear

/-- Read from the old head on, the ring holds the new frame alone. -/
theorem Placed.holds_new (h : Placed p data.length r w m) (h0 : data.length ≠ 0) (hlen : data.length < 2 ^ (8 * p))
    (hv : r.valid = true) (ht : r.tail < r.cap) :
    holdsFrames p { r.store p data w m with tail := r.head } [data] = true := by
  obtain ⟨hhead, hw⟩ := h.store_head ht
  have hfit : w + p + data.length ≤ r.cap := by cases h <;> omega
  have hin : frameInside p { r.store p data w m with tail := r.head } w data.length = true := by
    have hcap : (r.store p data w m).cap = r.cap := rfl
    unfold frameInside
    split <;> simp only [decide_eq_true_eq] at * <;> omega
  have hroom : w + p ≤ r.cap := by omega
  have hne : (r.store p data w m).head ≠ r.head := by omega
  have horder : r.head ≤ w ∨ (r.store p data w m).head < r.head := by omega
  have hl : locate p { r.store p data w m with tail := r.head } = .next (some (w, data.length)) :=
    locate_of_start hv hne (h.locateStart_eq h0 hlen) hroom (store_length (r := r) hlen) h0 hin
  exact holdsFrames_cons.mpr ⟨w, hl, horder, store_readBytes_data (r := r), holdsFrames_nil.mpr rfl⟩

end

/-! ## The ring's invariant -/

section

variable {p : Params} {r r' : Ring}

/-- The frame that `locate` finds in a ring of the invariant is the first of its frames. -/
theorem RingInv.first_frame (h : RingInv p r) {t n : Nat} (hl : locate p.lenPrefix r = .next (some (t, n))) :
    (r.tail ≤ t ∨ r.head < r.tail) ∧ ∃ rest, holdsFrames p.lenPrefix (r.skip p.lenPrefix t n) rest = true := by
  obtain ⟨hv, -⟩ := locate_eq_some hl
  obtain ⟨fs, hfs⟩ := h.frames hv
  exact holdsFrames_of_locate hfs hl

/-- The counter may take any value that fits its bits; it is 0 while the ring is uninitialised. -/
theorem RingInv.setOvf (h : RingInv p r) {k : Nat} (hk : k < 2 ^ p.ovfBits) (hinvalid : r.valid = false → k = 0) :
    RingInv p { r with ovf := k } where
  wf := h.wf
  ovf := hk
  invalid hv := by
    obtain ⟨hcap, hhead, htail, -⟩ := h.invalid hv
    exact ⟨hcap, hhead, htail, hinvalid hv⟩
  cap := h.cap
  head := h.head
  tail := h.tail
  frames hv := (h.frames hv).imp fun _ => holdsFrames_setOvf

theorem ringInv_reset (p : Params) : RingInv p Ring.reset where
  wf := rfl
  ovf := Nat.two_pow_pos _
  invalid _ := ⟨rfl, rfl, rfl, rfl⟩
  cap hv := nomatch hv
  head hv := nomatch hv
  tail hv := nomatch hv
  frames hv := nomatch hv

theorem RingInv.init (h : RingInv p r) (present : Bool) (capacity : Nat) : RingInv p (ringInit p.lenPrefix present capacity r) := by
  unfold ringInit
  split
  next hok =>
    simp only [initAccepts, Bool.and_eq_true, decide_eq_true_eq] at hok
    obtain ⟨⟨-, hlow⟩, hhigh⟩ := hok
    exact ⟨Memory.wf_zeroBelow _ h.wf, Nat.two_pow_pos _, (nomatch ·), fun _ => ⟨hlow, hhigh⟩, fun _ => Nat.zero_lt_of_lt hlow,
      fun _ => Nat.zero_lt_of_lt hlow, fun _ => ⟨[], holdsFrames_nil.mpr rfl⟩⟩
  · exact ⟨h.wf, Nat.two_pow_pos _, fun _ => ⟨rfl, rfl, rfl, rfl⟩, (nomatch ·), (nomatch ·), (nomatch ·),
      (nomatch ·)⟩

/-- Consuming the first frame leaves the others. -/
theorem RingInv.skip (h : RingInv p r) {t n : Nat} (hl : locate p.lenPrefix r = .next (some (t, n))) :
    RingInv p (r.skip p.lenPrefix t n) := by
  obtain ⟨hv, -⟩ := locate_eq_some hl
  obtain ⟨-, hrest⟩ := h.first_frame hl
  exact ⟨h.wf, h.ovf, fun hi => absurd (hv.symm.trans hi) (by decide), h.cap, h.head,
    fun _ => Nat.mod_lt _ (Nat.zero_lt_of_lt (h.head hv)), fun _ => hrest⟩

theorem RingInv.pop (h : RingInv p r) {o : Bool} {k : Nat} {x : Popped} (hx : ringPop p.lenPrefix o k r = .next x) :
    RingInv p x.1 := by
  obtain ⟨-, hr, -⟩ | ⟨t, n, hl, ⟨-, -, hr, -⟩ | ⟨-, hr, -⟩⟩ := ringPop_cases hx <;> rw [hr]
  · exact h
  · exact h
  · exact h.skip hl

/-- A frame that is placed has a length that its length bytes can hold. -/
theorem Placed.length_lt {w : Nat} {m : Memory} {data : List Byte} (hw : Placed p.lenPrefix data.length r w m) (h : RingInv p r)
    (hv : r.valid = true) (hp : 0 < p.lenPrefix) : data.length < 2 ^ (8 * p.lenPrefix) := by
  obtain ⟨-, hcap⟩ := h.cap hv
  have htail := h.tail hv
  cases hw <;> omega

theorem Placed.appends {w : Nat} {m : Memory} {data : List Byte} {fs : List (List Byte)} (hw : Placed p.lenPrefix data.length r w m)
    (h : RingInv p r) (hv : r.valid = true) (hp : 0 < p.lenPrefix) (h0 : data.length ≠ 0)
    (hfs : holdsFrames p.lenPrefix r fs = true) :
    holdsFrames p.lenPrefix (r.store p.lenPrefix data w m) (fs ++ [data]) = true :=
  holdsFrames_append (h.head hv) (h.tail hv) (hw.keepsFrames h0 (h.head hv) (h.tail hv)) hfs
    (hw.holds_new h0 (hw.length_lt h hv hp) hv (h.tail hv))

theorem RingInv.store {w : Nat} {m : Memory} {data : List Byte} (h : RingInv p r) (hv : r.valid = true) (hp : 0 < p.lenPrefix)
    (h0 : data.length ≠ 0) (hw : Placed p.lenPrefix data.length r w m) : RingInv p (r.store p.lenPrefix data w m) := by
  obtain ⟨fs, hfs⟩ := h.frames hv
  exact ⟨hw.mem_wf h.wf, h.ovf, fun hi => absurd (hv.symm.trans hi) (by decide), h.cap,
    fun _ => Nat.mod_lt _ (Nat.zero_lt_of_lt (h.head hv)), h.tail, fun _ => ⟨_, hw.appends h hv hp h0 hfs⟩⟩

/-- What a push can do to a ring of the invariant. -/
theorem pushes_cases (h : RingInv p r) (hx : Pushes p r r') : r' = r ∨
    (r.valid = true ∧ r' = { r with ovf := (r.ovf + 1) % 2 ^ p.ovfBits }) ∨
    (r.valid = true ∧ ∃ data w m, data.length ≠ 0 ∧ Placed p.lenPrefix data.length r w m ∧
      r' = r.store p.lenPrefix data w m) := by
  obtain ⟨data, x, hx⟩ := hx
  obtain ⟨-, hr, -⟩ | ⟨-, hr, -, hv, -⟩ | ⟨rfl, -, hv, -⟩ := ringPush_cases hx
  · exact .inl hr
  · exact .inr (.inl ⟨hv, hr⟩)
  · obtain ⟨h0, -, w, m, hw, hr⟩ := ringPush_stored (h.tail hv) hx
    exact .inr (.inr ⟨hv, data, w, m, h0, hw, hr⟩)

theorem RingInv.push (h : RingInv p r) (hp : 0 < p.lenPrefix) (hx : Pushes p r r') : RingInv p r' := by
  obtain rfl | ⟨hv, rfl⟩ | ⟨hv, data, w, m, h0, hw, rfl⟩ := pushes_cases h hx
  · exact h
  · exact h.setOvf (Nat.mod_lt _ (Nat.two_pow_pos _)) fun hi => absurd (hv.symm.trans hi) (by decide)
  · exact h.store hv hp h0 hw

/-- A push leaves the frame that a peek found (spec/42_ring_buffer.md R187). -/
theorem RingInv.peek_stable (h : RingInv p r) (hx : Pushes p r r') {n ptr : Nat}
    (hpeek : ringPeek p.lenPrefix r = .next (n, some ptr)) : ringPeek p.lenPrefix r' = .next (n, some ptr) := by
  obtain ⟨t, hl, rfl⟩ := ringPeek_eq_some.mp hpeek
  obtain ⟨horder, -⟩ := h.first_frame hl
  refine ringPeek_eq_some.mpr ⟨t, ?_, rfl⟩
  obtain rfl | ⟨-, rfl⟩ | ⟨hv, data, w, m, h0, hw, rfl⟩ := pushes_cases h hx
  · exact hl
  · exact hl
  · obtain ⟨hl', -⟩ := (hw.keepsFrames h0 (h.head hv) (h.tail hv)).locate_eq (h.head hv) (h.tail hv) hl horder
    exact hl'

end

end Sys2Proof.Machine
end

section
/-! The machine's invariant (spec/10_state.md R31, R32, R50; spec/46_dispatch.md R288): each effect of an operation, each step of the
drain and the reset keeps it, hence so does every step. -/

namespace Sys2Proof

/-- The length of a frame takes at least one byte. -/
theorem Cfg.lenPrefix_pos (c : Cfg) : 0 < c.par.lenPrefix := by
  have := c.lenPrefix_cases
  omega

/-- The window holds at least a compare word. -/
theorem Cfg.wBits_pos (c : Cfg) : 0 < c.par.wBits := by
  have := c.sync_fits (e := c.par.syncLong) (by simp)
  omega

namespace Machine

/-! ## The decoder part -/

theorem bufferInv_nil (p : Params) : BufferInv p [] := ⟨rfl, rfl, fun _ _ => by simp [wireBit, Memory.read]⟩

theorem decoderInv_reset (c : Cfg) : DecoderInv c.par Decoder.reset := ⟨c.wBits_pos, bufferInv_nil _, bufferInv_nil _⟩

theorem DecoderInv.db {p : Params} {d : Decoder} (h : DecoderInv p d) (b : Bool) : BufferInv p (d.db b) := by
  cases b
  exacts [h.db0, h.db1]

theorem DecoderInv.setDb {p : Params} {d : Decoder} (h : DecoderInv p d) (b : Bool) {m : Memory} (hm : BufferInv p m) :
    DecoderInv p (d.setDb b m) := by
  cases b
  exacts [⟨h.cur, hm, h.db1⟩, ⟨h.cur, h.db0, hm⟩]

/-- A bit inserted at the cursor and one window behind it (spec/10_state.md R32). -/
theorem BufferInv.insertBit {p : Params} {m m' : Memory} {c : Nat} {d : Bool} (h : BufferInv p m) (hc : c < p.wBits)
    (hm : insertBit p m c d = .next m') : BufferInv p m' := by
  obtain ⟨-, -, rfl⟩ := insertBit_eq_next.mp hm
  refine ⟨Memory.wf_setBit _ _ (Memory.wf_setBit _ _ h.wf), ?_, fun q hq => ?_⟩
  · have hlive : c / 8 < 2 * p.wBytes := by simp only [Params.wBits] at hc; omega
    have hcopy : (c + p.wBits) / 8 < 2 * p.wBytes := by simp only [Params.wBits] at *; omega
    exact Memory.below_write _ (Memory.below_write _ h.below hlive) hcopy
  · have hlive : (q = c ∨ q = c + p.wBits) ↔ q = c := by omega
    have hcopy : (q + p.wBits = c ∨ q + p.wBits = c + p.wBits) ↔ q = c := by omega
    simp only [wireBit_inserted, hlive, hcopy, h.agree q hq]

theorem DecoderInv.advance {p : Params} {d : Decoder} (h : DecoderInv p d) : DecoderInv p (advance p d) := by
  refine ⟨?_, h.db0, h.db1⟩
  simp only [Machine.advance]
  split
  · exact Nat.mod_lt _ (Nat.zero_lt_of_lt h.cur)
  · exact h.cur

theorem DecoderInv.takesSample {p : Params} {d d' : Decoder} (h : DecoderInv p d) (hd : TakesSample p d d') : DecoderInv p d' := by
  obtain ⟨bit, m, hm, rfl⟩ := hd
  have hprev : DecoderInv p { d with prev := bit } := ⟨h.cur, h.db0, h.db1⟩
  exact (hprev.setDb _ ((h.db _).insertBit h.cur hm)).advance

section

variable {s t u : State}

/-- The decoder part keeps its invariant whatever the rest of the state is. -/
theorem exec_decoderInv {i : Instr} (h : DecoderInv s.cfg.par s.dec) (ht : exec i s = .next t) : DecoderInv t.cfg.par t.dec := by
  rw [exec_cfg ht]
  cases exec_effect ht with
  | output same => rwa [same.dec]
  | produce _ sample _ _ =>
    obtain hd | hd := sample
    · rwa [hd]
    · exact h.takesSample hd
  | clear _ same => rwa [same.dec]
  | init _ _ _ _ _ same => rwa [same.dec]
  | pop _ _ _ _ _ _ same => rwa [same.dec]
  | consume _ _ same => rwa [same.dec]
  | register _ _ _ same => rwa [same.dec]
  | drain _ peeks =>
    obtain ⟨-, hdec, -⟩ := drainPeek_frame peeks
    rwa [hdec]

theorem step_decoderInv (h : DecoderInv s.cfg.par s.dec) (ht : step s = .next t) : DecoderInv t.cfg.par t.dec := by
  obtain ⟨u, hu, ht⟩ := step_cases ht
  rw [← hu.cfg, ← hu.dec] at h
  obtain ⟨j, ht⟩ | ht | ht | ht := ht
  · exact exec_decoderInv h ht
  · obtain ⟨hcfg, hdec, -⟩ := drainStep_frame ht
    rwa [hcfg, hdec]
  · obtain ⟨-, rfl⟩ := hostReset_eq_next ht
    exact decoderInv_reset _
  · rwa [ht.cfg, ht.dec]

end

/-- Settles O7: the windows agree in every state whose decoder part meets its invariant, the reset state among them. -/
theorem windowsAgreeAlways : Obligations.WindowsAgreeAlways :=
  ⟨fun b => ((decoderInv_reset _).db b).agree, fun _ _ h ht b => ((step_decoderInv h ht).db b).agree⟩

/-! ## The whole state -/

section

variable {s t : State}

/-- The invariant does not speak of inputs, pins and outputs. -/
theorem State.Inv.same (h : s.Inv) (hst : SameBlock s t) : t.Inv := by
  obtain ⟨hcfg, hdec, hring, hcons, hdrain⟩ := hst
  refine ⟨?_, ?_, ?_, ?_⟩
  · rw [hcfg, hdec]; exact h.dec
  · rw [hcfg, hring]; exact h.ring
  · rw [hcons]; exact h.cons
  · rw [hcfg, hring, hdrain]; exact h.drain

/-- A drain's frame stays at the tail while peeks find the same. -/
theorem DrainInv.of_peek_stable {p : Nat} {r r' : Ring} {d : Drain} (h : DrainInv p r d)
    (hpeek : ∀ n ptr, ringPeek p r = .next (n, some ptr) → ringPeek p r' = .next (n, some ptr)) : DrainInv p r' d := by
  cases d with
  | idle | peek => trivial
  | dispatch n ptr => exact hpeek n ptr h
  | pop =>
    obtain ⟨n, ptr, h⟩ := h
    exact ⟨n, ptr, hpeek n ptr h⟩

theorem drainInv_of_idle {p : Nat} {r : Ring} {d : Drain} (h : d = .idle) : DrainInv p r d := by
  subst h
  trivial

theorem consumerInv_reset : ConsumerInv Consumer.reset := ⟨rfl, rfl, by decide⟩

theorem drainPeek_inv (h : s.Inv) (ht : drainPeek s = .next t) : t.Inv := by
  obtain ⟨n, -, rfl⟩ | ⟨n, ptr, hpeek, rfl⟩ := drainPeek_cases ht
  · exact ⟨h.dec, h.ring, h.cons, trivial⟩
  · exact ⟨h.dec, h.ring, h.cons, hpeek⟩

theorem exec_inv {i : Instr} (h : s.Inv) (ht : exec i s = .next t) : t.Inv := by
  have hdec := exec_decoderInv h.dec ht
  cases exec_effect ht with
  | output same => exact h.same same
  | produce _ _ pushes same =>
    refine ⟨hdec, ?_, ?_, ?_⟩
    · rw [same.cfg]; exact h.ring.push s.cfg.lenPrefix_pos pushes
    · rw [same.cons]; exact h.cons
    · rw [same.cfg, same.drain]; exact h.drain.of_peek_stable fun _ _ => h.ring.peek_stable pushes
  | init present capacity _ _ idle same =>
    have hinit : (s.setRing (ringInit s.cfg.par.lenPrefix present capacity s.ring)).Inv :=
      ⟨h.dec, h.ring.init present capacity, h.cons, drainInv_of_idle idle⟩
    exact hinit.same same
  | pop _ _ x _ idle pops same =>
    have hpop : (s.setRing x.1).Inv := ⟨h.dec, h.ring.pop pops, h.cons, drainInv_of_idle idle⟩
    exact hpop.same same
  | clear _ same =>
    have hclear : (s.setRing { s.ring with ovf := 0 }).Inv :=
      ⟨h.dec, h.ring.setOvf (Nat.two_pow_pos _) fun _ => rfl, h.cons, h.drain.of_peek_stable fun _ _ hp => hp⟩
    exact hclear.same same
  | consume _ keeps same =>
    have hcons : (s.setCons t.cons).Inv := ⟨h.dec, h.ring, keeps h.cons, h.drain⟩
    exact hcons.same same
  | register handle _ _ same =>
    have hreg : (s.setCons { s.cons with cbHandle := handle, cbValid := true }).Inv :=
      ⟨h.dec, h.ring, ⟨h.cons.wf, h.cons.below, h.cons.sized⟩, h.drain⟩
    exact hreg.same same
  | drain _ peeks =>
    have hstarted : (s.setEnv { s.env with started := true }).Inv := ⟨h.dec, h.ring, h.cons, h.drain⟩
    exact drainPeek_inv hstarted peeks

theorem drainStep_inv (h : s.Inv) (ht : drainStep s = .next t) : t.Inv := by
  obtain ⟨-, rfl⟩ | ⟨-, ht⟩ | ⟨n, ptr, u, hd, hu, rfl⟩ | ⟨-, ht⟩ := drainStep_cases ht
  · exact h
  · exact drainPeek_inv h ht
  · obtain ⟨hcfg, hdec, hring⟩ := dispatchFrame_frame hu
    have hcons := dispatchFrame_consumerInv h.cons hu
    have hdrain := h.drain
    rw [hd] at hdrain
    refine ⟨?_, ?_, hcons, n, ptr, ?_⟩
    · rw [State.setDrain_cfg, State.setDrain_dec, hcfg, hdec]; exact h.dec
    · rw [State.setDrain_cfg, State.setDrain_ring, hcfg, hring]; exact h.ring
    · rw [State.setDrain_cfg, State.setDrain_ring, hcfg, hring]; exact hdrain
  · obtain ⟨r, ret, out, hpop, rfl⟩ := drainPop_cases ht
    exact ⟨h.dec, h.ring.pop hpop, h.cons, trivial⟩

theorem hostReset_inv (h : hostReset s = .next t) : t.Inv := by
  obtain ⟨hidle, rfl⟩ := hostReset_eq_next h
  exact ⟨decoderInv_reset s.cfg, ringInv_reset _, consumerInv_reset, drainInv_of_idle hidle⟩

end

/-- Settles O54, by what the step is: an operation, a step of the drain, a reset, or the drive of a pin. -/
theorem invariantKeptByEveryStep : Obligations.InvariantKeptByEveryStep := by
  intro s t h ht
  obtain ⟨u, hu, ht⟩ := step_cases ht
  have hinv := h.same hu
  obtain ⟨j, ht⟩ | ht | ht | ht := ht
  · exact exec_inv hinv ht
  · exact drainStep_inv hinv ht
  · exact hostReset_inv ht
  · exact hinv.same ht

/-- Settles O25: the ring's invariant at the next state, and what a peek says of a frame inside the storage. -/
theorem ringInvariantsKept : Obligations.RingInvariantsKept := by
  intro s t h ht hv
  have hring := (invariantKeptByEveryStep s t h ht).ring
  obtain ⟨hlow, hhigh⟩ := hring.cap hv
  obtain ⟨fs, hfs⟩ := hring.frames hv
  refine ⟨hlow, hhigh, hring.head hv, hring.tail hv, ⟨fs, hfs, head_eq_tail_iff_nil hfs⟩, fun n ptr hpeek => ?_⟩
  refine ⟨?_, ringPeek_fits hring hpeek⟩
  obtain ⟨a, hl, -⟩ := ringPeek_eq_some.mp hpeek
  obtain ⟨-, -, -, -, -, h0, -⟩ := locate_eq_some hl
  exact Nat.pos_of_ne_zero h0

end Machine

end Sys2Proof
end

section
/-! The encoding (spec/30_encoding.md). Each operand reader of the decoder undoes the operand's layout, so the decoder undoes the encoder row
by row; a compare word is judged by its upper bits; and the CRC field of a message takes the register to one fixed value. -/

namespace Sys2Proof.Machine

/-! ## Operand readers on the operands they are for -/

theorem withBytes_append {n : Nat} {x : List Byte} (h : x.length = n) (rest : List Byte) (k : List Byte → List Byte → Decoded) :
    withBytes n (x ++ rest) k = k x rest := by
  subst h
  simp [withBytes]

theorem withFlag_flagByte (e : DecodeError) (b : Bool) (rest : List Byte) (k : Bool → List Byte → Decoded) :
    withFlag e (flagByte b :: rest) k = k b rest := by
  cases b <;> rfl

@[simp] theorem natBytes_length (n : Nat) : (natBytes n).length = 8 := leBytes_length 8 n

theorem withNat_natBytes {n : Nat} (h : natFits n = true) (rest : List Byte) (k : Nat → List Byte → Decoded) :
    withNat (natBytes n ++ rest) k = k n rest := by
  have hn : leNat (natBytes n) = n := leNat_leBytes (of_decide_eq_true h)
  rw [withNat, withBytes_append (natBytes_length n), hn]

theorem withData_dataBytes {l : List Byte} (h : bytesFit l = true) (rest : List Byte) (k : List Byte → List Byte → Decoded) :
    withData (dataBytes l ++ rest) k = k l rest := by
  rw [withData, dataBytes, List.append_assoc, withNat_natBytes h, withBytes_append rfl]

/-- A compare word is four bytes in wire order (log entry 2). -/
theorem decode_sync32 (a b c d : Byte) (rest : List Byte) :
    decode .sync32 (a :: b :: c :: d :: rest) = decodeSync (BitVec.ofNat 32 (beNat (byteAt [a, b, c, d]) 0 4)) rest :=
  withBytes_append (x := [a, b, c, d]) rfl rest fun x r => decodeSync (BitVec.ofNat 32 (beNat (byteAt x) 0 4)) r

/-- Settles O48, row by row: the selector byte selects the row, whose readers undo the layout of its operands. -/
theorem decodeEncodeRoundTrip : Obligations.DecodeEncodeRoundTrip := by
  intro i rest h
  cases i with
  | syncMatch | rbFreespace | rbPeek | rbOverflowcount | processMessages => rfl
  | syncLong | syncExt | syncShort => exact decode_sync32 _ _ _ _ rest
  | processBit bit => simp [Instr.format, encode, decode, decodeOperation, withFlag_flagByte]
  | rbInit _ n | rbPop _ n =>
    have hn : natFits n = true := h
    simp [Instr.format, encode, decode, decodeOperation, withFlag_flagByte, withNat_natBytes hn]
  | rbPush data | crcBch data | crcCcitt data =>
    have hdata : bytesFit data = true := h
    simp [Instr.format, encode, decode, decodeOperation, withData_dataBytes hdata]
  | extractBits buf bitOffset bitLen =>
    simp only [Instr.wf, Bool.and_eq_true] at h
    obtain ⟨⟨hbuf, hoff⟩, hlen⟩ := h
    simp [Instr.format, encode, decode, decodeOperation, withData_dataBytes hbuf, withNat_natBytes hoff, withNat_natBytes hlen]
  | parseShort m | parseExt m | parseLong m =>
    simp [Instr.format, encode, decode, decodeOperation, withBytes_append (of_decide_eq_true h)]
  | registerCallback n =>
    have hn : natFits n = true := h
    simp [Instr.format, encode, decode, decodeOperation, withNat_natBytes hn]
  | tagNone n | tagShort n | tagExt n | tagLong n =>
    have hn : natFits n = true := h
    simp [Instr.format, encode, decode, decodeTag, withNat_natBytes hn]

/-! ## Compare words -/

theorem and_upperMask {n : Nat} (w : BitVec n) (k : Nat) : w &&& (BitVec.allOnes n <<< k) = (w >>> k) <<< k := by
  ext i hi
  by_cases hk : i < k
  · simp [hk]
  · simp [hk, show k + (i - k) = i by omega, BitVec.getLsbD_eq_getElem hi]

/-- A mask of all bits from `k` up compares the upper bits only (spec/30_encoding.md R93). -/
theorem and_upperMask_eq_iff {n k : Nat} {w v : BitVec n} (hv : v.toNat * 2 ^ k < 2 ^ n) :
    w &&& (BitVec.allOnes n <<< k) = v <<< k ↔ w.toNat / 2 ^ k = v.toNat := by
  have hw : w.toNat / 2 ^ k * 2 ^ k < 2 ^ n := (Nat.div_mul_le_self _ _).trans_lt w.isLt
  rw [and_upperMask, BitVec.toNat_eq]
  simp only [BitVec.toNat_shiftLeft, BitVec.toNat_ushiftRight, Nat.shiftLeft_eq, Nat.shiftRight_eq_div_pow, Nat.mod_eq_of_lt hv,
    Nat.mod_eq_of_lt hw]
  exact Nat.mul_left_inj (Nat.two_pow_pos k).ne'

/-- The three rows of format SYNC32 on the upper bits their masks compare (spec/41_sync_detector.md R150). -/
theorem decodeSync_eq (w : Word) (bs : List Byte) :
    decodeSync w bs =
      if w.toNat = 0x555516A3 then .ok (.syncLong, bs)
      else if w.toNat / 2 ^ 16 = 0x16A3 then .ok (.syncExt, bs)
      else if w.toNat / 2 ^ 11 = 0x1F2A60 then .ok (.syncShort, bs)
      else .error .noSyncEntry := by
  have hlong : w &&& 0xFFFFFFFF = 0x555516A3 ↔ w.toNat = 0x555516A3 := by
    simpa using and_upperMask_eq_iff (k := 0) (w := w) (v := 0x555516A3) (by decide)
  have hext : w &&& 0xFFFF0000 = 0x16A30000 ↔ w.toNat / 2 ^ 16 = 0x16A3 :=
    and_upperMask_eq_iff (k := 16) (w := w) (v := 0x16A3) (by decide)
  have hshort : w &&& 0xFFFFF800 = 0xF9530000 ↔ w.toNat / 2 ^ 11 = 0x1F2A60 :=
    and_upperMask_eq_iff (k := 11) (w := w) (v := 0x1F2A60) (by decide)
  simp only [decodeSync, hlong, hext, hshort]

/-- Settles O47: the four bytes are the compare word in wire order, which `decodeSync` judges by its upper bits. -/
theorem syncWordsDecodeByMask : Obligations.SyncWordsDecodeByMask := by
  intro a b c d rest w
  have hw : (BitVec.ofNat 32 (beNat (byteAt [a, b, c, d]) 0 4)).toNat = w := by
    simp only [w, beNat, num, byteAt, BitVec.toNat_ofNat, Nat.zero_add]
    omega
  rw [decode_sync32, decodeSync_eq, hw]

theorem decode_syncShort_dontCare : decode .sync32 [0xF9, 0x53, 0x02, 0x4E] = .ok (.syncShort, []) := by
  simpa [num, byteAt] using syncWordsDecodeByMask 0xF9 0x53 0x02 0x4E []

/-- Settles O46: the accepted words are encodings, but for the compare word with don't-care bits set; the others are rejected by their
sample byte and by their tag byte. -/
theorem sampleTransactionsDecode : Obligations.SampleTransactionsDecode :=
  ⟨decodeEncodeRoundTrip (.processBit true) [] rfl, decodeEncodeRoundTrip (.rbInit true 16) [] rfl,
    decodeEncodeRoundTrip (.rbPush [0xB1, 0xB2]) [] rfl, decodeEncodeRoundTrip .processMessages [] rfl, rfl,
    decodeEncodeRoundTrip .syncLong [] rfl, decode_syncShort_dontCare, decodeEncodeRoundTrip (.tagExt 23) [] rfl, rfl⟩

/-! ## The CRC field -/

theorem crcRun_append (poly c : Half) (l r : List Byte) : crcRun poly c (l ++ r) = crcRun poly (crcRun poly c l) r :=
  List.foldl_append

theorem crcRounds_zero (poly : Half) (k : Nat) : crcRounds poly k 0 = 0 := by
  induction k with
  | zero => rfl
  | succ k ih => exact ih

theorem crcTable_zero (poly : Half) : crcTable poly 0 = 0 := crcRounds_zero poly 8

theorem crcStep_zero (poly : Half) (b : Byte) : crcStep poly 0 b = crcTable poly b := by simp [crcStep]

/-- The high byte of the field takes the register's high byte out and its low byte up (spec/43_crc_engines.md R211). -/
theorem crcStep_high_xor (poly c d : Half) :
    crcStep poly c ((c ^^^ d).extractLsb' 8 8) = (c <<< 8) ^^^ crcTable poly (d.extractLsb' 8 8) := by
  have hbyte : (c >>> 8).setWidth 8 ^^^ (c ^^^ d).extractLsb' 8 8 = d.extractLsb' 8 8 := by
    ext i hi
    simp
  rw [crcStep, hbyte]

/-- The low byte of the field takes out what the first step took up. -/
theorem crcStep_low_xor (poly c d t : Half) :
    crcStep poly ((c <<< 8) ^^^ t) ((c ^^^ d).extractLsb' 0 8) = crcStep poly t (d.extractLsb' 0 8) := by
  have hup : ((c <<< 8) >>> 8).setWidth 8 = c.extractLsb' 0 8 := by
    ext i hi
    simp [show 8 + i < 16 by omega, BitVec.getLsbD_eq_getElem (show i < 16 by omega)]
  have hbyte : (((c <<< 8) ^^^ t) >>> 8).setWidth 8 ^^^ (c ^^^ d).extractLsb' 0 8 = (t >>> 8).setWidth 8 ^^^ d.extractLsb' 0 8 := by
    rw [BitVec.ushiftRight_xor_distrib, BitVec.setWidth_xor, hup, BitVec.extractLsb'_xor, BitVec.xor_comm (c.extractLsb' 0 8),
      BitVec.xor_assoc, ← BitVec.xor_assoc (c.extractLsb' 0 8), BitVec.xor_self, BitVec.zero_xor]
  have hshift : ((c <<< 8) ^^^ t) <<< 8 = t <<< 8 := by
    rw [BitVec.shiftLeft_xor_distrib, ← BitVec.shiftLeft_add, BitVec.shiftLeft_eq_zero (by decide), BitVec.zero_xor]
  rw [crcStep, crcStep, hbyte, hshift]

/-- A field that is the register's value with the bits of `d` inverted leads where `d` alone leads from register 0. -/
theorem crcRun_halfBytes_xor (poly c d : Half) : crcRun poly c (halfBytes (c ^^^ d)) = crcRun poly 0 (halfBytes d) :=
  calc crcRun poly c (halfBytes (c ^^^ d))
      = crcStep poly (crcStep poly c ((c ^^^ d).extractLsb' 8 8)) ((c ^^^ d).extractLsb' 0 8) := rfl
    _ = crcStep poly (crcTable poly (d.extractLsb' 8 8)) (d.extractLsb' 0 8) := by rw [crcStep_high_xor, crcStep_low_xor]
    _ = crcStep poly (crcStep poly 0 (d.extractLsb' 8 8)) (d.extractLsb' 0 8) := by rw [crcStep_zero]
    _ = crcRun poly 0 (halfBytes d) := rfl

/-- Settles O28: the field is the register's value with no bit inverted, or with every bit inverted. -/
theorem crcFieldGivesResidual : Obligations.CrcFieldGivesResidual := by
  refine ⟨fun poly c data => ⟨?_, ?_⟩, rfl⟩
  · calc crcRun poly c (data ++ halfBytes (crcRun poly c data))
        = crcRun poly (crcRun poly c data) (halfBytes (crcRun poly c data ^^^ 0)) := by rw [crcRun_append]; simp
      _ = crcRun poly 0 [0, 0] := crcRun_halfBytes_xor poly _ 0
      _ = 0 := by simp only [crcRun, List.foldl, crcStep_zero, crcTable_zero]
  · calc crcRun poly c (data ++ halfBytes (~~~ crcRun poly c data))
        = crcRun poly (crcRun poly c data) (halfBytes (crcRun poly c data ^^^ BitVec.allOnes 16)) := by
          rw [crcRun_append, BitVec.xor_allOnes]
      _ = crcRun poly 0 [0xFF, 0xFF] := crcRun_halfBytes_xor poly _ _

end Sys2Proof.Machine
end

section
/-! The Manchester bit decoder (spec/40_manchester_decoder.md). An accepted sample changes the decoder part as `Decoder.accept` says, whatever
the sync match does; what a stream of samples leaves in the alignment buffers is read off `Decoder.accept` alone. -/

namespace Sys2Proof.Machine

/-! ## The decoder part after one sample -/

/-- The decoder part after steps 2 and 3 of an accepted sample (spec/40_manchester_decoder.md R131, R132): the one the sync match sees. -/
def Decoder.inserted (p : Params) (bit : Bool) (d : Decoder) : Decoder :=
  { d with prev := bit }.setDb d.phase
    (((d.db d.phase).setBit d.cur (manchester d.prev bit)).setBit (d.cur + p.wBits) (manchester d.prev bit))

/-- The decoder part after an accepted sample (spec/40_manchester_decoder.md R130). -/
def Decoder.accept (p : Params) (bit : Bool) (d : Decoder) : Decoder := advance p (d.inserted p bit)

@[simp] theorem Decoder.db_false (d : Decoder) : d.db false = d.db0 := rfl
@[simp] theorem Decoder.db_true (d : Decoder) : d.db true = d.db1 := rfl

section

variable (p : Params) (bit : Bool) (d : Decoder)

@[simp] theorem Decoder.inserted_prev : (d.inserted p bit).prev = bit := by simp [Decoder.inserted]
@[simp] theorem Decoder.inserted_phase : (d.inserted p bit).phase = d.phase := by simp [Decoder.inserted]
@[simp] theorem Decoder.inserted_cur : (d.inserted p bit).cur = d.cur := by simp [Decoder.inserted]

@[simp] theorem Decoder.inserted_db_not : (d.inserted p bit).db (!d.phase) = d.db (!d.phase) := by simp [Decoder.inserted]

theorem Decoder.wireBit_inserted (q : Nat) : wireBit ((d.inserted p bit).db d.phase).read q =
    if q = d.cur ∨ q = d.cur + p.wBits then d.prev && !bit else wireBit (d.db d.phase).read q := by
  rw [Decoder.inserted, Decoder.db_setDb_same, Machine.wireBit_inserted, manchester]

@[simp] theorem Decoder.accept_prev : (d.accept p bit).prev = bit := d.inserted_prev p bit

@[simp] theorem Decoder.accept_phase : (d.accept p bit).phase = !d.phase := by simp [Decoder.accept, advance]

theorem Decoder.accept_cur : (d.accept p bit).cur = if d.phase then (d.cur + 1) % p.wBits else d.cur := by
  simp [Decoder.accept, advance]

@[simp] theorem Decoder.accept_db_not : (d.accept p bit).db (!d.phase) = d.db (!d.phase) := by
  rw [Decoder.accept, Decoder.db_advance, Decoder.inserted_db_not]

theorem Decoder.wireBit_accept (q : Nat) : wireBit ((d.accept p bit).db d.phase).read q =
    if q = d.cur ∨ q = d.cur + p.wBits then d.prev && !bit else wireBit (d.db d.phase).read q := by
  rw [Decoder.accept, Decoder.db_advance, Decoder.wireBit_inserted]

theorem Decoder.wireBit_accept_cur : wireBit ((d.accept p bit).db d.phase).read d.cur = (d.prev && !bit) := by
  rw [Decoder.wireBit_accept, if_pos (.inl rfl)]

/-- In the live window only the cursor's wire bit changes. -/
theorem Decoder.wireBit_accept_of_ne {q : Nat} (hq : q < p.wBits) (hne : q ≠ d.cur) :
    wireBit ((d.accept p bit).db d.phase).read q = wireBit (d.db d.phase).read q := by
  rw [Decoder.wireBit_accept, if_neg (by omega)]

end

/-! ## The machine takes a sample -/

/-- The states whose next sample is accepted. -/
structure Accepting (s : State) : Prop where
  inv : s.Inv
  issuer : s.env.issuer = .prod
  enable : s.env.enable = true

theorem exec_processBit_of_prod {s : State} (bit : Bool) (h : s.env.issuer = .prod) :
    exec (.processBit bit) s = if s.env.enable then acceptBit bit s else .next s :=
  byAgent_of_mem (by simp [h])

theorem exec_syncMatch_of_prod {s : State} (h : s.env.issuer = .prod) :
    exec .syncMatch s = syncMatch s.dec.phase s.dec.cur s.env.now s :=
  byAgent_of_mem (by simp [h])

/-- An accepted sample completes: the sync match runs on the inserted bit, and its next state with the decoder part advanced is the answer. -/
theorem exec_processBit_accepted {s : State} (h : Accepting s) (bit : Bool) :
    ∃ u, exec .syncMatch (s.setDec (s.dec.inserted s.cfg.par bit)) = .next u ∧
      exec (.processBit bit) s = .next (u.setDec (s.dec.accept s.cfg.par bit)) := by
  obtain ⟨t, ht⟩ := acceptBit_completes h.inv bit
  obtain ⟨m, u, hm, hu, rfl⟩ := acceptBit_eq_next ht
  obtain ⟨-, -, rfl⟩ := insertBit_eq_next.mp hm
  refine ⟨u, ?_, ?_⟩
  · rw [exec_syncMatch_of_prod (by simpa using h.issuer)]
    simpa [Decoder.inserted] using hu
  · rw [exec_processBit_of_prod bit h.issuer, if_pos h.enable]
    exact ht

/-- An accepted sample changes the decoder part as `Decoder.accept` says, and the next sample is accepted too. -/
theorem exec_processBit_dec {s : State} (h : Accepting s) (bit : Bool) :
    ∃ t, exec (.processBit bit) s = .next t ∧ Accepting t ∧ t.cfg = s.cfg ∧ t.dec = s.dec.accept s.cfg.par bit := by
  obtain ⟨u, hu, ht⟩ := exec_processBit_accepted h bit
  rw [exec_syncMatch_of_prod (by simpa using h.issuer)] at hu
  obtain ⟨hcfg, -, -, -, -, hissuer, henable, -⟩ := syncMatch_frame hu
  exact ⟨_, ht, ⟨exec_inv h.inv ht, hissuer.trans h.issuer, henable.trans h.enable⟩, hcfg, rfl⟩

/-- Settles O1: a sample of PROD that is not accepted answers the state it finds, and `ENABLE` is a pin. -/
theorem disabledSampleChangesNothing : Obligations.DisabledSampleChangesNothing := by
  refine ⟨fun bit s hissuer henable => ?_, fun _ _ => rfl⟩
  rw [exec_processBit_of_prod bit hissuer, henable]
  rfl

/-- Settles O2: the decoder part between the insertion and the advance is `Decoder.inserted`. -/
theorem acceptedSampleCompletes : Obligations.AcceptedSampleCompletes := by
  intro bit s hinv hissuer henable
  obtain ⟨u, hu, ht⟩ := exec_processBit_accepted ⟨hinv, hissuer, henable⟩ bit
  refine ⟨s.dec.inserted s.cfg.par bit, u, by simp, by simp, by simp, by simp, s.dec.wireBit_inserted _ bit, hu, ?_⟩
  simpa [Decoder.accept, advance] using ht

/-- Settles O3: the wire bit at the old cursor is the one the call inserted. -/
theorem decodedBitIsHighToLow : Obligations.DecodedBitIsHighToLow := by
  intro bit s hinv hissuer henable
  obtain ⟨t, ht, -, -, hdec⟩ := exec_processBit_dec ⟨hinv, hissuer, henable⟩ bit
  refine ⟨t, ht, by simp [hdec], ?_⟩
  rw [hdec, Decoder.wireBit_accept_cur]
  simp

/-- The advance modulo `w` of a cursor below `w` is a comparison with the last cursor. -/
theorem cursor_advance_eq {c w : Nat} (h : c < w) : (c + 1) % w = if c + 1 = w then 0 else c + 1 := by
  split
  next hlast => rw [hlast, Nat.mod_self]
  next hlast => exact Nat.mod_eq_of_lt (by omega)

/-- Settles O4: the second of two calls finds `PREV` the first sample, the other phase and the same cursor. -/
theorem cursorAdvancesOncePerTwoCalls : Obligations.CursorAdvancesOncePerTwoCalls := by
  refine ⟨fun bit s hinv hissuer henable => ?_, fun bit1 bit2 s hinv hissuer henable hphase => ?_⟩
  · obtain ⟨t, ht, -, -, hdec⟩ := exec_processBit_dec ⟨hinv, hissuer, henable⟩ bit
    exact ⟨t, ht, by simp [hdec], by rw [hdec, Decoder.accept_cur, cursor_advance_eq hinv.dec.cur]⟩
  · obtain ⟨t, ht, hacc, hcfg, htdec⟩ := exec_processBit_dec ⟨hinv, hissuer, henable⟩ bit1
    obtain ⟨u, hu, -, -, hudec⟩ := exec_processBit_dec hacc bit2
    have htphase : t.dec.phase = true := by simp [htdec, hphase]
    have htcur : t.dec.cur = s.dec.cur := by simp [htdec, Decoder.accept_cur, hphase]
    have hother1 : t.dec.db1 = s.dec.db1 := by
      simpa only [hphase, ← htdec, Bool.not_false, Decoder.db_true] using s.dec.accept_db_not s.cfg.par bit1
    have hother0 : u.dec.db0 = t.dec.db0 := by
      simpa only [htphase, ← hudec, Bool.not_true, Decoder.db_false] using t.dec.accept_db_not t.cfg.par bit2
    have hbit1 : wireBit t.dec.db0.read s.dec.cur = (s.dec.prev && !bit1) := by
      simpa only [hphase, ← htdec, Decoder.db_false] using s.dec.wireBit_accept_cur s.cfg.par bit1
    have hbit2 : wireBit u.dec.db1.read t.dec.cur = (t.dec.prev && !bit2) := by
      simpa only [htphase, ← hudec, Decoder.db_true] using t.dec.wireBit_accept_cur t.cfg.par bit2
    refine ⟨t, u, ht, hu, htcur, ?_, by simp [hudec, htphase], hother1, hother0, hbit1, ?_⟩
    · rw [hudec, Decoder.accept_cur, if_pos htphase, htcur, hcfg]
    · rw [← htcur, hbit2, htdec, Decoder.accept_prev]

/-! ## The stream view -/

theorem streamBit_append_of_lt {l : List Bool} {k : Nat} (h : k < l.length) (r : List Bool) :
    streamBit (l ++ r) k = streamBit l k := by
  simp only [streamBit, List.getD_append _ _ _ _ h, List.getD_append l r false (k - 1) (by omega)]

/-- The bit that the call after the samples `l` decodes. -/
theorem streamBit_append_length (l : List Bool) (bit : Bool) :
    streamBit (l ++ [bit]) l.length = (l.getLastD false && !bit) := by
  cases l using List.reverseRecOn <;> simp [streamBit]

/-- Two calls of one parity, fewer than `2 * w` calls apart, write at different cursors. -/
theorem cursor_ne_of_near {k n w : Nat} (hkn : k < n) (hnear : n < k + 2 * w) (hparity : k % 2 = n % 2) :
    k / 2 % w ≠ n / 2 % w := by
  intro heq
  have hdvd : w ∣ n / 2 - k / 2 := (Nat.modEq_iff_dvd' (by omega)).mp heq
  have := Nat.le_of_dvd (by omega) hdvd
  omega

/-- The decoder part `d` is where the samples `l` lead from reset (spec/40_manchester_decoder.md R137). -/
structure FollowsStream (p : Params) (l : List Bool) (d : Decoder) : Prop where
  phase : d.phase = decide (l.length % 2 = 1)
  cur : d.cur = l.length / 2 % p.wBits
  prev : d.prev = l.getLastD false
  bits : ∀ k, k < l.length → l.length ≤ k + 2 * p.wBits →
    wireBit (d.db (decide (k % 2 = 1))).read (k / 2 % p.wBits) = streamBit l k

theorem followsStream_reset (p : Params) : FollowsStream p [] Decoder.reset :=
  ⟨rfl, (Nat.zero_mod _).symm, rfl, fun _ hk => absurd hk (Nat.not_lt_zero _)⟩

section

variable {p : Params} {l : List Bool} {d : Decoder}

/-- Only every second call advances the cursor. -/
theorem FollowsStream.accept_cur (h : FollowsStream p l d) (bit : Bool) :
    (d.accept p bit).cur = (l.length + 1) / 2 % p.wBits := by
  rw [Decoder.accept_cur, h.phase, h.cur]
  by_cases hodd : l.length % 2 = 1
  · rw [if_pos (by simpa using hodd), Nat.mod_add_mod, show (l.length + 1) / 2 = l.length / 2 + 1 by omega]
  · rw [if_neg (by simpa using hodd), show (l.length + 1) / 2 = l.length / 2 by omega]

/-- The new call writes its own bit, and of the older bits overwrites only the one of `2 * W_BITS` calls before. -/
theorem FollowsStream.accept_bits (hw : 0 < p.wBits) (h : FollowsStream p l d) (bit : Bool) {k : Nat} (hk : k < l.length + 1)
    (hkept : l.length + 1 ≤ k + 2 * p.wBits) :
    wireBit ((d.accept p bit).db (decide (k % 2 = 1))).read (k / 2 % p.wBits) = streamBit (l ++ [bit]) k := by
  obtain hold | rfl : k < l.length ∨ k = l.length := by omega
  · rw [streamBit_append_of_lt hold, ← h.bits k hold (by omega)]
    by_cases hparity : k % 2 = l.length % 2
    · have hactive : decide (k % 2 = 1) = d.phase := by rw [h.phase, hparity]
      have helsewhere : k / 2 % p.wBits ≠ d.cur := h.cur ▸ cursor_ne_of_near hold (by omega) hparity
      rw [hactive, Decoder.wireBit_accept_of_ne p bit d (Nat.mod_lt _ hw) helsewhere]
    · have hother : decide (k % 2 = 1) = !d.phase := by
        rw [h.phase, ← decide_not, decide_eq_decide]
        omega
      rw [hother, Decoder.accept_db_not]
  · rw [← h.phase, ← h.cur, Decoder.wireBit_accept_cur, h.prev, streamBit_append_length]

theorem FollowsStream.accept (hw : 0 < p.wBits) (h : FollowsStream p l d) (bit : Bool) :
    FollowsStream p (l ++ [bit]) (d.accept p bit) where
  phase := by
    rw [Decoder.accept_phase, h.phase, List.length_append, List.length_singleton, ← decide_not, decide_eq_decide]
    omega
  cur := by simpa using h.accept_cur bit
  prev := by simp
  bits k hk hkept := h.accept_bits hw bit (by simpa using hk) (by simpa using hkept)

end

/-- Samples fed to a decoder part that follows the stream `l` extend the stream. -/
theorem feed_followsStream (samples : List Bool) : ∀ {l : List Bool} {s : State}, Accepting s → FollowsStream s.cfg.par l s.dec →
    ∃ t, feed samples s = .next t ∧ FollowsStream s.cfg.par (l ++ samples) t.dec := by
  induction samples with
  | nil => exact fun {l s} _ hl => ⟨s, rfl, by simpa using hl⟩
  | cons bit rest ih =>
    intro l s hs hl
    obtain ⟨t, ht, hacc, hcfg, hdec⟩ := exec_processBit_dec hs bit
    have hnext : FollowsStream t.cfg.par (l ++ [bit]) t.dec := by
      rw [hcfg, hdec]
      exact hl.accept s.cfg.wBits_pos bit
    obtain ⟨u, hu, hlast⟩ := ih hacc hnext
    refine ⟨u, ?_, ?_⟩
    · rw [feed, ht, andThen_next, hu]
    · simpa [hcfg] using hlast

theorem feed_from_reset {s : State} (hs : Accepting s) (hreset : s.dec = Decoder.reset) (samples : List Bool) :
    ∃ t, feed samples s = .next t ∧ FollowsStream s.cfg.par samples t.dec :=
  feed_followsStream samples hs (l := []) (by rw [hreset]; exact followsStream_reset _)

/-- Settles O5, by induction on the samples: each accepted sample extends the stream that the decoder part follows. -/
theorem streamView : Obligations.StreamView := by
  intro samples s hinv hreset hissuer henable
  obtain ⟨t, ht, hphase, hcur, hprev, hbits⟩ := feed_from_reset ⟨hinv, hissuer, henable⟩ hreset samples
  exact ⟨t, ht, hphase, hcur, hprev, hbits⟩

/-! ## Manchester streams -/

theorem manch_cons (x : Bool) (data : List Bool) : manch (x :: data) = x :: (!x) :: manch data := rfl

@[simp] theorem manch_length (data : List Bool) : (manch data).length = 2 * data.length := by
  induction data with
  | nil => rfl
  | cons x data ih =>
    simp only [manch_cons, List.length_cons, ih]
    omega

/-- The first sample of a cell is the data bit, the second its complement (spec/30_encoding.md R92). -/
theorem manch_cell {data : List Bool} {k : Nat} (hk : k < data.length) :
    (manch data).getD (2 * k) false = data.getD k false ∧ (manch data).getD (2 * k + 1) false = !data.getD k false := by
  induction data generalizing k with
  | nil => exact absurd hk (Nat.not_lt_zero k)
  | cons x data ih =>
    cases k with
    | zero => simp [manch_cons]
    | succ k => simpa [manch_cons, Nat.mul_succ] using ih (Nat.lt_of_succ_lt_succ hk)

/-- Every call but the first decodes two samples of the stream. -/
theorem streamBit_succ (samples : List Bool) (k : Nat) :
    streamBit samples (k + 1) = (samples.getD k false && !samples.getD (k + 1) false) := by
  simp [streamBit]

section

variable {data : List Bool} {k : Nat}

/-- The call inside a cell decodes the data bit. -/
theorem streamBit_manch_odd (hk : k < data.length) : streamBit (manch data) (2 * k + 1) = data.getD k false := by
  obtain ⟨hfirst, hsecond⟩ := manch_cell hk
  rw [streamBit_succ, hfirst, hsecond, Bool.not_not, Bool.and_self]

/-- The call between two cells decodes a 1 only between two 0 bits. -/
theorem streamBit_manch_even (hk : k + 1 < data.length) :
    streamBit (manch data) (2 * (k + 1)) = (!data.getD k false && !data.getD (k + 1) false) := by
  obtain ⟨-, hsecond⟩ := manch_cell (Nat.lt_of_succ_lt hk)
  obtain ⟨hfirst, -⟩ := manch_cell hk
  rw [show 2 * (k + 1) = 2 * k + 1 + 1 by omega] at hfirst ⊢
  rw [streamBit_succ, hsecond, hfirst]

/-- With one sample in front, the call inside a cell is of the other parity. -/
theorem streamBit_cons_manch (first : Bool) (hk : k < data.length) :
    streamBit (first :: manch data) (2 * (k + 1)) = data.getD k false := by
  rw [show 2 * (k + 1) = 2 * k + 1 + 1 by omega, streamBit_succ, List.getD_cons_succ, List.getD_cons_succ, ← streamBit_succ,
    streamBit_manch_odd hk]

end

section

variable {p : Params} {l : List Bool} {d : Decoder} {j : Nat}

theorem FollowsStream.db0_bit (h : FollowsStream p l d) (hj : 2 * j < l.length) (hkept : l.length ≤ 2 * j + 2 * p.wBits) :
    wireBit d.db0.read (j % p.wBits) = streamBit l (2 * j) := by
  simpa using h.bits (2 * j) hj hkept

theorem FollowsStream.db1_bit (h : FollowsStream p l d) (hj : 2 * j + 1 < l.length) (hkept : l.length ≤ 2 * j + 1 + 2 * p.wBits) :
    wireBit d.db1.read (j % p.wBits) = streamBit l (2 * j + 1) := by
  have hbit := h.bits (2 * j + 1) hj hkept
  rwa [decide_eq_true (by omega : (2 * j + 1) % 2 = 1), show (2 * j + 1) / 2 = j by omega] at hbit

end

/-- Settles O6: the stream view at the calls inside the cells, and at the calls between them. -/
theorem manchesterStreamDecodes : Obligations.ManchesterStreamDecodes := by
  intro data s hinv hreset hissuer henable hlen
  have hs : Accepting s := ⟨hinv, hissuer, henable⟩
  constructor
  · obtain ⟨t, ht, hstream⟩ := feed_from_reset hs hreset (manch data)
    refine ⟨t, ht, fun k hk => ?_, fun k hk => ?_⟩
    · rw [← streamBit_manch_odd hk, ← hstream.db1_bit (by rw [manch_length]; omega) (by rw [manch_length]; omega),
        Nat.mod_eq_of_lt (by omega)]
    · rw [← streamBit_manch_even hk, ← hstream.db0_bit (by rw [manch_length]; omega) (by rw [manch_length]; omega),
        Nat.mod_eq_of_lt (by omega)]
  · intro first
    obtain ⟨t, ht, hstream⟩ := feed_from_reset hs hreset (first :: manch data)
    refine ⟨t, ht, fun k hk => ?_⟩
    have hlength : (first :: manch data).length = 2 * data.length + 1 := by rw [List.length_cons, manch_length]
    rw [← streamBit_cons_manch first hk, ← hstream.db0_bit (by omega) (by omega)]

end Sys2Proof.Machine
end

section
/-! The wire view of bytes (spec/00_scope.md R11, R12): what consecutive wire bits are as a number, as a sum and as
bytes, and which wire bits realignment brings to the front (spec/46_dispatch.md R282). -/

namespace Sys2Proof

/-! ## Wire bits as a number -/

section

variable (rd : Nat → Byte)

theorem wireBit_toNat {i r : Nat} (hr : r < 8) : (wireBit rd (8 * i + r)).toNat = (rd i).toNat / 2 ^ (7 - r) % 2 := by
  rw [wireBit, show (8 * i + r) / 8 = i by omega, show (8 * i + r) % 8 = r by omega, BitVec.getLsbD, Nat.toNat_testBit]

theorem wireNat_lt (q n : Nat) : wireNat rd q n < 2 ^ n := by
  induction n with
  | zero => simp [wireNat]
  | succ n ih =>
    have hbit : (wireBit rd (q + n)).toNat < 2 := Bool.toNat_lt _
    rw [wireNat, Nat.pow_succ]
    omega

/-- A run of wire bits is its first part followed by the rest. -/
theorem wireNat_add (q m n : Nat) : wireNat rd q (m + n) = wireNat rd q m * 2 ^ n + wireNat rd (q + m) n := by
  induction n with
  | zero => simp [wireNat]
  | succ n ih =>
    rw [← Nat.add_assoc, wireNat, wireNat, ih, Nat.pow_succ, Nat.add_assoc q]
    ring

/-- The sum form (spec/44_field_extractor.md R230): wire bit `q + i` weighs `2 ^ (n - 1 - i)`. -/
theorem wireNat_eq_sum (q n : Nat) :
    wireNat rd q n = ∑ i ∈ Finset.range n, (wireBit rd (q + i)).toNat * 2 ^ (n - 1 - i) := by
  induction n with
  | zero => rfl
  | succ n ih =>
    have hdouble : ∀ i ∈ Finset.range n, (wireBit rd (q + i)).toNat * 2 ^ (n + 1 - 1 - i) =
        2 * ((wireBit rd (q + i)).toNat * 2 ^ (n - 1 - i)) := by
      intro i hi
      rw [show n + 1 - 1 - i = n - 1 - i + 1 by have := Finset.mem_range.mp hi; omega, Nat.pow_succ]
      ring
    rw [wireNat, ih, Finset.sum_range_succ, Finset.sum_congr rfl hdouble, ← Finset.mul_sum]
    simp

/-- The first wire bits of a byte are its upper bits. -/
theorem wireNat_byte_prefix (i : Nat) {n : Nat} (hn : n ≤ 8) : wireNat rd (8 * i) n = (rd i).toNat / 2 ^ (8 - n) := by
  induction n with
  | zero => simp [wireNat, Nat.div_eq_of_lt (rd i).isLt]
  | succ n ih =>
    rw [wireNat, ih (by omega), wireBit_toNat rd (by omega), show 8 - n = 7 - n + 1 by omega, Nat.pow_succ, ← Nat.div_div_eq_div_mul,
      show 8 - (n + 1) = 7 - n by omega]
    exact Nat.div_add_mod _ 2

/-- Whole bytes are their big-endian value. -/
theorem wireNat_bytes (i n : Nat) : wireNat rd (8 * i) (8 * n) = beNat rd i n := by
  induction n with
  | zero => rfl
  | succ n ih =>
    rw [Nat.mul_succ, wireNat_add, ih, ← Nat.mul_add, wireNat_byte_prefix rd _ le_rfl, beNat]
    simp [Nat.mul_comm]

/-- Whole bytes and the first wire bits of the byte after them. -/
theorem wireNat_bytes_add (i n : Nat) {r : Nat} (hr : r ≤ 8) :
    wireNat rd (8 * i) (8 * n + r) = beNat rd i n * 2 ^ r + (rd (i + n)).toNat / 2 ^ (8 - r) := by
  rw [wireNat_add, wireNat_bytes, ← Nat.mul_add, wireNat_byte_prefix rd _ hr]

/-- The bytewise form of `8 * n` wire bits from `q` on: the bytes that hold them, shifted, without the bits in front of `q`. -/
theorem wireNat_unaligned (q n : Nat) : wireNat rd q (8 * n) =
    (beNat rd (q / 8) n * 2 ^ (q % 8) + (rd (q / 8 + n)).toNat / 2 ^ (8 - q % 8)) % 2 ^ (8 * n) := by
  have hsplit : wireNat rd (8 * (q / 8)) (8 * n + q % 8) =
      wireNat rd (8 * (q / 8)) (q % 8) * 2 ^ (8 * n) + wireNat rd q (8 * n) := by
    rw [Nat.add_comm (8 * n), wireNat_add, Nat.div_add_mod]
  rw [← wireNat_bytes_add rd _ _ (by omega), hsplit, Nat.mul_add_mod_self_right, Nat.mod_eq_of_lt (wireNat_lt rd q _)]

end

/-! ## Realignment -/

theorem byteAt_realignBytes (o : Nat) (l : List Byte) (i : Nat) :
    byteAt (realignBytes o l) i = realignByte (byteAt l i) (byteAt l (i + 1)) o := by
  induction l using realignBytes.induct generalizing i with
  | case1 => simp [realignBytes, byteAt, realignByte]
  | case2 b => cases i <;> simp [realignBytes, byteAt, realignByte]
  | case3 b c r ih =>
    cases i with
    | zero => rfl
    | succ i => exact ih i

/-- The byte equation of `REALIGN` for every shift and every index: past the end zeros are read and zeros are made. -/
theorem byteAt_realign (l : List Byte) (o i : Nat) :
    byteAt (realign l o) i = realignByte (byteAt l i) (byteAt l (i + 1)) o := by
  by_cases ho : o = 0
  · rw [realign, if_pos ho, ho, realignByte, BitVec.ushiftRight_eq_zero (by omega)]
    simp
  · rw [realign, if_neg ho, byteAt_realignBytes]

theorem getLsbD_realignByte (x y : Byte) {o j : Nat} (ho : o ≤ 7) (hj : j < 8) :
    (realignByte x y o).getLsbD j = if o ≤ j then x.getLsbD (j - o) else y.getLsbD (8 - o + j) := by
  by_cases h : o ≤ j
  · simp [realignByte, h, hj, Nat.not_lt.mpr h, BitVec.getLsbD_of_ge y (8 - o + j) (by omega),
      BitVec.getLsbD_eq_getElem (x := x) (show j - o < 8 by omega)]
  · simp [realignByte, h, hj]

/-- Realignment by `o` brings wire bit `k + o` to place `k`; wire bits past the end are zero (spec/46_dispatch.md R282). -/
theorem wireBit_realign (l : List Byte) {o : Nat} (ho : o ≤ 7) (k : Nat) :
    wireBit (byteAt (realign l o)) k = wireBit (byteAt l) (k + o) := by
  rw [wireBit, wireBit, byteAt_realign, getLsbD_realignByte _ _ ho (by omega)]
  by_cases h : k % 8 + o < 8
  · rw [if_pos (by omega), show (k + o) / 8 = k / 8 by omega, show 7 - (k + o) % 8 = 7 - k % 8 - o by omega]
  · rw [if_neg (by omega), show (k + o) / 8 = k / 8 + 1 by omega, show 7 - (k + o) % 8 = 8 - o + (7 - k % 8) by omega]

end Sys2Proof
end

section
/-! The sync detector (spec/41_sync_detector.md). On the active window every access of an entry lies inside the alignment buffer, so an
entry's stage is a choice between leaving the state alone and pushing the captured frame. -/

namespace Sys2Proof.Machine

/-! ## Sequencing -/

theorem andThen_assoc {α β γ : Type} (x : Res α) (k : α → Res β) (l : β → Res γ) :
    andThen (andThen x k) l = andThen x fun a => andThen (k a) l := by
  cases x <;> rfl

@[simp] theorem andThen_next_right {α : Type} (x : Res α) : andThen x .next = x := by cases x <;> rfl

/-! ## The window -/

/-- The wire bits of bytes read from a memory. -/
theorem Memory.wireBit_readBytes (m : Memory) (a n : Nat) {k : Nat} (hk : k < 8 * n) :
    wireBit (byteAt (m.readBytes a n)) k = wireBit m.read (8 * a + k) := by
  rw [wireBit, wireBit, Memory.byteAt_readBytes, if_pos (by omega), show (8 * a + k) / 8 = a + k / 8 by omega,
    show (8 * a + k) % 8 = k % 8 by omega]

theorem compareWord_toNat (e : SyncEntry) (s : State) :
    (compareWord e s).toNat = wireNat (s.dec.db s.dec.phase).read (comparePos e s.dec.cur) 32 :=
  Nat.mod_eq_of_lt (wireNat_lt _ _ 32)

/-! ## Matching -/

theorem syncHit_iff {e : SyncEntry} {w : Word} : syncHit e w = true ↔ w &&& e.mask = e.pattern := decide_eq_true_iff

/-- Two entries that ask for different values of a bit both compare do not match the same word. -/
theorem syncHit_exclusive {e f : SyncEntry} (h : e.pattern &&& f.mask ≠ f.pattern &&& e.mask) {w : Word} (he : syncHit e w = true) :
    syncHit f w = false := by
  refine Bool.eq_false_iff.mpr fun hf => h ?_
  rw [← syncHit_iff.mp he, ← syncHit_iff.mp hf, BitVec.and_assoc, BitVec.and_assoc, BitVec.and_comm e.mask]

/-! ## One entry on the active window -/

/-- What an entry that matches does: its captured frame is pushed, and the result of the push is ignored (R158). -/
def capture (e : SyncEntry) (s : State) : Res State := andThen (push (capturedFrame e s) s) fun x => .next x.1

section

variable {s : State} {e : SyncEntry}

/-- A captured frame is pushed as `RB_PUSH` pushes it, without an answer. -/
theorem capture_completes (h : s.Inv) (hissuer : s.env.issuer = .prod) (e : SyncEntry) :
    ∃ t ok, push (capturedFrame e s) s = .next (t, ok) ∧
      exec (.rbPush (capturedFrame e s)) s = .next (t.answer (.push ok)) ∧ capture e s = .next t := by
  obtain ⟨⟨t, ok⟩, hpush⟩ := push_completes h.ring (capturedFrame e s)
  have hexec : exec (.rbPush (capturedFrame e s)) s = andThen (push (capturedFrame e s) s) fun x => .next (x.1.answer (.push x.2)) :=
    byAgent_of_mem (by simp [hissuer])
  refine ⟨t, ok, hpush, ?_, ?_⟩
  · rw [hexec, hpush, andThen_next]
  · rw [capture, hpush, andThen_next]

/-- The loop body of `SYNC_MATCH` on the active window (R152). -/
theorem trySync_active (h : s.Inv) (he : e ∈ [s.cfg.par.syncLong, s.cfg.par.syncExt, s.cfg.par.syncShort]) :
    trySync e s.dec.phase s.dec.cur s.env.now s =
      if syncHit e (compareWord e s) then andThen (capture e s) fun t => .next (t, true) else .next (s, false) := by
  obtain ⟨hword, hraw⟩ := sync_window_fits s.cfg he h.dec.cur
  rw [trySync, word32_eq_next.mpr ⟨hword, rfl⟩, memRead_eq_next.mpr ⟨hraw, rfl⟩, capture, andThen_assoc]
  rfl

theorem tryActive_of_prod (h : s.Inv) (hissuer : s.env.issuer = .prod)
    (he : e ∈ [s.cfg.par.syncLong, s.cfg.par.syncExt, s.cfg.par.syncShort]) :
    tryActive e s = if syncHit e (compareWord e s) then capture e s else .next s := by
  rw [tryActive, byAgent_of_mem (by simp [hissuer]), trySync_active h he]
  split
  · rw [andThen_assoc]
    exact andThen_next_right _
  · rfl

end

/-! ## The table on the active window -/

/-- `SYNC_MATCH` on the active window: the first entry that matches is captured (R153). -/
theorem syncMatch_active {s : State} (h : s.Inv) :
    syncMatch s.dec.phase s.dec.cur s.env.now s = (firstHit s).elim (.next s) (capture · s) := by
  rw [syncMatch, trySync_active h (by simp), firstHit]
  cases hlong : syncHit s.cfg.par.syncLong (compareWord s.cfg.par.syncLong s) with
  | true => simp [hlong, andThen_assoc]
  | false =>
    simp only [Bool.false_eq_true, if_false, andThen_next, List.find?_cons, hlong]
    rw [trySync_active h (by simp)]
    cases hext : syncHit s.cfg.par.syncExt (compareWord s.cfg.par.syncExt s) with
    | true => simp [andThen_assoc]
    | false =>
      simp only [Bool.false_eq_true, if_false, andThen_next]
      rw [trySync_active h (by simp)]
      cases hshort : syncHit s.cfg.par.syncShort (compareWord s.cfg.par.syncShort s) <;> simp [andThen_assoc]

/-- Settles O9: on the active window `SYNC_MATCH` is the capture of the first hit. -/
theorem syncMatchPushesFirstHit : Obligations.SyncMatchPushesFirstHit := by
  intro s h hissuer
  rw [exec_syncMatch_of_prod hissuer, syncMatch_active h]
  refine ⟨fun hnone => by rw [hnone, Option.elim_none], fun e he => ?_⟩
  obtain ⟨t, ok, hpush, hexec, hcapture⟩ := capture_completes h hissuer e
  exact ⟨t, ok, hpush, hexec, by rw [he, Option.elim_some, hcapture]⟩

/-- Settles O10: the three rows are one operation, `tryActive`, on the three entries. -/
theorem syncEntrySteps : Obligations.SyncEntrySteps := by
  intro s i e h hissuer hrow
  obtain ⟨he, hexec⟩ : e ∈ [s.cfg.par.syncLong, s.cfg.par.syncExt, s.cfg.par.syncShort] ∧ exec i s = tryActive e s := by
    simp only [List.mem_cons, Prod.mk.injEq, List.not_mem_nil, or_false] at hrow
    obtain ⟨rfl, rfl⟩ | ⟨rfl, rfl⟩ | ⟨rfl, rfl⟩ := hrow <;> exact ⟨by simp, rfl⟩
  rw [hexec, tryActive_of_prod h hissuer he]
  refine ⟨fun hmiss => if_neg (mt syncHit_iff.mp hmiss), fun hhit => ?_⟩
  obtain ⟨t, ok, -, hpush, hcapture⟩ := capture_completes h hissuer e
  exact ⟨t, ok, hpush, by rw [if_pos (syncHit_iff.mpr hhit), hcapture]⟩

/-- Settles O11: any two default patterns differ in a bit that both entries compare. -/
theorem defaultPatternsExclusive : Obligations.DefaultPatternsExclusive := fun _ =>
  ⟨fun hlong => ⟨syncHit_exclusive (by decide) hlong, syncHit_exclusive (by decide) hlong⟩, syncHit_exclusive (by decide)⟩

/-- Settles O8: the compare word is 32 wire bits of the window, which are a sum and a run of bytes. -/
theorem compareWordForms : Obligations.CompareWordForms := by
  intro s e h he m q
  obtain ⟨hlen, hpos⟩ := s.cfg.sync_fits he
  have hcur := h.dec.cur
  refine ⟨word32_eq_next.mpr ⟨(sync_window_fits s.cfg he hcur).1, rfl⟩, ?_, ?_, by omega⟩
  · rw [compareWord_toNat]
    exact wireNat_eq_sum m.read q 32
  · rw [compareWord_toNat]
    change wireNat m.read q 32 = _
    split
    · rw [← wireNat_bytes, show 8 * (q / 8) = q by omega]
    · exact wireNat_unaligned m.read q 4

/-! ## The captured frame -/

theorem capturedFrame_length (e : SyncEntry) (s : State) : (capturedFrame e s).length = 6 + e.len + 1 := by
  simp only [capturedFrame, frameHeader, List.length_append, List.length_cons, List.length_nil, Memory.readBytes_length]
  omega

/-- A timestamp is its four bytes, most significant first (spec/30_encoding.md R97). -/
theorem toNat_eq_bytes (w : Word) :
    (w.extractLsb' 24 8).toNat * 2 ^ 24 + (w.extractLsb' 16 8).toNat * 2 ^ 16 + (w.extractLsb' 8 8).toNat * 2 ^ 8 +
      (w.extractLsb' 0 8).toNat = w.toNat := by
  simp only [BitVec.extractLsb'_toNat, Nat.shiftRight_eq_div_pow]
  omega

/-- Settles O12: the raw bytes begin `q mod 8` wire bits in front of the first sync bit, which is what realignment takes off. -/
theorem capturedMessageIsWindow : Obligations.CapturedMessageIsWindow := by
  intro s e _ _ q f
  have hoff : num f 5 = q % 8 := Nat.mod_eq_of_lt ((Nat.mod_lt q (by decide)).trans (by decide))
  have hraw : f.drop 6 = (s.dec.db s.dec.phase).readBytes (q / 8) (e.len + 1) := rfl
  refine ⟨capturedFrame_length e s, rfl, toNat_eq_bytes s.env.now, hoff, fun k hk => ?_⟩
  have hlt : q % 8 < 8 := Nat.mod_lt _ (by decide)
  rw [hraw, hoff, wireBit_realign _ (by omega), Memory.wireBit_readBytes _ _ _ (by omega),
    show 8 * (q / 8) + (k + q % 8) = q + k by omega]

end Sys2Proof.Machine
end

section
/-! The operations of the framed ring buffer (spec/42_ring_buffer.md): for each instruction the one equation its agent gets, for each case
of an operation what the ring and the answer are, and the statements as uses of these. -/

namespace Sys2Proof.Machine

/-! ## The instructions, issued by their agent -/

section

variable {s : State}

theorem exec_rbInit_of_host (present : Bool) (capacity : Nat) (hissuer : s.env.issuer = .host) (hidle : s.env.drain = .idle) :
    exec (.rbInit present capacity) s = .next ((s.setRing (ringInit s.cfg.par.lenPrefix present capacity s.ring)).answer
      (.init (initAccepts s.cfg.par.lenPrefix present capacity))) :=
  (byAgent_of_mem (by simp [hissuer])).trans (whenIdle_of_idle hidle)

theorem exec_rbFreespace_of_mem (hissuer : s.env.issuer ∈ [Agent.prod, Agent.cons]) :
    exec .rbFreespace s = .next (s.answer (.freeSpace (freeSpace s.cfg.par.lenPrefix s.ring))) :=
  byAgent_of_mem hissuer

theorem exec_rbPush_of_push {data : List Byte} {t : State} {ok : Bool} (hissuer : s.env.issuer = .prod)
    (hpush : push data s = .next (t, ok)) : exec (.rbPush data) s = .next (t.answer (.push ok)) := by
  have hexec : exec (.rbPush data) s = andThen (push data s) fun x => .next (x.1.answer (.push x.2)) :=
    byAgent_of_mem (by simp [hissuer])
  rw [hexec, hpush, andThen_next]

theorem exec_rbPeek_of_peek {x : Nat × Option Nat} (hissuer : s.env.issuer = .cons)
    (hpeek : ringPeek s.cfg.par.lenPrefix s.ring = .next x) : exec .rbPeek s = .next (s.answer (.peek x.1 x.2)) := by
  have hexec : exec .rbPeek s = andThen (ringPeek s.cfg.par.lenPrefix s.ring) fun x => .next (s.answer (.peek x.1 x.2)) :=
    byAgent_of_mem (by simp [hissuer])
  rw [hexec, hpeek, andThen_next]

theorem exec_rbPop_of_pop {o : Bool} {k ret : Nat} {r : Ring} {out : List Byte} (hissuer : s.env.issuer = .cons)
    (hidle : s.env.drain = .idle) (hpop : ringPop s.cfg.par.lenPrefix o k s.ring = .next (r, ret, out)) :
    exec (.rbPop o k) s = .next ((s.setRing r).answer (.pop ret out)) := by
  have hexec : exec (.rbPop o k) s = andThen (ringPop s.cfg.par.lenPrefix o k s.ring) fun x =>
      .next ((s.setRing x.1).answer (.pop x.2.1 x.2.2)) :=
    (byAgent_of_mem (by simp [hissuer])).trans (whenIdle_of_idle hidle)
  rw [hexec, hpop, andThen_next]

theorem exec_rbOverflowcount_of_cons (hissuer : s.env.issuer = .cons) :
    exec .rbOverflowcount s = .next ((s.setRing { s.ring with ovf := 0 }).answer (.overflowCount s.ring.ovf)) :=
  byAgent_of_mem (by simp [hissuer])

end

/-! ## Init -/

theorem initAccepts_iff {p capacity : Nat} {present : Bool} :
    initAccepts p present capacity = true ↔ present = true ∧ p < capacity ∧ capacity ≤ 2 ^ (8 * p) := by
  simp [initAccepts, and_assoc]

/-- Settles O13: the conditions of the statement are the test of `RB_INIT`. -/
theorem ringInitResult : Obligations.RingInitResult := by
  intro present capacity s hissuer hidle
  rw [exec_rbInit_of_host present capacity hissuer hidle, ← initAccepts_iff, ringInit]
  constructor
  · intro hok
    exact ⟨s.ring.mem.zeroBelow capacity, s.ring.mem.read_zeroBelow capacity, by rw [if_pos hok, hok]⟩
  · intro hfails
    rw [if_neg hfails, Bool.eq_false_iff.mpr hfails]

/-! ## Free space -/

theorem freeSpace_of_invalid {p : Nat} {r : Ring} (hv : r.valid = false) : freeSpace p r = 0 := by simp [freeSpace, hv]

theorem freeSpace_of_valid {p : Nat} {r : Ring} (hv : r.valid = true) : freeSpace p r = freeBytes p r := if_pos hv

theorem freeBytes_eq_max (p : Nat) (r : Ring) :
    (freeBytes p r : Int) = max (max (regions p r.head r.tail r.cap).1 (regions p r.head r.tail r.cap).2) 0 :=
  Int.toNat_of_nonneg (le_max_right _ _)

theorem regions_of_tail_le_head {p h t c : Nat} (hle : t ≤ h) :
    regions p h t c = ((c : Int) - h - p - (if t = 0 then 1 else 0), (t : Int) - p - 1) := if_pos hle

theorem regions_of_head_lt_tail {p h t c : Nat} (hlt : h < t) : regions p h t c = ((t : Int) - h - p - 1, -1) :=
  if_neg (Nat.not_le.mpr hlt)

/-- Settles O14, by the order of head and tail; with the head below there is no second region. -/
theorem freeSpaceIsLargerRegion : Obligations.FreeSpaceIsLargerRegion := by
  intro s hissuer
  refine ⟨_, exec_rbFreespace_of_mem hissuer, freeSpace_of_invalid, fun hv hle => ?_, fun hv hlt => ?_⟩
  · rw [freeSpace_of_valid hv, freeBytes_eq_max, regions_of_tail_le_head hle]
  · rw [freeSpace_of_valid hv, freeBytes_eq_max, regions_of_head_lt_tail hlt]
    omega

/-- The free space leaves room for the length bytes and for the byte that keeps head and tail apart (spec/42_ring_buffer.md R195). -/
theorem freeBytes_le_capacity {p : Nat} {r : Ring} (hp : p < r.cap) (ht : r.tail < r.cap) :
    freeBytes p r + p + 1 ≤ r.cap := by
  have hmax := freeBytes_eq_max p r
  obtain hle | hlt := le_or_gt r.tail r.head
  · rw [regions_of_tail_le_head hle] at hmax
    dsimp only at hmax
    split at hmax <;> omega
  · rw [regions_of_head_lt_tail hlt] at hmax
    omega

/-! ## The outcomes of a push -/

section

variable {data : List Byte} {s : State}

theorem push_of_empty_data (h0 : data.length = 0) : push data s = .next (s, false) := by
  rw [push, ringPush, if_pos h0]
  rfl

theorem push_of_invalid (hv : s.ring.valid = false) : push data s = .next (s, false) := by
  have hring : ringPush s.cfg.par.lenPrefix s.cfg.par.ovfBits data s.ring = .next (s.ring, .rejected) := by simp [ringPush, hv]
  rw [push, hring]
  rfl

theorem push_of_overflow (h0 : 0 < data.length) (hv : s.ring.valid = true)
    (hs : freeSpace s.cfg.par.lenPrefix s.ring < data.length) :
    push data s = .next ((s.setRing { s.ring with ovf := (s.ring.ovf + 1) % 2 ^ s.cfg.par.ovfBits }).raise
      (.ringOverflow data.length), false) := by
  rw [freeSpace_of_valid hv] at hs
  rw [push, ringPush, if_neg h0.ne', if_neg (by simp [hv]), if_pos hs]
  rfl

/-- A push that fits stores its frame at the place `placeFrame` chooses. -/
theorem push_of_fits (h : RingInv s.cfg.par s.ring) (hv : s.ring.valid = true) (h0 : 0 < data.length)
    (hs : data.length ≤ freeSpace s.cfg.par.lenPrefix s.ring) :
    ∃ w m, placeFrame s.cfg.par.lenPrefix data.length s.ring = .next (w, m) ∧
      Placed s.cfg.par.lenPrefix data.length s.ring w m ∧
      push data s = .next (s.setRing (s.ring.store s.cfg.par.lenPrefix data w m), true) := by
  rw [freeSpace_of_valid hv] at hs
  obtain ⟨⟨w, m⟩, hplace⟩ := placeFrame_completes (p := s.cfg.par.lenPrefix) (size := data.length) (h.head hv)
  have hfit := placeFrame_fits (h.tail hv) h0.ne' hs hplace
  have hstore : storeFrame s.cfg.par.lenPrefix data w m s.ring = .next (s.ring.store s.cfg.par.lenPrefix data w m) :=
    storeFrame_eq_next.mpr ⟨by omega, hfit, rfl⟩
  refine ⟨w, m, hplace, placeFrame_placed (h.tail hv) h0.ne' hs hplace, ?_⟩
  rw [push, ringPush, if_neg h0.ne', if_neg (by simp [hv]), if_neg (not_lt.mpr hs), hplace, andThen_next, hstore]
  rfl

end

/-- Settles O15, one failure after the other. -/
theorem pushFailures : Obligations.PushFailures := fun _ _ hissuer =>
  ⟨fun h0 => exec_rbPush_of_push hissuer (push_of_empty_data h0),
    fun _ hv => exec_rbPush_of_push hissuer (push_of_invalid hv),
    fun h0 hv hs => exec_rbPush_of_push hissuer (push_of_overflow h0 hv hs)⟩

theorem push_succeeds_iff {data : List Byte} {s t : State} {ok : Bool} (hv : s.ring.valid = true)
    (hpush : push data s = .next (t, ok)) :
    ok = true ↔ 1 ≤ data.length ∧ data.length ≤ freeSpace s.cfg.par.lenPrefix s.ring := by
  obtain ⟨r, x, hring, hok, -⟩ := push_cases hpush
  rw [hok, freeSpace_of_valid hv]
  obtain ⟨rfl, -, h0⟩ | ⟨rfl, -, -, -, hs⟩ | ⟨rfl, h0, -, hs, -⟩ := ringPush_cases hring
  · replace h0 : data.length = 0 := h0.resolve_right (by simp [hv])
    simp [h0]
  · simp only [reduceCtorEq, false_iff]
    omega
  · simp only [true_iff]
    omega

/-- Settles O17: the push completes, and its outcome says whether the size fits. -/
theorem pushSucceedsIffItFits : Obligations.PushSucceedsIffItFits := by
  intro data s h hissuer hv
  obtain ⟨⟨t, ok⟩, hpush⟩ := push_completes h.ring data
  obtain ⟨-, -, -, -, -, -, -, -, -, -, hanswers⟩ := push_frame hpush
  obtain ⟨hp, -⟩ := h.ring.cap hv
  refine ⟨_, _, ok, exec_rbFreespace_of_mem (by simp [hissuer]), exec_rbPush_of_push hissuer hpush, by simp [hanswers],
    push_succeeds_iff hv hpush, ?_⟩
  rw [freeSpace_of_valid hv]
  exact freeBytes_le_capacity hp (h.ring.tail hv)

/-! ## The frame a push stores -/

/-- What `placeFrame` chooses: the place by the first region, and the storage, with a zero length at head before a wrap if there is room
for one. -/
theorem placeFrame_eq_next {p n w : Nat} {r : Ring} {m : Memory} (h : placeFrame p n r = .next (w, m)) :
    w = (if (n : Int) ≤ (regions p r.head r.tail r.cap).1 then r.head else 0) ∧
      m = if ¬ (n : Int) ≤ (regions p r.head r.tail r.cap).1 ∧ p ≤ r.cap - r.head then r.mem.writeBytes r.head (leBytes p 0)
        else r.mem := by
  obtain ⟨hfits, rfl, rfl⟩ | ⟨hfits, hroom, -, rfl, rfl⟩ | ⟨hfits, hroom, rfl, rfl⟩ := placeFrame_cases h
  · simp [hfits]
  · simp [hfits, hroom]
  · simp [hfits, hroom]

/-- The bytes that a place is chosen without touching: all but those of the sentinel. -/
theorem placeFrame_read {p n w : Nat} {r : Ring} {m : Memory} (h : placeFrame p n r = .next (w, m)) {a : Nat}
    (ha : ¬ (¬ (n : Int) ≤ (regions p r.head r.tail r.cap).1 ∧ p ≤ r.cap - r.head ∧ r.head ≤ a ∧ a < r.head + p)) :
    m.read a = r.mem.read a := by
  obtain ⟨-, rfl⟩ := placeFrame_eq_next h
  split
  · rw [Memory.read_writeBytes, leBytes_length, if_neg (by tauto)]
  · rfl

/-- The frame stored after a wrap lies below the head, so the sentinel stands. -/
theorem store_keeps_sentinel {p w : Nat} {data : List Byte} {r : Ring} {m : Memory} (hplace : placeFrame p data.length r = .next (w, m))
    (h0 : 0 < data.length) (hs : data.length ≤ freeBytes p r) (hfits : ¬ (data.length : Int) ≤ (regions p r.head r.tail r.cap).1)
    (hroom : p ≤ r.cap - r.head) : (r.store p data w m).mem.readBytes r.head p = leBytes p 0 := by
  have hsecond := second_region_below_tail ((fits_region_of_le_freeBytes h0.ne' hs).resolve_left hfits)
  obtain ⟨rfl, rfl⟩ := placeFrame_eq_next hplace
  rw [if_neg hfits, if_pos ⟨hfits, hroom⟩, store_readBytes_outside (by omega)]
  simpa using Memory.readBytes_writeBytes r.mem r.head (leBytes p 0)

/-- Settles O16: length and payload are read back, and outside frame and sentinel nothing is written. -/
theorem pushStoresFrame : Obligations.PushStoresFrame := by
  intro data s h hissuer hv h0 hs p head fits w
  obtain ⟨w', m, hplace, -, hpush⟩ := push_of_fits h.ring hv h0 hs
  obtain rfl : w' = w := (placeFrame_eq_next hplace).1
  rw [freeSpace_of_valid hv] at hs
  refine ⟨(s.ring.store p data w m).mem, exec_rbPush_of_push hissuer hpush, store_readBytes_length, store_readBytes_data,
    store_keeps_sentinel hplace h0 hs, fun a hframe hsentinel => ?_⟩
  rw [store_read_outside (by omega), placeFrame_read hplace hsentinel]

/-- Settles O18: the placed frame is appended, so the ring is not empty. -/
theorem pushAppendsFrame : Obligations.PushAppendsFrame := by
  intro data s fs h hissuer hv hfs h0 hs
  obtain ⟨w, m, -, hplaced, hpush⟩ := push_of_fits h.ring hv h0 hs
  have happends := hplaced.appends h.ring hv s.cfg.lenPrefix_pos h0.ne' hfs
  exact ⟨_, exec_rbPush_of_push hissuer hpush, happends, fun hempty => by
    simpa using (head_eq_tail_iff_nil happends).mp hempty⟩

/-! ## Peek and pop on the frames a ring holds -/

section

variable {p t n k : Nat} {r : Ring}

theorem ringPeek_of_empty (h : r.head = r.tail) : ringPeek p r = .next (0, none) :=
  ringPeek_eq_none.mpr ⟨locate_of_empty h, rfl⟩

theorem ringPop_of_empty (h : r.head = r.tail) (o : Bool) : ringPop p o k r = .next (r, 0, []) := by
  rw [ringPop, locate_of_empty h, andThen_next]

theorem ringPop_sizeQuery (hl : locate p r = .next (some (t, n))) : ringPop p true 0 r = .next (r, n, []) := by
  rw [ringPop, hl, andThen_next]
  rfl

/-- A copy takes the first bytes of the frame and consumes all of it. -/
theorem ringPop_copy (hl : locate p r = .next (some (t, n))) (hfit : t + p + n ≤ r.cap) (hk : 1 ≤ k) :
    ringPop p true k r = .next (r.skip p t n, min n k, (r.mem.readBytes (t + p) n).take k) := by
  have hread : memRead r.cap r.mem (t + p) (min n k) = .next ((r.mem.readBytes (t + p) n).take k) :=
    memRead_eq_next.mpr ⟨by omega, by rw [Memory.readBytes_take, Nat.min_comm]⟩
  simp [ringPop, hl, Nat.one_le_iff_ne_zero.mp hk, hread, Ring.skip]

theorem ringPop_discard (hl : locate p r = .next (some (t, n))) (hfit : t + p + n ≤ r.cap) :
    ringPop p false k r = .next (r.skip p t n, 0, []) := by
  have hread : memRead r.cap r.mem (t + p) 0 = .next [] := memRead_eq_next.mpr ⟨by omega, rfl⟩
  simp [ringPop, hl, hread, Ring.skip]

end

/-- Settles O19: the oldest frame is the one `locate` finds. -/
theorem peekShowsOldestFrame : Obligations.PeekShowsOldestFrame := by
  intro s h hissuer
  refine ⟨fun hnone => exec_rbPeek_of_peek hissuer (ringPeek_of_empty (holdsFrames_nil.mp hnone)), fun f fs hfs => ?_⟩
  obtain ⟨t, hl, -, hdata, -⟩ := holdsFrames_cons.mp hfs
  exact ⟨_, exec_rbPeek_of_peek hissuer (ringPeek_eq_some.mpr ⟨t, hl, rfl⟩), hdata, locate_fits h.ring hl⟩

/-- Settles O20: the four cases of pop on the frame that `locate` finds; consuming it is `Ring.skip`. -/
theorem popFourCases : Obligations.PopFourCases := by
  intro s h hissuer hidle
  refine ⟨fun hnone o k => exec_rbPop_of_pop hissuer hidle (ringPop_of_empty (holdsFrames_nil.mp hnone) o), fun f fs hfs => ?_⟩
  obtain ⟨t, hl, -, hdata, hrest⟩ := holdsFrames_cons.mp hfs
  have hfit := locate_fits h.ring hl
  refine ⟨exec_rbPop_of_pop hissuer hidle (ringPop_sizeQuery hl), _, ringPeek_eq_some.mpr ⟨t, hl, rfl⟩, hrest, fun k hk => ?_,
    fun k => exec_rbPop_of_pop hissuer hidle (ringPop_discard hl hfit)⟩
  have hpop := ringPop_copy hl hfit hk
  rw [hdata] at hpop
  exact exec_rbPop_of_pop hissuer hidle hpop

/-! ## A peeked frame while PROD pushes -/

/-- The bytes of a peeked frame are occupied, and a push writes no occupied byte (spec/42_ring_buffer.md R187). -/
theorem RingInv.payload_stable {p : Params} {r r' : Ring} (h : RingInv p r) (hx : Pushes p r r') {n ptr : Nat}
    (hpeek : ringPeek p.lenPrefix r = .next (n, some ptr)) : r'.mem.readBytes ptr n = r.mem.readBytes ptr n := by
  obtain ⟨t, hl, rfl⟩ := ringPeek_eq_some.mp hpeek
  obtain ⟨horder, -⟩ := h.first_frame hl
  obtain rfl | ⟨-, rfl⟩ | ⟨hv, data, w, m, h0, hw, rfl⟩ := pushes_cases h hx
  · rfl
  · rfl
  · exact (hw.keepsFrames h0 (h.head hv) (h.tail hv)).readBytes_eq fun b h1 h2 => frame_occupied hl horder (by omega) (by omega)

theorem exec_rbPush_pushes {data : List Byte} {s t : State} (h : exec (.rbPush data) s = .next t) :
    t.cfg = s.cfg ∧ Pushes s.cfg.par s.ring t.ring := by
  obtain ⟨-, h⟩ := byAgent_eq_next.mp h
  obtain ⟨⟨u, ok⟩, hpush, h⟩ := andThen_eq_next.mp h
  obtain ⟨hcfg, -⟩ := push_frame hpush
  have hpushes := push_pushes hpush
  cases h
  exact ⟨hcfg, hpushes⟩

/-- Settles O23: a push of any outcome keeps the frame a peek finds and its payload. -/
theorem peekIsStableUnderPush : Obligations.PeekIsStableUnderPush := by
  intro data s t n ptr h _ hpeek hexec
  obtain ⟨hcfg, hpushes⟩ := exec_rbPush_pushes hexec
  rw [hcfg]
  exact ⟨h.ring.peek_stable hpushes hpeek, h.ring.payload_stable hpushes hpeek⟩

/-! ## The overflow counter -/

/-- Settles O22: the second read finds the cleared counter. -/
theorem overflowCountReadsAndClears : Obligations.OverflowCountReadsAndClears := fun s hissuer =>
  ⟨_, exec_rbOverflowcount_of_cons hissuer, rfl,
    exec_rbOverflowcount_of_cons (s := (s.setRing { s.ring with ovf := 0 }).answer (.overflowCount s.ring.ovf)) hissuer⟩

end Sys2Proof.Machine
end

section
/-! The CRC engines (spec/43_crc_engines.md). Eight rounds of the table generation on a byte-aligned register are eight shifts of the network that
takes the byte's bits one at a time, so an engine is the network over the list's wire bits. In the network a flipped input bit leaves two registers
that differ, and agree below the lowest term of the polynomial; every shift by equal input bits keeps that. -/

namespace Sys2Proof.Machine

/-! ## The bits of a byte list in wire order -/

theorem byteAt_zero (b : Byte) (l : List Byte) : byteAt (b :: l) 0 = b := rfl

theorem byteAt_succ (b : Byte) (l : List Byte) (i : Nat) : byteAt (b :: l) (i + 1) = byteAt l i := rfl

theorem byteAt_set {l : List Byte} {i : Nat} (hi : i < l.length) (b : Byte) (j : Nat) :
    byteAt (l.set i b) j = if j = i then b else byteAt l j := by
  obtain rfl | h := eq_or_ne j i
  · simp [byteAt, hi]
  · simp [byteAt, h, h.symm]

theorem wireBit_eq_getMsbD (rd : Nat → Byte) (q : Nat) : wireBit rd q = (rd (q / 8)).getMsbD (q % 8) := by
  rw [wireBit, BitVec.getMsbD_eq_getLsbD, decide_eq_true (Nat.mod_lt q (by decide)), Bool.true_and]

@[simp] theorem wireBits_nil : wireBits [] = [] := rfl

@[simp] theorem wireBits_length (l : List Byte) : (wireBits l).length = 8 * l.length := by simp [wireBits]

theorem wireBits_getElem (l : List Byte) (q : Nat) (hq : q < (wireBits l).length) : (wireBits l)[q] = wireBit (byteAt l) q := by
  simp [wireBits]

/-- The first byte gives the first eight wire bits, most significant bit first (spec/00_scope.md R11). -/
theorem wireBits_cons (b : Byte) (l : List Byte) : wireBits (b :: l) = (List.range 8).map b.getMsbD ++ wireBits l := by
  rw [wireBits, List.length_cons, Nat.mul_succ, Nat.add_comm, List.range_add, List.map_append, List.map_map, wireBits]
  congr 1
  refine List.map_congr_left fun q _ => ?_
  rw [Function.comp_apply, wireBit_eq_getMsbD, wireBit_eq_getMsbD, Nat.add_mod_left, Nat.add_div_left q (by decide), byteAt_succ]

/-! ## One shift of the network -/

/-- Adding a word to the register before a round is feeding its first bit to the network and adding the rest after the shift. -/
theorem crcRound_xor (poly c x : Half) : crcRound poly (c ^^^ x) = crcShift poly c x.msb ^^^ (x <<< 1) := by
  rw [crcRound, crcShift, BitVec.msb_xor, BitVec.shiftLeft_xor_distrib]
  split
  · rw [BitVec.xor_assoc, BitVec.xor_assoc, BitVec.xor_comm poly]
  · rfl

/-- Adding a word to the register before `k` rounds is feeding its first `k` bits to the network and adding the rest after the shifts. -/
theorem crcRounds_xor (poly : Half) (k : Nat) (c x : Half) :
    crcRounds poly k (c ^^^ x) = ((List.range k).map x.getMsbD).foldl (crcShift poly) c ^^^ (x <<< k) := by
  induction k generalizing c x with
  | zero => simp [crcRounds]
  | succ k ih =>
    have htail : x.getMsbD ∘ Nat.succ = (x <<< 1).getMsbD := funext fun i => (BitVec.getMsbD_shiftLeft x 1).symm
    rw [crcRounds, crcRound_xor, ih, List.range_succ_eq_map, List.map_cons, List.map_map, htail, Nat.add_comm, BitVec.shiftLeft_add]
    rfl

/-- The register with its high byte replaced by a byte of the list. -/
def withHighByte (c : Half) (b : Byte) : Half := b ++ c.setWidth 8

theorem withHighByte_getLsbD (c : Half) (b : Byte) (i : Nat) :
    (withHighByte c b).getLsbD i = if i < 8 then c.getLsbD i else b.getLsbD (i - 8) := by
  rw [withHighByte, BitVec.getLsbD_append, BitVec.getLsbD_setWidth]
  split <;> simp [*]

theorem withHighByte_getMsbD (c : Half) (b : Byte) {i : Nat} (hi : i < 8) : (withHighByte c b).getMsbD i = b.getMsbD i := by
  rw [withHighByte, BitVec.getMsbD_append, if_neg (Nat.not_le.mpr hi)]

theorem withHighByte_shiftLeft (c : Half) (b : Byte) : withHighByte c b <<< 8 = c <<< 8 := by
  refine BitVec.eq_of_getLsbD_eq fun i hi => ?_
  rw [BitVec.getLsbD_shiftLeft, BitVec.getLsbD_shiftLeft, withHighByte_getLsbD, if_pos (by omega)]

/-- The register with the high byte replaced differs from the register by the table's index, where the generation starts its rounds
(spec/43_crc_engines.md R211). -/
theorem crcIndex_eq_xor (c : Half) (b : Byte) : ((c >>> 8).setWidth 8 ^^^ b).setWidth 16 <<< 8 = c ^^^ withHighByte c b := by
  refine BitVec.eq_of_getLsbD_eq fun i hi => ?_
  rw [BitVec.getLsbD_xor, withHighByte_getLsbD]
  by_cases h : i < 8
  · simp [h]
  · simp [h, hi, show 8 + (i - 8) = i by omega, show i - 8 < 8 by omega, show i - 8 < 16 by omega]

/-- A step by a byte is eight shifts by its bits: the register's high byte cancels in the table's index, and its low byte is what the
rounds leave (spec/43_crc_engines.md R211). -/
theorem crcStep_eq_foldl (poly c : Half) (b : Byte) : crcStep poly c b = ((List.range 8).map b.getMsbD).foldl (crcShift poly) c := by
  have hbits : (List.range 8).map (withHighByte c b).getMsbD = (List.range 8).map b.getMsbD :=
    List.map_congr_left fun _ hi => withHighByte_getMsbD c b (List.mem_range.mp hi)
  rw [crcStep, crcTable, crcIndex_eq_xor, crcRounds_xor, hbits, withHighByte_shiftLeft, BitVec.xor_comm, BitVec.xor_assoc,
    BitVec.xor_self, BitVec.xor_zero]

/-- The table engine is the shift network (spec/43_crc_engines.md R211, R219). -/
theorem crcRun_eq_crcSerial (poly c : Half) (data : List Byte) : crcRun poly c data = crcSerial poly c data := by
  rw [crcRun, crcSerial]
  induction data generalizing c with
  | nil => rfl
  | cons b l ih => rw [List.foldl_cons, ih, wireBits_cons, List.foldl_append, crcStep_eq_foldl]

theorem crcAnswer_eq (p : CrcParams) (data : List Byte) :
    crcAnswer p data = .crc (crcSerial p.poly p.init data) (decide (crcSerial p.poly p.init data = p.residual)) := by
  rw [crcAnswer, crcOk, crcOf, crcRun_eq_crcSerial]

theorem exec_crcBch (data : List Byte) (s : State) : exec (.crcBch data) s = .next (s.answer (crcAnswer s.cfg.par.bch data)) := rfl

theorem exec_crcCcitt (data : List Byte) (s : State) :
    exec (.crcCcitt data) s = .next (s.answer (crcAnswer s.cfg.par.ccitt data)) := rfl

/-- Settles O26: each engine answers its table run, which is the shift network. -/
theorem crcEnginesAreShiftNetworks : Obligations.CrcEnginesAreShiftNetworks := fun data s =>
  ⟨by rw [exec_crcBch, crcAnswer_eq], by rw [exec_crcCcitt, crcAnswer_eq]⟩

/-! ## One flipped bit -/

/-- The mask of wire bit `a` of a byte (spec/00_scope.md R11). -/
theorem getLsbD_wireMask : ∀ a < 8, ∀ b < 8, ((0x80 : Byte) >>> a).getLsbD (7 - b) = decide (b = a) := by decide

theorem wireBit_flipWireBit {l : List Byte} {k : Nat} (hk : k < 8 * l.length) (q : Nat) :
    wireBit (byteAt (flipWireBit l k)) q = if q = k then !wireBit (byteAt l) q else wireBit (byteAt l) q := by
  rw [wireBit, wireBit, flipWireBit, byteAt_set (by omega)]
  by_cases hbyte : q / 8 = k / 8
  · rw [if_pos hbyte, hbyte, BitVec.getLsbD_xor, getLsbD_wireMask _ (Nat.mod_lt k (by decide)) _ (Nat.mod_lt q (by decide))]
    by_cases hbit : q % 8 = k % 8
    · rw [if_pos (by omega), decide_eq_true hbit, Bool.xor_true]
    · rw [if_neg (by omega), decide_eq_false hbit, Bool.xor_false]
  · rw [if_neg hbyte, if_neg (by omega)]

theorem wireBits_flipWireBit {l : List Byte} {k : Nat} (hk : k < 8 * l.length) :
    wireBits (flipWireBit l k) = (wireBits l).modify k not := by
  refine List.ext_getElem (by simp [flipWireBit]) fun q _ _ => ?_
  simp only [wireBits_getElem, List.getElem_modify, wireBit_flipWireBit hk, eq_comm]

theorem crcShift_getLsbD (poly c : Half) (bit : Bool) (i : Nat) :
    (crcShift poly c bit).getLsbD i = ((c <<< 1).getLsbD i ^^ ((c.msb ^^ bit) && poly.getLsbD i)) := by
  unfold crcShift
  split <;> simp [*]

/-- The registers agree on the bits below the lowest term of the polynomial. -/
def AgreeLow (poly c d : Half) : Prop := ∀ i < poly.ctz.toNat, c.getLsbD i = d.getLsbD i

section

variable {poly c d : Half}

theorem AgreeLow.shiftLeft (h : AgreeLow poly c d) {i : Nat} (hi : i ≤ poly.ctz.toNat) :
    (c <<< 1).getLsbD i = (d <<< 1).getLsbD i := by
  rw [BitVec.getLsbD_shiftLeft, BitVec.getLsbD_shiftLeft]
  by_cases h0 : i < 1
  · simp [h0]
  · rw [h (i - 1) (by omega)]

/-- A shift by any bits keeps the agreement: the polynomial has no term there. -/
theorem AgreeLow.shift (h : AgreeLow poly c d) (x y : Bool) : AgreeLow poly (crcShift poly c x) (crcShift poly d y) := by
  intro i hi
  rw [crcShift_getLsbD, crcShift_getLsbD, h.shiftLeft hi.le, BitVec.getLsbD_false_of_lt_ctz hi, Bool.and_false, Bool.and_false]

/-- At its lowest term the polynomial shows whether it was added. -/
theorem AgreeLow.feedback_eq (h : AgreeLow poly c d) (hpoly : poly ≠ 0) {x y : Bool}
    (heq : crcShift poly c x = crcShift poly d y) : (c.msb ^^ x) = (d.msb ^^ y) := by
  have hbit := congrArg (BitVec.getLsbD · poly.ctz.toNat) heq
  simpa only [crcShift_getLsbD, h.shiftLeft le_rfl, BitVec.getLsbD_true_ctz_of_ne_zero hpoly, Bool.and_true, Bool.xor_right_inj] using hbit

theorem eq_of_msb_of_shiftLeft (hmsb : c.msb = d.msb) (hshift : c <<< 1 = d <<< 1) : c = d := by
  refine BitVec.eq_of_getMsbD_eq fun i _ => ?_
  cases i with
  | zero => exact hmsb
  | succ i => simpa only [BitVec.getMsbD_shiftLeft] using congrArg (BitVec.getMsbD · i) hshift

/-- On registers that agree below the lowest term a shift loses nothing, even if the polynomial has no constant term. -/
theorem AgreeLow.shift_injective (h : AgreeLow poly c d) (hpoly : poly ≠ 0) {x : Bool}
    (heq : crcShift poly c x = crcShift poly d x) : c = d := by
  have hfeedback := h.feedback_eq hpoly heq
  refine eq_of_msb_of_shiftLeft (Bool.xor_left_inj.mp hfeedback) ?_
  unfold crcShift at heq
  rw [hfeedback] at heq
  split at heq
  · exact (BitVec.xor_left_inj poly).mp heq
  · exact heq

theorem foldl_crcShift_ne (hpoly : poly ≠ 0) (bits : List Bool) (h : AgreeLow poly c d) (hne : c ≠ d) :
    bits.foldl (crcShift poly) c ≠ bits.foldl (crcShift poly) d := by
  induction bits generalizing c d with
  | nil => exact hne
  | cons x bits ih => exact ih (h.shift x x) (mt (h.shift_injective hpoly) hne)

/-- The two registers first differ at the flipped bit, where exactly one of them adds the polynomial. -/
theorem foldl_crcShift_modify_ne (hpoly : poly ≠ 0) (bits : List Bool) {k : Nat} (hk : k < bits.length) :
    (bits.modify k not).foldl (crcShift poly) c ≠ bits.foldl (crcShift poly) c := by
  induction bits generalizing c k with
  | nil => exact absurd hk (Nat.not_lt_zero k)
  | cons x bits ih =>
    cases k with
    | zero =>
      have hself : AgreeLow poly c c := fun _ _ => rfl
      rw [List.modify_zero_cons]
      refine foldl_crcShift_ne hpoly bits (hself.shift (!x) x) fun heq => ?_
      simpa using hself.feedback_eq hpoly heq
    | succ k =>
      rw [List.modify_succ_cons]
      exact ih (Nat.lt_of_succ_lt_succ hk)

end

theorem crcOf_flipWireBit_ne (p : CrcParams) {data : List Byte} {k : Nat} (hpoly : p.poly ≠ 0) (hk : k < 8 * data.length) :
    crcOf p (flipWireBit data k) ≠ crcOf p data := by
  rw [crcOf, crcOf, crcRun_eq_crcSerial, crcRun_eq_crcSerial, crcSerial, crcSerial, wireBits_flipWireBit hk]
  exact foldl_crcShift_modify_ne hpoly _ (by simpa using hk)

/-- Settles O27: the register changes, and only the residual is accepted (spec/43_crc_engines.md R217). -/
theorem singleBitFlipIsRejected : Obligations.SingleBitFlipIsRejected := by
  intro p data k hpoly hk
  have hne := crcOf_flipWireBit_ne p hpoly hk
  refine ⟨hne, fun hok => ?_⟩
  have hres : crcOf p data = p.residual := of_decide_eq_true hok
  exact decide_eq_false (hres ▸ hne)

end Sys2Proof.Machine
end

section
/-! The bit-packed field extractor (spec/44_field_extractor.md). Inside its domain a request answers the number its wire bits form, so each law
of the extractor is a law of that number. -/

namespace Sys2Proof

/-! ## Numbers formed by wire bits -/

section

variable {rd : Nat → Byte}

theorem wireNat_ofNat_toNat (q : Nat) {n w : Nat} (h : n ≤ w) : (BitVec.ofNat w (wireNat rd q n)).toNat = wireNat rd q n :=
  Nat.mod_eq_of_lt ((wireNat_lt rd q n).trans_le (Nat.pow_le_pow_right (by decide) h))

theorem wireNat_congr {rd' : Nat → Byte} {q q' n : Nat} (h : ∀ i < n, wireBit rd (q + i) = wireBit rd' (q' + i)) :
    wireNat rd q n = wireNat rd' q' n := by
  induction n with
  | zero => rfl
  | succ n ih => rw [wireNat, wireNat, ih fun i hi => h i (Nat.lt_succ_of_lt hi), h n n.lt_succ_self]

theorem beNat_lt (i n : Nat) : beNat rd i n < 2 ^ (8 * n) := by
  rw [← wireNat_bytes]
  exact wireNat_lt rd _ _

/-- A run inside a longer one: what follows it is shifted out, what precedes it is cut off. -/
theorem wireNat_middle (q a n t : Nat) : wireNat rd q (a + n + t) / 2 ^ t % 2 ^ n = wireNat rd (q + a) n := by
  rw [wireNat_add, wireNat_add, Nat.mul_comm _ (2 ^ t), Nat.mul_add_div (by positivity), Nat.div_eq_of_lt (wireNat_lt rd _ t),
    Nat.add_zero, Nat.mul_add_mod_self_right, Nat.mod_eq_of_lt (wireNat_lt rd _ n)]

/-- The bytewise form (spec/44_field_extractor.md R231), over any number `k` of bytes that hold the wire bits. -/
theorem wireNat_eq_beNat_shift {q n k : Nat} (h : q % 8 + n ≤ 8 * k) :
    wireNat rd q n = beNat rd (q / 8) k / 2 ^ (8 * k - q % 8 - n) % 2 ^ n := by
  have hlen : 8 * k = q % 8 + n + (8 * k - q % 8 - n) := by omega
  calc wireNat rd q n
      = wireNat rd (8 * (q / 8) + q % 8) n := by rw [Nat.div_add_mod]
    _ = wireNat rd (8 * (q / 8)) (8 * k) / 2 ^ (8 * k - q % 8 - n) % 2 ^ n := by
        rw [← wireNat_middle (8 * (q / 8)) (q % 8) n (8 * k - q % 8 - n), ← hlen]
    _ = _ := by rw [wireNat_bytes]

theorem wireNat_realign (l : List Byte) {o : Nat} (ho : o ≤ 7) (q n : Nat) :
    wireNat (byteAt (realign l o)) q n = wireNat (byteAt l) (q + o) n :=
  wireNat_congr fun i _ => by rw [wireBit_realign l ho, Nat.add_right_comm]

end

/-! ## The extractor's two outcomes -/

section

variable {buf : List Byte} {o n : Nat}

theorem extractInDomain_iff : extractInDomain buf o n = true ↔ 1 ≤ n ∧ n ≤ 32 ∧ o + n ≤ 8 * buf.length := by
  simp [extractInDomain, and_assoc]

theorem extractBits_inside (h1 : 1 ≤ n) (h32 : n ≤ 32) (hfit : o + n ≤ 8 * buf.length) :
    extractBits buf o n = some (BitVec.ofNat 32 (wireNat (byteAt buf) o n)) :=
  if_pos (extractInDomain_iff.mpr ⟨h1, h32, hfit⟩)

theorem extractBits_outside (h : ¬ (1 ≤ n ∧ n ≤ 32 ∧ o + n ≤ 8 * buf.length)) : extractBits buf o n = none :=
  if_neg (mt extractInDomain_iff.mp h)

/-- Byte-aligned requests are big-endian values (spec/44_field_extractor.md R233). -/
theorem extractBits_bytes {i k : Nat} (h1 : 1 ≤ k) (h4 : k ≤ 4) (hfit : i + k ≤ buf.length) :
    extractBits buf (8 * i) (8 * k) = some (BitVec.ofNat 32 (beNat (byteAt buf) i k)) := by
  rw [extractBits_inside (by omega) (by omega) (by omega), wireNat_bytes]

/-- The shift law (spec/44_field_extractor.md R234 (b)). -/
theorem extractBits_realign {sh : Nat} (hsh : sh ≤ 7) (h1 : 1 ≤ n) (h32 : n ≤ 32) (hfit : o + sh + n ≤ 8 * buf.length) :
    extractBits (realign buf sh) o n = extractBits buf (o + sh) n := by
  rw [extractBits_inside h1 h32 (by rw [Machine.realign_length]; omega), extractBits_inside h1 h32 hfit, wireNat_realign buf hsh]

/-- The split law (spec/44_field_extractor.md R234 (a)). -/
theorem extractBits_split {a b : Nat} (ha : 1 ≤ a) (hb : 1 ≤ b) (h32 : a + b ≤ 32) (hfit : o + a + b ≤ 8 * buf.length) :
    ∃ v x y : Word, extractBits buf o (a + b) = some v ∧ extractBits buf o a = some x ∧
      extractBits buf (o + a) b = some y ∧ v.toNat = x.toNat * 2 ^ b + y.toNat := by
  refine ⟨_, _, _, extractBits_inside (by omega) h32 (by omega), extractBits_inside ha (by omega) (by omega),
    extractBits_inside hb (by omega) hfit, ?_⟩
  rw [wireNat_ofNat_toNat _ h32, wireNat_ofNat_toNat _ (by omega), wireNat_ofNat_toNat _ (by omega), wireNat_add]

/-- A request is the field a parser takes at that place (spec/45_parsers.md R264). -/
theorem extractBits_eq_wireField (h1 : 1 ≤ n) (h32 : n ≤ 32) (hfit : o + n ≤ 8 * buf.length) :
    extractBits buf o n = some ((wireField buf o n).setWidth 32) := by
  rw [extractBits_inside h1 h32 hfit, wireField]
  congr 1
  refine BitVec.eq_of_toNat_eq ?_
  rw [BitVec.toNat_setWidth_of_le h32, wireNat_ofNat_toNat _ h32, wireNat_ofNat_toNat _ le_rfl]

end

end Sys2Proof

namespace Sys2Proof.Machine

/-! ## The instruction -/

theorem exec_extractBits (buf : List Byte) (o n : Nat) (s : State) :
    exec (.extractBits buf o n) s = execExtractBits buf o n s := rfl

theorem exec_extractBits_of_some {buf : List Byte} {o n : Nat} {v : Word} (h : extractBits buf o n = some v) (s : State) :
    exec (.extractBits buf o n) s = .next (s.answer (.extract v)) := by
  rw [exec_extractBits, execExtractBits, h]

theorem exec_extractBits_of_none {buf : List Byte} {o n : Nat} (h : extractBits buf o n = none) (s : State) :
    exec (.extractBits buf o n) s = .refused .extractDomain := by
  rw [exec_extractBits, execExtractBits, h]

/-- Settles O29: inside the domain the answer is the number the wire bits form. -/
theorem extractBitsValue : Obligations.ExtractBitsValue := by
  intro buf off len s
  refine ⟨fun ⟨h1, h32, hfit⟩ => ⟨_, exec_extractBits_of_some (extractBits_inside h1 h32 hfit) s, ?_⟩,
    fun h => exec_extractBits_of_none (extractBits_outside h) s⟩
  rw [wireNat_ofNat_toNat _ h32]
  exact ⟨wireNat_eq_sum _ off len, wireNat_lt _ off len⟩

/-- Settles O30: the bytes that hold the request's wire bits, shifted and cut. -/
theorem extractBitsBytewise : Obligations.ExtractBitsBytewise := by
  intro buf off len s h1 h32 hfit
  have hbytes : (off % 8 + len + 7) / 8 ≤ 5 := by omega
  have hacc : beNat (byteAt buf) (off / 8) ((off % 8 + len + 7) / 8) < 2 ^ 40 :=
    (beNat_lt _ _).trans_le (Nat.pow_le_pow_right (by decide) (by omega))
  refine ⟨by omega, hbytes, hacc, _, exec_extractBits_of_some (extractBits_inside h1 h32 hfit) s, ?_⟩
  rw [wireNat_ofNat_toNat _ h32]
  exact wireNat_eq_beNat_shift (by omega)

/-! ## Big-endian fields -/

section

variable (m : List Byte) (i : Nat)

theorem beNat_one : beNat (byteAt m) i 1 = num m i := by simp [beNat, num]

theorem beNat_two : beNat (byteAt m) i 2 = be16 m i := by
  rw [beNat, beNat_one, be16, num, num]
  omega

theorem beNat_three : beNat (byteAt m) i 3 = be24 m i := by
  rw [beNat, beNat_two, be16, be24, num, num, num]
  omega

theorem beNat_four : beNat (byteAt m) i 4 = be32 m i := by
  rw [beNat, beNat_three, be24, be32, num, num, num, num]
  omega

end

/-- Settles O31: one to four bytes. -/
theorem extractBitsByteAligned : Obligations.ExtractBitsByteAligned := by
  intro buf i
  rw [← beNat_one, ← beNat_two, ← beNat_three, ← beNat_four]
  exact ⟨extractBits_bytes (by decide) (by decide), extractBits_bytes (by decide) (by decide),
    extractBits_bytes (by decide) (by decide), extractBits_bytes (by decide) (by decide)⟩

/-! ## The SHORT fields as requests -/

/-- The identifier is two fields of the message, the higher part first (spec/45_parsers.md R246). -/
theorem shortRecord_id_toNat (l : ShortLayout) (m : List Byte) :
    (shortRecord l m).id.toNat = (wireField m l.idHi 2).toNat * 2 ^ 24 + (wireField m l.idLo 24).toNat := by
  change (wireField m l.idHi 2 ++ wireField m l.idLo 24).toNat = _
  rw [BitVec.toNat_append, ← Nat.shiftLeft_add_eq_or_of_lt (wireField m l.idLo 24).isLt, Nat.shiftLeft_eq]

/-- Settles O32: the split law, the shift law, and the SHORT fields as requests inside a message of 12 bytes. -/
theorem extractBitsLaws : Obligations.ExtractBitsLaws := by
  refine ⟨fun buf o a b => extractBits_split, fun buf sh o len => extractBits_realign, fun m hm => ?_⟩
  have hrequest : ∀ {pos w : Nat}, 1 ≤ w ∧ w ≤ 32 ∧ pos + w ≤ 8 * lenShort →
      extractBits m pos w = some ((wireField m pos w).setWidth 32) :=
    fun ⟨h1, h32, hfit⟩ => extractBits_eq_wireField h1 h32 (hm ▸ hfit)
  refine ⟨⟨_, _, hrequest (by decide), hrequest (by decide), ?_⟩, hrequest (by decide), hrequest (by decide),
    hrequest (by decide), hrequest (by decide), hrequest (by decide), hrequest (by decide)⟩
  rw [shortRecord_id_toNat, BitVec.toNat_setWidth_of_le (by decide), BitVec.toNat_setWidth_of_le (by decide)]
  rfl

end Sys2Proof.Machine
end

section
/-! The three parsers (spec/45_parsers.md). A message passes the gate of its CRC or does not, and every field of a record is a run of wire bits or
of bytes of the message, read at the layout's place. -/

namespace Sys2Proof

/-! ## Packed arrays -/

theorem packedArray_getD (m : List Byte) (start w : Nat) {count i : Nat} (hi : i < count) :
    (packedArray m start w count).getD i 0 = wireField m (start + w * i) w := by
  simp [packedArray, hi]

/-- An element of an array that ends at or below `last` does so too. -/
theorem packedArray_element_le {start w count last i : Nat} (h : start + w * count ≤ last) (hi : i < count) :
    start + w * i + w ≤ last := by
  have hnext : w * (i + 1) ≤ w * count := Nat.mul_le_mul_left w hi
  rw [Nat.mul_succ] at hnext
  omega

/-- An element of a packed array inside the message is the extractor's answer to its request (spec/30_encoding.md R111). -/
theorem extractBits_eq_packedArray {m : List Byte} {start w count i : Nat} (h1 : 1 ≤ w) (h32 : w ≤ 32)
    (hfit : start + w * count ≤ 8 * m.length) (hi : i < count) :
    extractBits m (start + w * i) w = some (((packedArray m start w count).getD i 0).setWidth 32) := by
  rw [packedArray_getD m start w hi, extractBits_eq_wireField h1 h32 (packedArray_element_le hfit hi)]

/-! ## The configured LONG layouts -/

namespace Cfg

/-- The 47 deltas of shape A lie inside the 92 bytes. -/
theorem longA_deltas_fit (c : Cfg) : c.par.longA.deltaBit + 9 * 47 ≤ 736 := by
  obtain ⟨hinside, -⟩ := layoutOk_iff.mp c.longA_ok
  exact (hinside (c.par.longA.deltaBit, 9 * 47) (by simp [LongALayout.body])).2

/-- The 27 deltas of shape B lie in front of the trailer. -/
theorem longB_deltas_fit (c : Cfg) : c.par.longB.deltaBit + 14 * 27 ≤ 688 := by
  obtain ⟨hinside, -⟩ := layoutOk_iff.mp c.longB_layoutOk
  exact (hinside (c.par.longB.deltaBit, 14 * 27) (by simp [LongBLayout.fields])).2

/-- The two counters of shape B have four bytes at most (spec/30_encoding.md R108). -/
theorem longB_counters_le (c : Cfg) : c.par.longB.lastLen ≤ 4 ∧ c.par.longB.hiresLen ≤ 4 := by
  have h := c.longB_ok
  simp only [LongBLayout.ok, Bool.and_eq_true, decide_eq_true_eq] at h
  obtain ⟨⟨⟨-, hlast⟩, -⟩, hhires⟩ := h
  exact ⟨hlast, hhires⟩

end Cfg

end Sys2Proof

namespace Sys2Proof.Machine

/-! ## Byte fields and slices -/

section

variable (m : List Byte) (i : Nat)

/-- A big-endian field holds the value of its bytes if its width has room for them. -/
theorem beField_toNat {n w : Nat} (h : 8 * n ≤ w) : (beField m i n w).toNat = beNat (byteAt m) i n :=
  Nat.mod_eq_of_lt ((beNat_lt i n).trans_le (Nat.pow_le_pow_right (by decide) h))

theorem beField_two : (beField m i 2 16).toNat = be16 m i := by rw [beField_toNat m i le_rfl, beNat_two]

theorem beField_three : (beField m i 3 24).toNat = be24 m i := by rw [beField_toNat m i le_rfl, beNat_three]

theorem beField_four : (beField m i 4 32).toNat = be32 m i := by rw [beField_toNat m i le_rfl, beNat_four]

theorem slice_eq_take (k : Nat) : slice m i (i + k) = (m.drop i).take (k + 1) := by
  rw [slice, Nat.add_assoc, Nat.add_sub_cancel_left]

/-! ## Fields of wire bits -/

theorem wireField_toNat (q n : Nat) : (wireField m q n).toNat = wireNat (byteAt m) q n := wireNat_ofNat_toNat q le_rfl

/-- A field of whole bytes. -/
theorem wireField_bytes (n : Nat) : (wireField m (8 * i) (8 * n)).toNat = beNat (byteAt m) i n := by
  rw [wireField_toNat, wireNat_bytes]

/-- A field inside one byte, behind its first `a` bits and before its last `t`. -/
theorem wireField_in_byte (a n t : Nat) (h : a + n + t = 8) : (wireField m (8 * i + a) n).toNat = num m i / 2 ^ t % 2 ^ n := by
  rw [wireField_toNat, ← wireNat_middle (8 * i) a n t, h, wireNat_byte_prefix _ i le_rfl, Nat.sub_self, pow_zero, Nat.div_one, num]

/-- A field at the end of a byte. -/
theorem wireField_byte_suffix (a n : Nat) (h : a + n = 8) : (wireField m (8 * i + a) n).toNat = num m i % 2 ^ n := by
  rw [wireField_in_byte m i a n 0 h, pow_zero, Nat.div_one]

/-- A field at the start of a byte. -/
theorem wireField_byte_prefix {n : Nat} (h : n ≤ 8) : (wireField m (8 * i) n).toNat = num m i / 2 ^ (8 - n) := by
  rw [wireField_toNat, wireNat_byte_prefix _ i h, num]

end

/-! ## The outcomes of a parser call -/

/-- What an accepted message leaves: the record stored, the event, and the answer 1 (spec/45_parsers.md R245, R274). -/
def acceptMessage (tag : Byte) (r : Record) (m : List Byte) (s : State) : State :=
  ((s.setCons (storeRecord r s.cons)).emit tag r m).answer (.accepted true)

/-- What a rejected message leaves: `CRC_FAIL` and the answer 0 (spec/45_parsers.md R270). -/
def rejectMessage (tag : Byte) (c : Half) (s : State) : State := (s.raise (.crcFail tag c)).answer (.accepted false)

@[simp] theorem acceptMessage_cons (tag : Byte) (r : Record) (m : List Byte) (s : State) :
    (acceptMessage tag r m s).cons = storeRecord r s.cons := by
  simp [acceptMessage]

section

variable {len : Nat} {parse : List Byte → State → State × Bool} {m : List Byte} {s : State} {p : CrcParams} {c : Half} {tag : Byte}
  {r : Record}

theorem callParser_of_lt (hissuer : s.env.issuer = .cons) (h : m.length < len) :
    callParser len parse m s = .refused .messageTooShort := by
  rw [callParser, byAgent_of_mem (by simp [hissuer]), if_pos h]

theorem callParser_of_le (hissuer : s.env.issuer = .cons) (h : len ≤ m.length) :
    callParser len parse m s = .next ((parse (m.take len) s).1.answer (.accepted (parse (m.take len) s).2)) := by
  rw [callParser, byAgent_of_mem (by simp [hissuer]), if_neg (Nat.not_lt.mpr h)]

/-- A call whose parser gates its message by the residual `c`, by the gate's two outcomes. -/
theorem callParser_of_gate (hissuer : s.env.issuer = .cons) (h : len ≤ m.length)
    (hgate : parse (m.take len) s = gate p c tag r (m.take len) s) :
    callParser len parse m s =
      .next (if c = p.residual then acceptMessage tag r (m.take len) s else rejectMessage tag c s) := by
  rw [callParser_of_le hissuer h, hgate]
  obtain ⟨hc, hout⟩ | ⟨hc, hout⟩ := gate_cases p c tag r (m.take len) s
  · rw [hout, if_pos hc, acceptMessage]
  · rw [hout, if_neg hc, rejectMessage]

/-- A message of the parser's own length on its accept residual. -/
theorem callParser_accepts (hissuer : s.env.issuer = .cons) (hm : m.length = len) (hgate : parse m s = gate p c tag r m s)
    (hc : c = p.residual) : callParser len parse m s = .next (acceptMessage tag r m s) := by
  have hwhole : m.take len = m := List.take_of_length_le hm.le
  rw [callParser_of_gate hissuer hm.ge (hwhole.symm ▸ hgate), if_pos hc, hwhole]

/-- A message of the parser's own length on any other residual. -/
theorem callParser_rejects (hissuer : s.env.issuer = .cons) (hm : m.length = len) (hgate : parse m s = gate p c tag r m s)
    (hc : c ≠ p.residual) : callParser len parse m s = .next (rejectMessage tag c s) := by
  have hwhole : m.take len = m := List.take_of_length_le hm.le
  rw [callParser_of_gate hissuer hm.ge (hwhole.symm ▸ hgate), if_neg hc]

end

/-- Settles O33: each parser gates by the residual of its own engine and check range. -/
theorem parsersAreGatedByCrc : Obligations.ParsersAreGatedByCrc := fun _ _ hissuer =>
  ⟨⟨callParser_of_lt hissuer, fun h => callParser_of_gate hissuer h rfl⟩,
   ⟨callParser_of_lt hissuer, fun h => callParser_of_gate hissuer h rfl⟩,
   ⟨callParser_of_lt hissuer, fun h => callParser_of_gate hissuer h rfl⟩⟩

/-- The register over a check range that reaches the end of the message. -/
theorem crcOf_range_to_end {p : CrcParams} {poly init residual : Half} {r : ByteRange} {i j : Nat} {m : List Byte}
    (hp : p = ⟨poly, init, residual⟩) (hr : r = ⟨i, j⟩) (hm : m.length = j + 1) :
    crcOf p (checkRange r m) = crcRun poly init (m.drop i) := by
  subst hp hr
  rw [crcOf, checkRange, slice, List.take_of_length_le (by rw [List.length_drop, hm])]

/-! ## SHORT -/

/-- Settles O34: the identifier is two fields put together, the others are fields inside one byte or of whole bytes. -/
theorem parseShortFields : Obligations.ParseShortFields := by
  intro m s hissuer hm hlayout hbch hrange
  have hcrc := crcOf_range_to_end hbch hrange hm
  have hres : s.cfg.par.bch.residual = 0 := by rw [hbch]
  rw [← hcrc, ← hres]
  refine ⟨fun hc => ⟨shortRecord defaultShortLayout m, ?_, ?_, wireField_byte_suffix m 2 7 1 rfl,
      wireField_byte_prefix m 3 (n := 2) (by decide), wireField_in_byte m 3 2 4 2 rfl, wireField_byte_suffix m 3 6 2 rfl,
      (wireField_bytes m 4 3).trans (beNat_three m 4), (wireField_bytes m 10 2).trans (beNat_two m 10)⟩,
    fun hc => callParser_rejects (parse := parseShort) hissuer hm rfl hc⟩
  · rw [← hlayout]
    exact callParser_accepts (parse := parseShort) hissuer hm rfl hc
  · have hhi : (wireField m 21 2).toNat = num m 2 / 2 % 4 := wireField_in_byte m 2 5 2 1 rfl
    have hlo : (wireField m 56 24).toNat = be24 m 7 := (wireField_bytes m 7 3).trans (beNat_three m 7)
    rw [← hhi, ← hlo]
    exact shortRecord_id_toNat defaultShortLayout m

/-! ## EXT -/

/-- Settles O35: every field is one of whole bytes, big-endian. -/
theorem parseExtFields : Obligations.ParseExtFields := by
  intro m s hissuer hm hccitt hrange
  have hcrc := crcOf_range_to_end hccitt hrange hm
  have hres : s.cfg.par.ccitt.residual = 0x1D0F := by rw [hccitt]
  rw [← hcrc, ← hres]
  exact ⟨fun hc => ⟨extRecord m, callParser_accepts (parse := parseExt) hissuer hm rfl hc, beField_two m 0, rfl, rfl, beField_four m 4,
      beField_four m 8, beField_two m 12, beField_two m 14⟩,
    fun hc => callParser_rejects (parse := parseExt) hissuer hm rfl hc⟩

/-! ## LONG -/

/-- A sub-type code outside the configured set gives shape A (spec/45_parsers.md R257). -/
theorem longRecord_shape_a {p : Params} {m : List Byte} (h : byteAt m p.longA.subtype ∉ p.subtypeB) :
    (longRecord p m).shape = .a (longBodyA p.longA m) := if_neg h

/-- A sub-type code of the configured set gives shape B (spec/45_parsers.md R257). -/
theorem longRecord_shape_b {p : Params} {m : List Byte} (h : byteAt m p.longA.subtype ∈ p.subtypeB) :
    (longRecord p m).shape = .b (longBodyB p.longB m) := if_pos h

theorem exec_parseLong_accepts {m : List Byte} {s : State} (hissuer : s.env.issuer = .cons) (hm : m.length = 92)
    (hc : crcOf s.cfg.par.ccitt (checkRange s.cfg.par.rangeLong m) = s.cfg.par.ccitt.residual) :
    exec (.parseLong m) s = .next (acceptMessage s.cfg.par.tagLong (.long (longRecord s.cfg.par m)) m s) :=
  callParser_accepts (parse := parseLong) hissuer hm rfl hc

/-- Settles O36: header and trailer are the record's own fields, and the sub-type code gives shape A. -/
theorem parseLongShapeA : Obligations.ParseLongShapeA := by
  intro m s hissuer hm hlayout hccitt hrange hcrc hsub
  have hc : crcOf s.cfg.par.ccitt (checkRange s.cfg.par.rangeLong m) = s.cfg.par.ccitt.residual := by
    rw [crcOf_range_to_end hccitt hrange hm, hcrc, hccitt]
  have hshape : (longRecord s.cfg.par m).shape = .a (longBodyA defaultLongALayout m) := by
    rw [← hlayout]
    exact longRecord_shape_a (by rw [hlayout]; exact hsub)
  have hdeltas : ∀ i, i < 47 → extractBits m (264 + 9 * i) 9 =
      some (((longBodyA defaultLongALayout m).delta.getD i 0).setWidth 32) :=
    fun i => extractBits_eq_packedArray (by decide) (by decide) (by rw [hm]; decide)
  refine ⟨longRecord s.cfg.par m, longBodyA defaultLongALayout m, exec_parseLong_accepts hissuer hm hc, ?_⟩
  rw [hshape]
  simp only [longRecord, hlayout]
  exact ⟨beField_four m 0, rfl, rfl, rfl, rfl, rfl, beField_four m 9, rfl, trivial,
    rfl, rfl, beField_two m 21, rfl, beField_four m 29, packedArray_length .., hdeltas,
    beField_two m 86, beField_two m 88, beField_two m 90⟩

/-- Settles O37: the record stored has the shape of its sub-type code, and shape B lies inside the message at any configured layout. -/
theorem parseLongShapeB : Obligations.ParseLongShapeB := by
  intro m s hissuer hm hc
  obtain ⟨hlast, hhires⟩ := s.cfg.longB_counters_le
  have hdeltas := s.cfg.longB_deltas_fit
  refine ⟨_, exec_parseLong_accepts hissuer hm hc, fun hsub => ?_, fun hsub => ?_⟩ <;> rw [acceptMessage_cons]
  · exact ⟨_, longRecord_shape_a hsub⟩
  · exact ⟨_, longRecord_shape_b hsub, slice_eq_take m _ 3, beField_toNat m _ (by omega), beField_three m _, beField_three m _,
      beField_toNat m _ (by omega), packedArray_length ..,
      fun i => extractBits_eq_packedArray (by decide) (by decide) (by omega)⟩

/-- Settles O38: each request is an element of a delta array that the layout's constraints put inside the message. -/
theorem longRequestsAreInDomain : Obligations.LongRequestsAreInDomain := by
  refine fun c m hm => ⟨fun i hi => ?_, fun i hi => ?_⟩
  · have hend := packedArray_element_le c.longA_deltas_fit hi
    exact extractInDomain_iff.mpr ⟨by decide, by decide, by omega⟩
  · have hend := packedArray_element_le c.longB_deltas_fit hi
    exact ⟨extractInDomain_iff.mpr ⟨by decide, by decide, by omega⟩, hend⟩

end Sys2Proof.Machine
end

section
/-! The dispatch loop (spec/46_dispatch.md). A tag selects its arm of `DISPATCH`, and an arm raises `UNKNOWN_TYPE` or realigns and parses. What
delivering a frame does depends neither on the ring nor on the place in the drain (`deliver_atDrain`), so the peek, dispatch and pop of a drain can be
followed round by round. -/

namespace Sys2Proof.Machine

/-! ## REALIGN -/

/-- Past the end of a byte list its wire bits read zero. -/
theorem wireBit_of_length_le {l : List Byte} {k : Nat} (h : 8 * l.length ≤ k) : wireBit (byteAt l) k = false := by
  have hbyte : byteAt l (k / 8) = 0 := List.getD_eq_default _ _ (by omega)
  simp [wireBit, hbyte]

/-- Settles O39: realignment brings wire bit `k + o` to place `k`, and past the end there are only zeros to bring. -/
theorem realignShiftsWireBits : Obligations.RealignShiftsWireBits := by
  intro l o ho
  refine ⟨realign_length l o, if_pos rfl, fun k _ => ?_⟩
  rw [wireBit_realign l ho]
  split
  · rfl
  next hend => exact wireBit_of_length_le (by omega)

/-! ## The arms of DISPATCH -/

section

variable {s : State} {n : Nat}

theorem dispatchTag_tagShort : dispatchTag s.cfg.par.tagShort n s = dispatchKnown s.cfg.par.tagShort lenShort parseShort n s :=
  if_pos rfl

theorem dispatchTag_tagExt : dispatchTag s.cfg.par.tagExt n s = dispatchKnown s.cfg.par.tagExt lenExt parseExt n s := by
  have htags := s.cfg.tags_nodup
  have hshort : s.cfg.par.tagExt ≠ s.cfg.par.tagShort := by intro h; simp [h] at htags
  rw [dispatchTag, if_neg hshort, if_pos rfl]

theorem dispatchTag_tagLong : dispatchTag s.cfg.par.tagLong n s = dispatchKnown s.cfg.par.tagLong lenLong parseLong n s := by
  have htags := s.cfg.tags_nodup
  have hshort : s.cfg.par.tagLong ≠ s.cfg.par.tagShort := by intro h; simp [h] at htags
  have hext : s.cfg.par.tagLong ≠ s.cfg.par.tagExt := by intro h; simp [h] at htags
  rw [dispatchTag, if_neg hshort, if_neg hext, if_pos rfl]

theorem dispatchTag_of_unknown {tag : Byte} (h : tag ∉ [s.cfg.par.tagShort, s.cfg.par.tagExt, s.cfg.par.tagLong]) :
    dispatchTag tag n s = .next (s.raise (.unknownType tag)) := by
  simp only [List.mem_cons, List.not_mem_nil, or_false, not_or] at h
  obtain ⟨hshort, hext, hlong⟩ := h
  rw [dispatchTag, if_neg hshort, if_neg hext, if_neg hlong]

/-- The two outcomes of an arm, the staging memory of the second byte by byte. -/
theorem dispatchKnown_outcomes (tag : Byte) {len : Nat} (hlen : len ≤ lenLong) (parse : List Byte → State → State × Bool) :
    (n < 6 + len + 1 ∨ 7 < (s.cons.stg.read 5).toNat → dispatchKnown tag len parse n s = .next (s.raise (.unknownType tag))) ∧
    (6 + len + 1 ≤ n → (s.cons.stg.read 5).toNat ≤ 7 →
      ∃ stg : Memory,
        (∀ a, stg.read a = if 6 ≤ a ∧ a < 6 + len + 1 then
          byteAt (realign (s.cons.stg.readBytes 6 (len + 1)) (s.cons.stg.read 5).toNat) (a - 6) else s.cons.stg.read a) ∧
        dispatchKnown tag len parse n s = .next (parse (stagedMessage len s) (s.setStg stg)).1) := by
  obtain ⟨hbad, heq⟩ | ⟨hgood, heq⟩ := dispatchKnown_cases tag hlen parse n s
  all_goals simp only [hdrLen, stgByte] at *
  · exact ⟨fun _ => heq, fun hn ho => absurd hbad (by omega)⟩
  · refine ⟨fun hbad => absurd hbad hgood, fun _ _ => ⟨_, fun a => ?_, heq⟩⟩
    rw [Memory.read_writeBytes, realign_length, Memory.readBytes_length]
    rfl

end

/-- Settles O40: with CONS issuing, a tag row is the arm of its tag. -/
theorem knownTagDispatch : Obligations.KnownTagDispatch := by
  intro s n i tag len parse hissuer hrow hparse
  have hcons : s.env.issuer ∈ [Agent.cons] := by simp [hissuer]
  have harm : len ≤ lenLong ∧ exec i s = dispatchKnown tag len parse n s := by
    simp only [List.mem_cons, List.not_mem_nil, or_false, Prod.mk.injEq] at hrow
    obtain ⟨rfl, rfl, rfl⟩ | ⟨rfl, rfl, rfl⟩ | ⟨rfl, rfl, rfl⟩ := hrow <;> subst hparse
    · exact ⟨by decide, (byAgent_of_mem hcons).trans dispatchTag_tagShort⟩
    · exact ⟨by decide, (byAgent_of_mem hcons).trans dispatchTag_tagExt⟩
    · exact ⟨by decide, (byAgent_of_mem hcons).trans dispatchTag_tagLong⟩
  obtain ⟨hlen, hexec⟩ := harm
  rw [hexec]
  exact dispatchKnown_outcomes tag hlen parse

/-- Settles O41: `TAG_NONE` differs from the three known tags, as any two tags do. -/
theorem unknownTagDispatch : Obligations.UnknownTagDispatch := by
  refine ⟨fun s n hissuer => ?_, fun s n tag => dispatchTag_of_unknown⟩
  obtain ⟨hnone, -⟩ := List.nodup_cons.mp s.cfg.tags_nodup
  exact (byAgent_of_mem (by simp [hissuer])).trans (dispatchTag_of_unknown hnone)

/-! ## Callback registration -/

/-- Settles O45: the agents that may register are CONS and, before the first `PROCESS_MESSAGES`, HOST. -/
theorem registerCallbackReplaces : Obligations.RegisterCallbackReplaces := by
  intro handle s
  have hmay : s.env.issuer ∈ (if s.env.started then [Agent.cons] else [.cons, .host]) ↔
      s.env.issuer = .cons ∨ (s.env.issuer = .host ∧ s.env.started = false) := by
    cases s.env.started <;> simp
  exact ⟨fun h => byAgent_of_mem (hmay.mpr h), fun h => byAgent_of_not_mem (mt hmay.mp h)⟩

/-! ## Delivering a frame -/

/-- The copy of a frame lies inside the staging buffer. -/
theorem deliver_completes (f : List Byte) (s : State) : ∃ u, deliver f s = .next u :=
  andThen_completes ⟨_, memWrite_eq_next.mpr ⟨by rw [List.length_take]; omega, rfl⟩⟩ fun _ _ => dispatchTag_completes ..

/-- Delivery leaves the parameters, the ring, the place in the drain and the waiting inputs. -/
theorem deliver_frame {f : List Byte} {s u : State} (h : deliver f s = .next u) :
    u.cfg = s.cfg ∧ u.ring = s.ring ∧ u.env.drain = s.env.drain ∧ u.env.inbox = s.env.inbox := by
  obtain ⟨stg, -, h⟩ := andThen_eq_next.mp h
  obtain ⟨v, hv, hcfg, -, hring, hdrain, hinbox, -⟩ := dispatchTag_frame _ f.length (s.setStg stg)
  cases hv.symm.trans h
  exact ⟨hcfg, hring, hdrain, hinbox⟩

theorem deliverAll_completes (fs : List (List Byte)) (s : State) : ∃ u, deliverAll fs s = .next u := by
  induction fs generalizing s with
  | nil => exact ⟨s, rfl⟩
  | cons f fs ih => exact andThen_completes (deliver_completes f s) fun v _ => ih v

theorem deliverAll_drain {fs : List (List Byte)} {s u : State} (h : deliverAll fs s = .next u) : u.env.drain = s.env.drain := by
  induction fs generalizing s with
  | nil =>
    cases h
    rfl
  | cons f fs ih =>
    obtain ⟨v, hv, h⟩ := andThen_eq_next.mp h
    obtain ⟨-, -, hdrain, -⟩ := deliver_frame hv
    exact (ih h).trans hdrain

/-- The dispatch of a frame that lies in the ring is the delivery of its bytes. -/
theorem dispatchFrame_eq_deliver {f : List Byte} {ptr : Nat} {s : State} (hfit : ptr + f.length ≤ s.ring.cap)
    (hdata : s.ring.mem.readBytes ptr f.length = f) : dispatchFrame f.length ptr s = deliver f s := by
  have hread : memRead s.ring.cap s.ring.mem ptr (min f.length stgLen) = .next (f.take stgLen) :=
    memRead_eq_next.mpr ⟨by omega, by rw [Nat.min_comm, ← Memory.readBytes_take, hdata]⟩
  rw [dispatchFrame, stageFrame, hread, andThen_next, andThen_assoc]
  rfl

/-! ## Delivery and the place in the drain -/

/-- The state with the ring and the consumer's place in the drain replaced: what a drain changes besides delivering frames. -/
def State.atDrain (s : State) (r : Ring) (d : Drain) : State := (s.setRing r).setDrain d

@[simp] theorem State.atDrain_cfg (s : State) (r : Ring) (d : Drain) : (s.atDrain r d).cfg = s.cfg := rfl
@[simp] theorem State.atDrain_cons (s : State) (r : Ring) (d : Drain) : (s.atDrain r d).cons = s.cons := rfl
@[simp] theorem State.atDrain_atDrain (s : State) (r r' : Ring) (d d' : Drain) : (s.atDrain r d).atDrain r' d' = s.atDrain r' d' := rfl
theorem State.setDrain_eq_atDrain (s : State) (d : Drain) : s.setDrain d = s.atDrain s.ring d := rfl
theorem State.setStg_atDrain (s : State) (r : Ring) (d : Drain) (m : Memory) :
    (s.atDrain r d).setStg m = (s.setStg m).atDrain r d := rfl

theorem State.emit_atDrain (s : State) (r : Ring) (d : Drain) (tag : Byte) (x : Record) (m : List Byte) :
    (s.atDrain r d).emit tag x m = (s.emit tag x m).atDrain r d := by
  rw [State.emit, State.emit, State.atDrain_cons]
  split <;> rfl

/-- A parser that looks neither at the ring nor at the place in the drain, and leaves both. -/
def DrainBlind (parse : List Byte → State → State × Bool) : Prop :=
  ∀ m s r d, (parse m (s.atDrain r d)).1 = (parse m s).1.atDrain r d

section

variable (s : State) (r : Ring) (d : Drain)

theorem gate_atDrain (p : CrcParams) (c : Half) (tag : Byte) (x : Record) (m : List Byte) :
    (gate p c tag x m (s.atDrain r d)).1 = (gate p c tag x m s).1.atDrain r d := by
  unfold gate
  split
  · exact State.emit_atDrain (s.setCons (storeRecord x s.cons)) r d tag x m
  · rfl

theorem parseShort_drainBlind : DrainBlind parseShort := fun _ _ _ _ => gate_atDrain ..
theorem parseExt_drainBlind : DrainBlind parseExt := fun _ _ _ _ => gate_atDrain ..
theorem parseLong_drainBlind : DrainBlind parseLong := fun _ _ _ _ => gate_atDrain ..

theorem dispatchKnown_atDrain {parse : List Byte → State → State × Bool} (hparse : DrainBlind parse) (tag : Byte)
    (len n : Nat) : dispatchKnown tag len parse n (s.atDrain r d) =
      andThen (dispatchKnown tag len parse n s) fun u => .next (u.atDrain r d) := by
  have hbyte : stgByte (s.atDrain r d) 5 = stgByte s 5 := rfl
  unfold dispatchKnown
  rw [hbyte]
  split
  · rfl
  · simp only [andThen_assoc, andThen_next, State.atDrain_cons, State.setStg_atDrain, hparse _ _ r d]

theorem dispatchTag_atDrain (tag : Byte) (n : Nat) :
    dispatchTag tag n (s.atDrain r d) = andThen (dispatchTag tag n s) fun u => .next (u.atDrain r d) := by
  unfold dispatchTag
  rw [State.atDrain_cfg]
  split_ifs
  · exact dispatchKnown_atDrain s r d parseShort_drainBlind ..
  · exact dispatchKnown_atDrain s r d parseExt_drainBlind ..
  · exact dispatchKnown_atDrain s r d parseLong_drainBlind ..
  · rfl

theorem deliver_atDrain (f : List Byte) :
    deliver f (s.atDrain r d) = andThen (deliver f s) fun u => .next (u.atDrain r d) := by
  simp only [deliver, andThen_assoc, State.atDrain_cons, State.setStg_atDrain, dispatchTag_atDrain]

theorem deliverAll_atDrain (fs : List (List Byte)) :
    deliverAll fs (s.atDrain r d) = andThen (deliverAll fs s) fun u => .next (u.atDrain r d) := by
  induction fs generalizing s with
  | nil => rfl
  | cons f fs ih =>
    simp only [deliverAll, deliver_atDrain, andThen_assoc, andThen_next, ih]

end

/-! ## One round of the drain -/

section

variable {s : State} {f : List Byte} {fs : List (List Byte)}

theorem drainPeek_of_empty (h : holdsFrames s.cfg.par.lenPrefix s.ring [] = true) : drainPeek s = .next (s.setDrain .idle) := by
  rw [drainPeek, ringPeek_of_empty (holdsFrames_nil.mp h)]
  rfl

/-- The peek finds the oldest frame, whose bytes lie at the offset it answers. -/
theorem drainPeek_of_frame (h : holdsFrames s.cfg.par.lenPrefix s.ring (f :: fs) = true) :
    ∃ ptr, drainPeek s = .next (s.setDrain (.dispatch f.length ptr)) ∧ s.ring.mem.readBytes ptr f.length = f := by
  obtain ⟨t, hl, -, hdata, -⟩ := holdsFrames_cons.mp h
  refine ⟨t + s.cfg.par.lenPrefix, ?_, hdata⟩
  rw [drainPeek, ringPeek_eq_some.mpr ⟨t, hl, rfl⟩]
  rfl

theorem exec_processMessages_of_cons (hissuer : s.env.issuer = .cons) (hidle : s.env.drain = .idle) :
    exec .processMessages s = drainPeek (s.setEnv { s.env with started := true }) :=
  (byAgent_of_mem (by simp [hissuer])).trans (whenIdle_of_idle hidle)

/-- The dispatch step on a peeked frame is its delivery. -/
theorem drainStep_of_dispatch {n ptr : Nat} (hinv : s.Inv) (hd : s.env.drain = .dispatch n ptr)
    (h : holdsFrames s.cfg.par.lenPrefix s.ring (f :: fs) = true) :
    drainStep s = andThen (deliver f s) fun u => .next (u.setDrain .pop) := by
  obtain ⟨t, hl, -, hdata, -⟩ := holdsFrames_cons.mp h
  have hpeek : ringPeek s.cfg.par.lenPrefix s.ring = .next (n, some ptr) := by
    have hdrain := hinv.drain
    rwa [hd] at hdrain
  cases hpeek.symm.trans (ringPeek_eq_some.mpr ⟨t, hl, rfl⟩)
  simp only [drainStep, hd, dispatchFrame_eq_deliver (locate_fits hinv.ring hl) hdata]

/-- The pop step consumes the oldest frame. -/
theorem drainStep_of_pop (hinv : s.Inv) (hd : s.env.drain = .pop)
    (h : holdsFrames s.cfg.par.lenPrefix s.ring (f :: fs) = true) :
    ∃ r, r = { s.ring with tail := r.tail } ∧ holdsFrames s.cfg.par.lenPrefix r fs = true ∧
      drainStep s = .next (s.atDrain r .peek) := by
  obtain ⟨t, hl, -, -, hrest⟩ := holdsFrames_cons.mp h
  refine ⟨_, rfl, hrest, ?_⟩
  simp only [drainStep, hd, drainPop, ringPop_discard hl (locate_fits hinv.ring hl), andThen_next]
  rfl

end

/-- Settles O42: the call is the peek of a drain in the state that records it. -/
theorem processMessagesFirstPeek : Obligations.ProcessMessagesFirstPeek := by
  intro s _ hissuer hidle
  rw [exec_processMessages_of_cons hissuer hidle]
  refine ⟨fun hnone => ?_, fun f fs hfs => drainPeek_of_frame (s := s.setEnv _) hfs⟩
  rw [drainPeek_of_empty, ← hidle]
  exacts [rfl, hnone]

/-- Settles O43: the frame that was peeked is still the oldest one. -/
theorem drainStepsDeliverThenPop : Obligations.DrainStepsDeliverThenPop := by
  intro s f fs hinv hfs
  refine ⟨fun n ptr hd => ?_, fun hd => drainStep_of_pop hinv hd hfs⟩
  obtain ⟨u, hu⟩ := deliver_completes f s
  obtain ⟨-, hring, -⟩ := deliver_frame hu
  exact ⟨u, hu, hring, by rw [drainStep_of_dispatch hinv hd hfs, hu, andThen_next]⟩

/-! ## The whole drain -/

/-- The machine's run as a function on its states: `Sys2Proof.core` names the types of the run by projections. -/
def runSteps (k : Nat) (s : State) : Res State := Sys2Proof.core.run k s

theorem runSteps_succ (s : State) (k : Nat) : runSteps (k + 1) s = andThen (step s) (runSteps k) := by
  have hstep : Sys2Proof.core.step s = step s := rfl
  simp only [runSteps, Host.Core.run, hstep]
  cases step s <;> rfl

/-- With no input waiting, the next step is the drain's. -/
theorem runSteps_succ_of_drainStep {s t : State} (h : drainStep s = .next t) (hin : s.env.inbox = []) (k : Nat) :
    runSteps (k + 1) s = runSteps k t := by
  rw [runSteps_succ, step_of_empty_inbox hin, h, andThen_next]

/-- One round: from a peek that finds the oldest frame, over dispatch and pop, to the next peek. The frame is delivered and consumed. -/
theorem runSteps_round {s w : State} {f : List Byte} {fs : List (List Byte)} (hinv : s.Inv) (hin : s.env.inbox = [])
    (hfs : holdsFrames s.cfg.par.lenPrefix s.ring (f :: fs) = true) (hw : deliver f s = .next w) :
    ∃ r, r = { s.ring with tail := r.tail } ∧ holdsFrames s.cfg.par.lenPrefix r fs = true ∧ (w.atDrain r .peek).Inv ∧
      ∀ k, andThen (drainPeek s) (runSteps (k + 3)) = andThen (drainPeek (w.atDrain r .peek)) (runSteps k) := by
  obtain ⟨hcfg, -, -, hinbox⟩ := deliver_frame hw
  obtain ⟨ptr, hpeek, -⟩ := drainPeek_of_frame hfs
  have hpeeked := drainPeek_inv hinv hpeek
  have hdispatch : drainStep (s.setDrain (.dispatch f.length ptr)) = .next (w.atDrain s.ring .pop) := by
    rw [drainStep_of_dispatch hpeeked rfl hfs, State.setDrain_eq_atDrain, deliver_atDrain, hw]
    rfl
  have hdelivered := drainStep_inv hpeeked hdispatch
  obtain ⟨r, hr, hrest, hpop⟩ := drainStep_of_pop (fs := fs) hdelivered rfl (by rw [State.atDrain_cfg, hcfg]; exact hfs)
  rw [State.atDrain_cfg, hcfg] at hrest
  rw [State.atDrain_atDrain] at hpop
  have hempty : (w.atDrain r .peek).env.inbox = [] := hinbox.trans hin
  refine ⟨r, hr, hrest, drainStep_inv hdelivered hpop, fun k => ?_⟩
  rw [hpeek, andThen_next, runSteps_succ_of_drainStep hdispatch hin, runSteps_succ_of_drainStep hpop hempty, runSteps_succ,
    step_of_empty_inbox hempty]
  rfl

/-- A drain from one of its peeks on: three steps for each frame deliver the frames and empty the ring. -/
theorem runSteps_after_peek {s u : State} {fs : List (List Byte)} (hinv : s.Inv) (hin : s.env.inbox = [])
    (hfs : holdsFrames s.cfg.par.lenPrefix s.ring fs = true) (hu : deliverAll fs s = .next u) :
    andThen (drainPeek s) (runSteps (3 * fs.length)) =
      .next (u.atDrain { s.ring with tail := s.ring.head } .idle) := by
  induction fs generalizing s u with
  | nil =>
    cases hu
    rw [drainPeek_of_empty hfs, holdsFrames_nil.mp hfs]
    rfl
  | cons f fs ih =>
    obtain ⟨w, hw, hrest⟩ := andThen_eq_next.mp hu
    obtain ⟨hcfg, -, -, hinbox⟩ := deliver_frame hw
    obtain ⟨r, hr, hframes, hnext, hround⟩ := runSteps_round hinv hin hfs hw
    have hdeliver : deliverAll fs (w.atDrain r .peek) = .next (u.atDrain r .peek) := by
      rw [deliverAll_atDrain, hrest, andThen_next]
    rw [List.length_cons, Nat.mul_succ, hround, ih hnext (hinbox.trans hin) (by rwa [State.atDrain_cfg, hcfg]) hdeliver, hr]
    rfl

/-- Settles O44: the first step takes the call off the inbox and peeks; the rounds of the drain follow. -/
theorem drainDeliversEveryFrame : Obligations.DrainDeliversEveryFrame := by
  intro s fs hinv hidle hinbox hfs
  obtain ⟨u, hu⟩ := deliverAll_completes fs (s.setEnv { s.env with inbox := [], issuer := .cons, started := true })
  have hcall : step s = drainPeek (s.setEnv { s.env with inbox := [], issuer := .cons, started := true }) := by
    rw [stepRunsDecodedInstruction s _ _ _ _ _ _ hinbox (decodeEncodeRoundTrip .processMessages [] rfl)]
    exact exec_processMessages_of_cons (s := s.setEnv { s.env with inbox := [], issuer := .cons }) rfl hidle
  have hcalled : (s.setEnv { s.env with inbox := [], issuer := .cons, started := true }).Inv :=
    ⟨hinv.dec, hinv.ring, hinv.cons, hinv.drain⟩
  refine ⟨u, hu, ?_⟩
  change runSteps (1 + 3 * fs.length) s = _
  rw [Nat.add_comm, runSteps_succ, hcall, runSteps_after_peek hcalled rfl hfs hu, ← (deliverAll_drain hu).trans hidle]
  rfl

end Sys2Proof.Machine
end

section
/-! What stands on the output ports, and who may use the input ports (spec/60_exceptions.md R303, R324; spec/10_state.md R43, R48). A past on
the output ports can be put in front of a state's own events before an operation or after it, to the same effect (`OutputBlind`); this is
shown once for each operation, and two states that differ in their outputs only are one state after two pasts. -/

namespace Sys2Proof.Machine

/-! ## The agents of an instruction -/

/-- Settles O57: the three pure functions are everyone's, and every other instruction first asks for its issuer. -/
theorem wrongAgentIsRefused : Obligations.WrongAgentIsRefused := by
  intro i s h
  have everyone : s.env.issuer ∈ [Agent.prod, .cons, .host] := by cases s.env.issuer <;> decide
  cases i with
  | crcBch | crcCcitt | extractBits => exact absurd everyone h
  | _ => exact byAgent_of_not_mem h

/-! ## A state after a past -/

/-- Events on the three output ports. -/
structure Outputs where
  cb : List CbEvent
  diag : List Condition
  answers : List Answer

/-- The state with the events of a past in front of its own on the output ports. -/
def State.after (s : State) (past : Outputs) : State :=
  s.withOutputs (past.cb ++ s.env.cbOut) (past.diag ++ s.env.diag) (past.answers ++ s.env.answers)

section

variable (s : State) (past : Outputs)

@[simp] theorem State.after_cfg : (s.after past).cfg = s.cfg := rfl
@[simp] theorem State.after_dec : (s.after past).dec = s.dec := rfl
@[simp] theorem State.after_ring : (s.after past).ring = s.ring := rfl
@[simp] theorem State.after_cons : (s.after past).cons = s.cons := rfl
@[simp] theorem State.after_env_issuer : (s.after past).env.issuer = s.env.issuer := rfl
@[simp] theorem State.after_env_enable : (s.after past).env.enable = s.env.enable := rfl
@[simp] theorem State.after_env_now : (s.after past).env.now = s.env.now := rfl
@[simp] theorem State.after_env_drain : (s.after past).env.drain = s.env.drain := rfl
@[simp] theorem stgByte_after (i : Nat) : stgByte (s.after past) i = stgByte s i := rfl

theorem State.setDec_after (d : Decoder) : (s.after past).setDec d = (s.setDec d).after past := rfl
theorem State.setRing_after (r : Ring) : (s.after past).setRing r = (s.setRing r).after past := rfl
theorem State.setStg_after (m : Memory) : (s.after past).setStg m = (s.setStg m).after past := rfl

theorem State.raise_after (c : Condition) : (s.after past).raise c = (s.raise c).after past := by
  simp [State.after, State.withOutputs, State.raise, State.setEnv]

theorem State.answer_after (a : Answer) : (s.after past).answer a = (s.answer a).after past := by
  simp [State.after, State.withOutputs, State.answer, State.setEnv]

theorem State.setRing_answer_after (r : Ring) (a : Answer) :
    ((s.after past).setRing r).answer a = ((s.setRing r).answer a).after past :=
  State.answer_after (s.setRing r) past a

theorem State.emit_after (tag : Byte) (r : Record) (raw : List Byte) :
    (s.after past).emit tag r raw = (s.emit tag r raw).after past := by
  rw [State.emit, State.emit, State.after_cons]
  split
  · simp [State.after, State.withOutputs, State.setEnv]
  · rfl

end

/-! ## Operations that do not read the output ports -/

/-- An operation that gives a state after a past the outcome it gives the state itself, after the same past. -/
def OutputBlind (f : State → Res State) : Prop :=
  ∀ s past, f (s.after past) = andThen (f s) fun t => .next (t.after past)

namespace OutputBlind

variable {f g : State → Res State}

theorem next {u : State → State} (h : ∀ s past, u (s.after past) = (u s).after past) : OutputBlind fun s => .next (u s) :=
  fun s past => congrArg _ (h s past)

theorem refused (r : Refusal) : OutputBlind fun _ => .refused r := fun _ _ => rfl

theorem andThen (hf : OutputBlind f) (hg : OutputBlind g) : OutputBlind fun s => Machine.andThen (f s) g := by
  intro s past
  simp only [hf s past, andThen_assoc, andThen_next, hg _ past]

/-- First a result that the outputs do not bear on, then an operation that uses it. -/
theorem reads {α : Type} {x : State → Res α} {k : α → State → Res State} (hx : ∀ s past, x (s.after past) = x s)
    (hk : ∀ a, OutputBlind (k a)) : OutputBlind fun s => Machine.andThen (x s) fun a => k a s := by
  intro s past
  simp only [hx s past, hk _ s past, andThen_assoc]

theorem byAgent (hf : OutputBlind f) (who : List Agent) : OutputBlind fun s => Machine.byAgent who s (f s) := by
  intro s past
  beta_reduce
  by_cases h : s.env.issuer ∈ who
  · rw [byAgent_of_mem h, byAgent_of_mem (s := s.after past) h, hf s past]
  · rw [byAgent_of_not_mem h, byAgent_of_not_mem (s := s.after past) h]
    rfl

theorem whenIdle (hf : OutputBlind f) (r : Refusal) : OutputBlind fun s => Machine.whenIdle r s (f s) := by
  intro s past
  beta_reduce
  by_cases h : s.env.drain = .idle
  · rw [whenIdle_of_idle h, whenIdle_of_idle (s := s.after past) h, hf s past]
  · rw [whenIdle_of_busy h, whenIdle_of_busy (s := s.after past) h]
    rfl

end OutputBlind

/-! ## The producer's operations -/

theorem andThen_ite {α β : Type} (c : Prop) [Decidable c] (x y : Res α) (k : α → Res β) :
    andThen (if c then x else y) k = if c then andThen x k else andThen y k :=
  apply_ite (andThen · k) c x y

section

variable (s : State) (past : Outputs)

theorem push_after (data : List Byte) :
    push data (s.after past) = andThen (push data s) fun x => .next (x.1.after past, x.2) := by
  simp only [push, State.after_cfg, State.after_ring, andThen_assoc]
  congr 1
  funext ⟨r, pushed⟩
  cases pushed with
  | rejected | stored => rfl
  | overflow => simp only [State.setRing_after, State.raise_after, andThen_next]

theorem trySync_after (e : SyncEntry) (b : Bool) (c : Nat) (now : Word) :
    trySync e b c now (s.after past) = andThen (trySync e b c now s) fun x => .next (x.1.after past, x.2) := by
  simp only [trySync, State.after_cfg, State.after_dec, andThen_assoc]
  congr 1
  funext w
  split
  · simp only [push_after, andThen_assoc, andThen_next]
  · rfl

end

theorem tryActive_outputBlind (e : SyncEntry) : OutputBlind (tryActive e) :=
  .byAgent (fun s past => by simp only [trySync_after, State.after_dec, State.after_env_now, andThen_assoc, andThen_next]) _

theorem syncMatch_outputBlind (b : Bool) (c : Nat) (now : Word) : OutputBlind (syncMatch b c now) := by
  intro s past
  simp only [syncMatch, trySync_after, State.after_cfg, andThen_assoc, andThen_ite, andThen_next]

theorem acceptBit_outputBlind (bit : Bool) : OutputBlind (acceptBit bit) := by
  intro s past
  simp only [acceptBit, State.after_cfg, State.after_dec, State.after_env_now, State.setDec_after,
    syncMatch_outputBlind _ _ _ _ past, andThen_assoc, andThen_next]

theorem execProcessBit_outputBlind (bit : Bool) : OutputBlind (execProcessBit bit) := by
  refine .byAgent (fun s past => ?_) _
  rw [State.after_env_enable]
  split
  · exact acceptBit_outputBlind bit s past
  · rfl

/-! ## The consumer's operations -/

/-- A parser that does not read the output ports. -/
def ParserOutputBlind (parse : List Byte → State → State × Bool) : Prop :=
  ∀ m s past, parse m (s.after past) = ((parse m s).1.after past, (parse m s).2)

theorem gate_after (p : CrcParams) (c : Half) (tag : Byte) (r : Record) (m : List Byte) (s : State) (past : Outputs) :
    gate p c tag r m (s.after past) = ((gate p c tag r m s).1.after past, (gate p c tag r m s).2) := by
  unfold gate
  split
  · exact congrArg (·, true) (State.emit_after (s.setCons (storeRecord r s.cons)) past tag r m)
  · exact congrArg (·, false) (State.raise_after s past _)

theorem parseShort_outputBlind : ParserOutputBlind parseShort := fun _ _ _ => gate_after ..
theorem parseExt_outputBlind : ParserOutputBlind parseExt := fun _ _ _ => gate_after ..
theorem parseLong_outputBlind : ParserOutputBlind parseLong := fun _ _ _ => gate_after ..

section

variable {parse : List Byte → State → State × Bool}

theorem callParser_outputBlind (hparse : ParserOutputBlind parse) (len : Nat) (m : List Byte) :
    OutputBlind (callParser len parse m) := by
  refine .byAgent ?_ _
  split
  · exact .refused _
  · exact .next fun s past => by rw [hparse, State.answer_after]

theorem dispatchKnown_outputBlind (hparse : ParserOutputBlind parse) (tag : Byte) (len n : Nat) :
    OutputBlind (dispatchKnown tag len parse n) := by
  intro s past
  unfold dispatchKnown
  rw [stgByte_after]
  split
  · rw [State.raise_after, andThen_next]
  · simp only [State.after_cons, State.setStg_after, hparse _ _ past, andThen_assoc, andThen_next]

end

theorem dispatchTag_outputBlind (tag : Byte) (n : Nat) : OutputBlind (dispatchTag tag n) := by
  intro s past
  unfold dispatchTag
  rw [State.after_cfg]
  split_ifs
  · exact dispatchKnown_outputBlind parseShort_outputBlind ..
  · exact dispatchKnown_outputBlind parseExt_outputBlind ..
  · exact dispatchKnown_outputBlind parseLong_outputBlind ..
  · rw [State.raise_after, andThen_next]

theorem dispatchFrame_outputBlind (n ptr : Nat) : OutputBlind (dispatchFrame n ptr) := by
  intro s past
  simp only [dispatchFrame, stageFrame, State.after_cons, State.after_ring, State.setStg_after, stgByte_after,
    dispatchTag_outputBlind _ _ _ past, andThen_assoc, andThen_next]

theorem drainPeek_outputBlind : OutputBlind drainPeek := by
  refine .reads (fun _ _ => rfl) fun x => ?_
  split <;> exact .next fun _ _ => rfl

theorem drainPop_outputBlind : OutputBlind drainPop := .reads (fun _ _ => rfl) fun _ => .next fun _ _ => rfl

theorem drainStep_outputBlind : OutputBlind drainStep := by
  intro s past
  unfold drainStep
  rw [State.after_env_drain]
  split
  · rfl
  · exact drainPeek_outputBlind s past
  · exact (dispatchFrame_outputBlind _ _).andThen (.next fun _ _ => rfl) s past
  · exact drainPop_outputBlind s past

theorem execProcessMessages_outputBlind : OutputBlind execProcessMessages :=
  .byAgent (.whenIdle (fun s past => drainPeek_outputBlind (s.setEnv { s.env with started := true }) past) _) _

theorem execRegisterCallback_outputBlind (handle : Nat) : OutputBlind (execRegisterCallback handle) := fun s past =>
  OutputBlind.byAgent (.next (u := fun s => s.setCons { s.cons with cbHandle := handle, cbValid := true }) fun _ _ => rfl)
    (if s.env.started then [.cons] else [.cons, .host]) s past

/-! ## Every instruction, every step -/

theorem execExtractBits_outputBlind (buf : List Byte) (bitOffset bitLen : Nat) :
    OutputBlind (execExtractBits buf bitOffset bitLen) := by
  intro s past
  unfold execExtractBits
  split
  · rw [State.answer_after, andThen_next]
  · rfl

theorem exec_outputBlind (i : Instr) : OutputBlind (exec i) := by
  have tag (par : Params → Byte) (n : Nat) : OutputBlind fun s => byAgent [.cons] s (dispatchTag (par s.cfg.par) n s) :=
    .byAgent (fun s past => dispatchTag_outputBlind (par s.cfg.par) n s past) _
  cases i with
  | processBit bit => exact execProcessBit_outputBlind bit
  | syncMatch => exact .byAgent (fun s past => syncMatch_outputBlind s.dec.phase s.dec.cur s.env.now s past) _
  | syncLong | syncExt | syncShort => exact fun _ _ => tryActive_outputBlind ..
  | rbInit present capacity => exact .byAgent (.whenIdle (.next fun _ _ => State.setRing_answer_after ..) _) _
  | rbFreespace => exact .byAgent (.next fun _ _ => State.answer_after ..) _
  | rbPush data => exact .byAgent (fun s past => by simp only [push_after, State.answer_after, andThen_assoc, andThen_next]) _
  | rbPeek => exact .byAgent (.reads (fun _ _ => rfl) fun _ => .next fun _ _ => State.answer_after ..) _
  | rbPop o k =>
    exact .byAgent (.whenIdle (.reads (fun _ _ => rfl) fun _ => .next fun _ _ => State.setRing_answer_after ..) _) _
  | rbOverflowcount => exact .byAgent (.next fun _ _ => State.setRing_answer_after ..) _
  | crcBch data | crcCcitt data => exact .next fun _ _ => State.answer_after ..
  | extractBits buf o n => exact execExtractBits_outputBlind buf o n
  | parseShort m => exact callParser_outputBlind parseShort_outputBlind _ m
  | parseExt m => exact callParser_outputBlind parseExt_outputBlind _ m
  | parseLong m => exact callParser_outputBlind parseLong_outputBlind _ m
  | processMessages => exact execProcessMessages_outputBlind
  | registerCallback handle => exact execRegisterCallback_outputBlind handle
  | tagNone n => exact tag (·.tagNone) n
  | tagShort n => exact tag (·.tagShort) n
  | tagExt n => exact tag (·.tagExt) n
  | tagLong n => exact tag (·.tagLong) n

theorem serveTransaction_outputBlind (a : Agent) (f : Format) (bytes : List Byte) : OutputBlind (serveTransaction a f bytes) := by
  intro s past
  unfold serveTransaction
  split
  · exact exec_outputBlind _ (s.issuedBy a) past
  · rfl

theorem serve_outputBlind (e : Event) : OutputBlind (serve e) := by
  cases e with
  | port a f bytes => exact serveTransaction_outputBlind a f bytes
  | consStep => exact drainStep_outputBlind
  | reset => exact .whenIdle (.next fun _ _ => rfl) _
  | enable v | now v => exact .next fun _ _ => rfl

theorem step_outputBlind : OutputBlind step := by
  intro s past
  cases hin : s.env.inbox with
  | nil =>
    rw [step_of_empty_inbox hin, step_of_empty_inbox (s := s.after past) hin]
    exact drainStep_outputBlind s past
  | cons e rest =>
    rw [step_of_inbox_cons hin, step_of_inbox_cons (s := s.after past) hin]
    exact serve_outputBlind e (s.setInbox rest) past

/-- Two states that differ in their outputs only are one state, its ports empty, after two pasts. -/
theorem State.withOutputs_nil_after (s : State) (cb : List CbEvent) (diag : List Condition) (answers : List Answer) :
    (s.withOutputs [] [] []).after ⟨cb, diag, answers⟩ = s.withOutputs cb diag answers := by
  simp [State.after, State.withOutputs, State.setEnv]

/-- Settles O58: a step from the state with empty ports decides the outcome and the new events; what stood on the ports stays in front. -/
theorem outputsAreWriteOnly : Obligations.OutputsAreWriteOnly := by
  intro s cb diag answers
  have blind (cb : List CbEvent) (diag : List Condition) (answers : List Answer) :=
    s.withOutputs_nil_after cb diag answers ▸ step_outputBlind (s.withOutputs [] [] []) ⟨cb, diag, answers⟩
  have hown : step s = _ := blind s.env.cbOut s.env.diag s.env.answers
  rw [hown, blind cb diag answers]
  cases step (s.withOutputs [] [] []) with
  | next u => exact ⟨u.env.cbOut, u.env.diag, u.env.answers, rfl, rfl, rfl, rfl⟩
  | fault r | refused r => rfl

end Sys2Proof.Machine
end

section
/-! Reset, quiescence and the uninitialised ring (spec/70_reset_and_hazards.md), and the inputs that are no transactions. An uninitialised ring
of the invariant has every register zero, so it is empty and its overflow count is clear, and a push is rejected without a trace. -/

namespace Sys2Proof.Machine

/-! ## Inputs that are no transactions -/

theorem drainStep_of_idle {s : State} (h : s.env.drain = .idle) : drainStep s = .next s := by
  simp only [drainStep, h]

/-- Settles O50, by the input that stands first in the inbox. -/
theorem stepServesOtherInputs : Obligations.StepServesOtherInputs := fun _ _ =>
  ⟨fun _ henable => step_of_inbox_cons henable, fun _ hnow => step_of_inbox_cons hnow, fun hcons => step_of_inbox_cons hcons,
    fun hempty => step_of_empty_inbox hempty, fun hempty hidle => (step_of_empty_inbox hempty).trans (drainStep_of_idle hidle)⟩

/-! ## Reset -/

theorem Decoder.reset_db (b : Bool) : Decoder.reset.db b = [] := by cases b <;> rfl

/-- The three parts of the block right after reset (spec/70_reset_and_hazards.md R340). -/
theorem reset_parts {s t : State} (h : t = State.reset ∨ hostReset s = .next t) :
    t.dec = Decoder.reset ∧ t.ring = Ring.reset ∧ t.cons = Consumer.reset := by
  obtain rfl | h := h
  · exact ⟨rfl, rfl, rfl⟩
  · obtain ⟨-, rfl⟩ := hostReset_eq_next h
    exact ⟨rfl, rfl, rfl⟩

/-- Settles O51: the values are those of the parts' reset states; a drain in progress is all that keeps a reset from completing. -/
theorem resetGivesStatedValues : Obligations.ResetGivesStatedValues := by
  refine ⟨fun s t h => ?_, fun s inbox hin hidle => ?_⟩
  · obtain ⟨hdec, hring, hcons⟩ := reset_parts h
    rw [hdec, hring, hcons]
    exact ⟨rfl, rfl, rfl, fun b _ => by rw [Decoder.reset_db]; rfl, rfl, rfl, rfl, rfl, rfl, rfl⟩
  · have hreset : hostReset (s.setInbox inbox) = .next _ := whenIdle_of_idle hidle
    exact ⟨_, (step_of_inbox_cons hin).trans hreset, hreset, rfl⟩

/-- Settles O53, part by part. -/
theorem invariantAtReset : Obligations.InvariantAtReset :=
  ⟨decoderInv_reset Cfg.base, ringInv_reset _, consumerInv_reset, drainInv_of_idle rfl⟩

/-! ## Quiescence -/

/-- Settles O52: each of the four asks for an idle drain, the three instructions after they have asked for their agent. -/
theorem busyMachineRefuses : Obligations.BusyMachineRefuses := fun _ hbusy =>
  ⟨whenIdle_of_busy hbusy, fun hhost _ _ => (byAgent_of_mem (by simp [hhost])).trans (whenIdle_of_busy hbusy),
    fun hcons _ _ => (byAgent_of_mem (by simp [hcons])).trans (whenIdle_of_busy hbusy),
    fun hcons => (byAgent_of_mem (by simp [hcons])).trans (whenIdle_of_busy hbusy)⟩

/-! ## An uninitialised ring -/

section

variable {s : State}

theorem State.setDrain_self {d : Drain} (h : s.env.drain = d) : s.setDrain d = s := by
  subst h
  rfl

/-- A call that finds no frame never leaves the idle drain. -/
theorem drainPeek_of_empty_of_idle (hempty : s.ring.head = s.ring.tail) (hidle : s.env.drain = .idle) : drainPeek s = .next s := by
  rw [drainPeek_of_empty (holdsFrames_nil.mpr hempty), State.setDrain_self hidle]

theorem Ring.clear_ovf_self {r : Ring} (h : r.ovf = 0) : { r with ovf := 0 } = r := by
  cases r
  cases h
  rfl

theorem exec_rbOverflowcount_of_zero (hissuer : s.env.issuer = .cons) (h : s.ring.ovf = 0) :
    exec .rbOverflowcount s = .next (s.answer (.overflowCount 0)) := by
  rw [exec_rbOverflowcount_of_cons hissuer, Ring.clear_ovf_self h, h]
  rfl

theorem trySync_of_invalid (hv : s.ring.valid = false) {e : SyncEntry} {b : Bool} {c : Nat} {now : Word} {t : State} {hit : Bool}
    (h : trySync e b c now s = .next (t, hit)) : t = s := by
  obtain ⟨-, ⟨-, rfl, -⟩ | ⟨-, -, -, ok, hpush⟩⟩ := trySync_cases h
  · rfl
  · cases (push_of_invalid hv).symm.trans hpush
    rfl

/-- A sync match is lost without trace (spec/70_reset_and_hazards.md R342). -/
theorem syncMatch_of_invalid (hv : s.ring.valid = false) {b : Bool} {c : Nat} {now : Word} {t : State}
    (h : syncMatch b c now s = .next t) : t = s := by
  obtain h | ⟨-, h⟩ | ⟨-, -, hit, h⟩ := syncMatch_cases h <;> exact trySync_of_invalid hv h

/-- An accepted sample changes the decoder part and nothing else. -/
theorem exec_processBit_of_invalid (h : Accepting s) (hv : s.ring.valid = false) (bit : Bool) :
    exec (.processBit bit) s = .next (s.setDec (s.dec.accept s.cfg.par bit)) := by
  obtain ⟨u, hu, ht⟩ := exec_processBit_accepted h bit
  rw [exec_syncMatch_of_prod (by simpa using h.issuer)] at hu
  obtain rfl := syncMatch_of_invalid (by simpa using hv) hu
  exact ht

end

/-- Settles O24, one operation after the other. -/
theorem uninitialisedRingFailsSafely : Obligations.UninitialisedRingFailsSafely := by
  intro s h hv
  obtain ⟨-, hhead, htail, hovf⟩ := h.ring.invalid hv
  have hempty : s.ring.head = s.ring.tail := hhead.trans htail.symm
  refine ⟨fun hprod henable bit => ?_, fun hprod data => exec_rbPush_of_push hprod (push_of_invalid hv), fun hcons => ?_⟩
  · exact ⟨_, exec_processBit_of_invalid ⟨h, hprod, henable⟩ hv bit, rfl, rfl, rfl⟩
  refine ⟨?_, exec_rbPeek_of_peek hcons (ringPeek_of_empty hempty), exec_rbOverflowcount_of_zero hcons hovf, fun hidle => ⟨?_, ?_⟩⟩
  · rw [exec_rbFreespace_of_mem (by simp [hcons]), freeSpace_of_invalid hv]
  · exact fun o k => exec_rbPop_of_pop hcons hidle (ringPop_of_empty hempty o)
  · exact (exec_processMessages_of_cons hcons hidle).trans (drainPeek_of_empty_of_idle hempty hidle)

end Sys2Proof.Machine
end
